-- ==== Sys2Proof/Word.lean ====
section
/-! DEFINITION. The word types of HUFFCORE: the 32-bit bus word and the byte of the table streams
(R8, R61, R62, R68). Everything the spec counts or indexes (symbols, weights, node indices) is a
natural number, as R8 has it, and becomes a word only on the bus. -/

namespace Sys2Proof

/-- A 32-bit bus word: a command word, a register as the host sees it, a host data word (R68, R90). -/
abbrev Word := BitVec 32

/-- One byte of the table text on `TI` or `TO` (R61, R62, R96). -/
abbrev Byte := BitVec 8

/-- `zext_32` of a natural number (R8, R79): the word whose value is `n` (mod 2^32). -/
def word (n : Nat) : Word := BitVec.ofNat 32 n

end Sys2Proof
end

