-- ==== Sys2Proof/Config.lean ====
section
/-! DEFINITION. The parameters of the block (R5): `ASIZE`, `WW`, `NCAP`. They are constant for the life
of the block; every state carries them unchanged (log entry 1). -/

namespace Sys2Proof

/-- The three parameters of R5. The legal ranges are `Config.wf` (WellFormed.lean); the derived
constants `SW`, `WMAX`, `QCAP` are in Machine/Operands.lean. -/
structure Config where
  /-- `ASIZE`: real symbols are `0..ASIZE-1`, the value `ASIZE` is the sentinel (R5). -/
  asize : Nat
  /-- `WW`: width in bits of a weight and of a count (R5). -/
  ww    : Nat
  /-- `NCAP`: number of slots of the node arena (R5). -/
  ncap  : Nat
deriving DecidableEq, Repr

/-- A block with the given alphabet size and every other parameter at its default (R5: `WW` = 32,
`NCAP` = 2*ASIZE+1). -/
def Config.ofAsize (a : Nat) : Config := { asize := a, ww := 32, ncap := 2 * a + 1 }

/-- The default parameters (R5): `ASIZE` = 256, `WW` = 32, `NCAP` = 513. -/
def Config.default : Config := Config.ofAsize 256

end Sys2Proof
end

