-- ==== Sys2Proof/Syntax.lean ====
section
/-! DEFINITION. The commands of HUFFCORE command set 1: one constructor per row of
spec/opcode_table.json. No command has an operand field (R90), so no constructor has an argument. -/

namespace Sys2Proof

/-- The six commands a host starts by writing `CMD` (R1, R92). -/
inductive Instr where
  /-- `BUILDC`: build the tree from the count memory (R130). -/
  | buildc
  /-- `WRITE`: emit the code table of the tree (R160). -/
  | write
  /-- `BUILDT`: build the tree from a code table (R180). -/
  | buildt
  /-- `DECSYM`: decode one symbol (R210). -/
  | decsym
  /-- `DECSTR`: decode symbols until the sentinel (R215). -/
  | decstr
  /-- `CLEAR`: return the block to its reset state (R242). -/
  | clear
deriving DecidableEq, Repr

end Sys2Proof
end

