-- ==== Sys2Proof/WellFormed.lean ====
section
/-! DEFINITION. Well-formedness: of a command, and of the parameters (R5). -/

namespace Sys2Proof

/-- Every command is well-formed: "No command has an operand field" (R90), so there is nothing to
check. -/
def Instr.wf : Instr → Bool
  | .buildc => true
  | .write => true
  | .buildt => true
  | .decsym => true
  | .decstr => true
  | .clear => true

/-- The legal range of `ASIZE` (R5). -/
def Config.asizeOk (c : Config) : Bool := decide (1 ≤ c.asize) && decide (c.asize ≤ 2 ^ 24)

/-- The legal range of `WW` (R5). -/
def Config.wwOk (c : Config) : Bool := decide (1 ≤ c.ww) && decide (c.ww ≤ 32)

/-- The legal range of `NCAP` (R5). -/
def Config.ncapOk (c : Config) : Bool := decide (2 * c.asize + 1 ≤ c.ncap) && decide (c.ncap ≤ 2 ^ 31)

/-- The parameters are legal (R5). -/
def Config.wf (c : Config) : Bool := c.asizeOk && c.wwOk && c.ncapOk

end Sys2Proof
end

