-- ==== Sys2Proof/Decode.lean ====
section
/-! DEFINITION. Decoding a command word (R90 to R94), and the encoder written from the same opcode map. -/

namespace Sys2Proof

/-- Why a word is no command (R91, R93). -/
inductive DecodeError where
  /-- one of `bits[31:4]` is set -/
  | reservedBits
  /-- `bits[31:4]` are zero and `OP` is 0x0 or 0x6 to 0xE -/
  | reservedOpcode
deriving DecidableEq, Repr

/-- `OP = bits[3:0]` of a command word (R90). -/
def opField (w : Word) : BitVec 4 := w.extractLsb' 0 4

/-- `ZERO = bits[31:4]` of a command word (R90). -/
def zeroField (w : Word) : BitVec 28 := w.extractLsb' 4 28

/-- The opcode map of R92; an `OP` value with no command is reserved (R93). -/
def decodeOp (op : BitVec 4) : Except DecodeError Instr :=
  if op = 0x1#4 then .ok .buildc
  else if op = 0x2#4 then .ok .write
  else if op = 0x3#4 then .ok .buildt
  else if op = 0x4#4 then .ok .decsym
  else if op = 0x5#4 then .ok .decstr
  else if op = 0xF#4 then .ok .clear
  else .error .reservedOpcode

/-- Decoding a command word (R91): illegal when `w[31:4] != 0`, else by `OP`. -/
def decode (w : Word) : Except DecodeError Instr :=
  if zeroField w ≠ 0 then .error .reservedBits else decodeOp (opField w)

/-- The `OP` of a command (R92). -/
def opcode : Instr → BitVec 4
  | .buildc => 0x1#4
  | .write => 0x2#4
  | .buildt => 0x3#4
  | .decsym => 0x4#4
  | .decstr => 0x5#4
  | .clear => 0xF#4

/-- The command word of a command: `OP` in `bits[3:0]`, zeros above (R90, R92). -/
def encode (i : Instr) : Word := (0#28) ++ opcode i

/-- What the decoder reads from an instruction whose bits are `w`, as spec/opcode_table.json numbers them
(bit 0 the least significant bit of the one command word); bits at `nbits` and above are zero. The bus
carries the command as one whole 32-bit word (R67), so no byte order enters. -/
def decodeTableWord (nbits w : Nat) : Option Instr :=
  match decode (BitVec.ofNat 32 (w % 2 ^ nbits)) with
  | .ok i => some i
  | .error _ => none

end Sys2Proof
end

