-- ==== Sys2Proof/Machine/State.lean ====
section
/-! DEFINITION. The state of HUFFCORE (R20, R54) and of the four stream endpoints and the host port that
stand around it, as plain data, and the state after reset (R55, R300). -/

namespace Sys2Proof.Machine

/-- `MODE` (R21). `run` is never seen at a command boundary. -/
inductive Mode where
  | idle
  | run
  | faulted
deriving DecidableEq, Repr

/-- The eleven fault causes (R260); their codes are `Cause.code` (Flags.lean). -/
inductive Cause where
  | truncatedStream
  | conflictingCodePath
  | badTableSyntax
  | tableTruncated
  | badSymbol
  | arenaFull
  | weightOverflow
  | noTree
  | missingChild
  | illegalCommand
  | zeroLengthLoop
deriving DecidableEq, Repr

/-- A node pointer: `none` is `NIL`, `some i` the arena index `i` (R43). -/
abbrev Ptr := Option Nat

/-- One arena slot, `NODE[i]` (R42). -/
structure Node where
  /-- symbol of a leaf; 0 in forks and placeholders -/
  sym    : Nat
  /-- created as a completed leaf -/
  symv   : Bool
  /-- occurrence count, or sum of the children's weights; 0 in table-built nodes -/
  weight : Nat
  /-- child reached by bit 0 -/
  left   : Ptr
  /-- child reached by bit 1 -/
  right  : Ptr
deriving DecidableEq, Repr

/-- The count memory `CNT` (R49) as a list of (index, count) pairs in one canonical form (`Memory.wf`):
indices strictly rising, no entry equal to what an unlisted index reads as, which is 0 (R49). Its
smallest addressable unit is the count word: no byte of it can be addressed (R67, R68). -/
abbrev Memory := List (Nat × Nat)

/-- One event at the host port (R108, R245; reset: R302). `bytes` is the width of the transaction. -/
inductive HostEvent where
  /-- `WR offset, value` -/
  | wr (offset : Word) (bytes : Nat) (value : Word)
  /-- `RD offset` -/
  | rd (offset : Word) (bytes : Nat)
  /-- the platform's reset signal, between two transactions (log entry 5) -/
  | reset
deriving DecidableEq, Repr

/-- What the bus answers to a transaction (R68, R80, R245). -/
inductive Reply where
  /-- a write completed -/
  | done
  /-- a read returned this word -/
  | data (value : Word)
  /-- bus error response -/
  | busError
deriving DecidableEq, Repr

/-- Why the machine stops. No state that satisfies `State.Inv` (Safety.lean), so none a run from reset
reaches, raises one of these; each is safe, since it stops where the spec gives the block nothing to do. -/
inductive Fault where
  /-- Raised by every meaning and by the bus in mode `RUN`: the bus stalls until the running command ends
  (R6), and a command is one step, so the spec has no transaction there. Safe. -/
  | busStalled
  /-- Raised by `WRITE`, `BUILDT`, `DECSYM` and `DECSTR` when a pointer they follow is `NIL` or names no
  allocated slot, which R43 excludes. Safe. -/
  | danglingPointer
  /-- Raised by `WRITE` when its traversal is deeper than the arena has nodes (only over a cycle, which R48
  excludes), and by the loops of `BUILDT` and `DECSTR` past the bound that R196 and R217 prove. Safe. -/
  | endless
deriving DecidableEq, Repr

/-- Why the model has no meaning for an instruction. -/
inductive Refusal where
  /-- Raised only by an arm of `exec` whose instruction has no meaning yet (there is none). Safe. -/
  | notModelled (mnemonic : String)
deriving DecidableEq, Repr

/-- The block's state (R20), its parameters, and its surroundings (R54, R65, R108): the first group is
what reset and `CLEAR` set, the second is constant, the third persists through both. -/
structure State where
  /-- `MODE` (R21) -/
  mode    : Mode
  /-- `TV`, tree valid (R25) -/
  tv      : Bool
  /-- `EOS`, end of stream (R27) -/
  eos     : Bool
  /-- `SRC`, tree source: `true` after `BUILDT`, `false` after `BUILDC` (R28) -/
  src     : Bool
  /-- `RV`, result valid (R29) -/
  rv      : Bool
  /-- `FCAUSE`: the recorded cause, `none` for code 0 (R38) -/
  fcause  : Option Cause
  /-- `FINFO` (R39) -/
  finfo   : Word
  /-- `ROOT` (R31) -/
  root    : Ptr
  /-- `CUR`, the decode cursor (R33) -/
  cur     : Ptr
  /-- `RSYM`, the last decoded symbol (R34) -/
  rsym    : Nat
  /-- `NIDX`, the node-window index (R34, R41) -/
  nidx    : Word
  /-- `NODE[0..NALLOC-1]`, the allocated slots in creation order (R42, R44); `NALLOC` (R32) is its length,
  and a free slot, whose contents are never observable (R42), is not held (log entry 3) -/
  nodes   : List Node
  /-- `CNT` (R49) -/
  cnt     : Memory
  /-- `PQ`, the selection structure (R50) -/
  pq      : List Nat
  /-- `ASIZE`, `WW`, `NCAP` (R5); no step writes them -/
  cfg     : Config
  /-- bytes `TI` has still to deliver (R61, R65) -/
  tabIn   : List Byte
  /-- bytes appended to `TO` so far (R62) -/
  tabOut  : List Byte
  /-- bits `BI` has still to deliver (R63, R65) -/
  bitIn   : List Bool
  /-- symbols appended to `SO` so far (R64) -/
  symOut  : List Nat
  /-- host events still to come, first one first (R7, R108) -/
  host    : List HostEvent
  /-- bus answers so far, oldest first (R7, R245) -/
  replies : List Reply
deriving DecidableEq, Repr

/-- The reset state of a block with the given parameters (R55, R300, R302), with nothing on any stream and
no host event pending. -/
def State.resetOf (cfg : Config) : State where
  mode := .idle
  tv := false
  eos := false
  src := false
  rv := false
  fcause := none
  finfo := 0#32
  root := none
  cur := none
  rsym := 0
  nidx := 0#32
  nodes := []
  cnt := []
  pq := []
  cfg := cfg
  tabIn := []
  tabOut := []
  bitIn := []
  symOut := []
  host := []
  replies := []

/-- The machine right after reset, with the default parameters of R5. -/
def State.reset : State := State.resetOf Config.default

end Sys2Proof.Machine
end

