-- ==== Sys2Proof/Machine/Operands.lean ====
section
/-! DEFINITION. The forms operands take: the derived constants of R5, node pointers and node fields on the
bus (R41, R43, R106), the narrowing of a count (R70), and the one shape of an arena access (R9, R45, R78).
No command has an operand field (R90): every operand is implicit. -/

namespace Sys2Proof.Machine

/-! ## Derived constants (R5, R8) -/

/-- `bitlen(n)`, the smallest `k` with `2^k > n` (R8). -/
def bitlen (n : Nat) : Nat := if n = 0 then 0 else Nat.log2 n + 1

/-- `SW = bitlen(ASIZE)`, the width of a symbol field (R5). -/
def symbolWidth (c : Config) : Nat := bitlen c.asize

/-- `WMAX = 2^WW - 1`, the largest weight (R5). -/
def weightMax (c : Config) : Nat := 2 ^ c.ww - 1

/-- `QCAP = ASIZE + 1`, the most entries `PQ` ever holds (R5, R50). -/
def queueCap (c : Config) : Nat := c.asize + 1

/-- A value written to `CNT[i]` keeps its low `WW` bits (R70). -/
def narrowCount (c : Config) (v : Word) : Nat := v.toNat % 2 ^ c.ww

/-! ## Node pointers and node fields on the bus -/

/-- A node pointer on the bus: its index, or 0xFFFFFFFF for `NIL` (R43, R106). -/
def ptrWord : Ptr → Word
  | none => 0xFFFFFFFF#32
  | some i => word i

/-- `NSYM`: `symv` in bit 31, `sym` in `bits[SW-1:0]`, the other bits zero (R41, R106). -/
def nsymWord (c : Config) (nd : Node) : Word :=
  (if nd.symv then 0x80000000#32 else 0#32) ||| word (nd.sym % 2 ^ symbolWidth c)

/-! ## The characters of the table text -/

/-- The line feed (R96). -/
def lineFeed : Byte := 0x0A#8

/-- The character of a path bit (R103). -/
def bitChar (b : Bool) : Byte := if b then 0x31#8 else 0x30#8

/-! ## Arena slots -/

/-- `isleaf`: both children are absent (R45). -/
def isLeaf (nd : Node) : Bool := nd.left.isNone && nd.right.isNone

/-- The child a bit selects: left on 0, right on 1 (R103, R212). -/
def child (nd : Node) (bit : Bool) : Ptr := if bit then nd.right else nd.left

/-- A completed leaf, the leaf constructor of R129. -/
def leafNode (sym weight : Nat) : Node :=
  { sym := sym, symv := true, weight := weight, left := none, right := none }

/-- A fork, the fork constructor of R129: `sym` and `symv` are 0 (R42, R136). -/
def forkNode (weight a b : Nat) : Node :=
  { sym := 0, symv := false, weight := weight, left := some a, right := some b }

/-- A placeholder of the table loader, with no child yet (R188). -/
def placeholder : Node := { sym := 0, symv := false, weight := 0, left := none, right := none }

end Sys2Proof.Machine
end

