-- ==== Sys2Proof/Machine/Flags.lean ====
section
/-! DEFINITION. The flags and what writes them: `STATUS` (R37), the cause codes (R38, R260), the result
flags of a decoded symbol (R213). -/

namespace Sys2Proof.Machine

/-- `FLT` is not stored: it is 1 exactly when `MODE = FAULTED` (R26). -/
def flt (s : State) : Bool := decide (s.mode = .faulted)

/-- A flag at its bit position. -/
def flagBit (b : Bool) (k : Nat) : Word := if b then 1#32 <<< k else 0#32

/-- `STATUS`: TV, FLT, EOS, SRC, RV in bits 0 to 4, the rest zero (R37). -/
def statusWord (s : State) : Word :=
  flagBit s.tv 0 ||| flagBit (flt s) 1 ||| flagBit s.eos 2 ||| flagBit s.src 3 ||| flagBit s.rv 4

/-- The code of a cause (R260). -/
def causeCode : Cause → Nat
  | .truncatedStream => 1
  | .conflictingCodePath => 2
  | .badTableSyntax => 3
  | .tableTruncated => 4
  | .badSymbol => 5
  | .arenaFull => 6
  | .weightOverflow => 7
  | .noTree => 8
  | .missingChild => 9
  | .illegalCommand => 10
  | .zeroLengthLoop => 11

/-- `FCAUSE` on the bus: the code, 0 when no fault is recorded (R38, R260). -/
def fcauseWord : Option Cause → Word
  | none => 0#32
  | some c => word (causeCode c)

/-- The register and flag updates of a decoded symbol (R213, R216): `RSYM <- v`, `RV <- 1`,
`EOS <- (v = ASIZE)`. -/
def setResult (v : Nat) (s : State) : State :=
  { s with rsym := v, rv := true, eos := decide (v = s.cfg.asize) }

/-- The init line of both build commands (R131, R181): flags, result registers, tree and `PQ` cleared
together; `SRC` says which command it is. -/
def startBuild (fromTable : Bool) (s : State) : State :=
  { s with tv := false, src := fromTable, eos := false, rv := false, rsym := 0, cur := none,
           root := none, nodes := [], pq := [] }

end Sys2Proof.Machine
end

