-- ==== Sys2Proof/Machine/Ops.lean ====
section
/-! DEFINITION. The named operations every command shares: the count memory (R49, R70), `NALLOC` and
`alloc` (R9, R32, R44), the output streams (R62, R64), fault entry (R275) and the way out of it (R242,
R277), and the acceptance of a command (R240). -/

namespace Sys2Proof.Machine

/-! ## The count memory -/

/-- `CNT[i]`; an unlisted index reads 0 (R49). -/
def Memory.read : Memory → Nat → Nat
  | [], _ => 0
  | (k, v) :: m, a => if k = a then v else Memory.read m a

/-- `CNT[a] <- v`, keeping the canonical form: writing 0 removes the entry. -/
def Memory.write : Memory → Nat → Nat → Memory
  | [], a, v => if v = 0 then [] else [(a, v)]
  | (k, w) :: m, a, v =>
    if a < k then (if v = 0 then (k, w) :: m else (a, v) :: (k, w) :: m)
    else if a = k then (if v = 0 then m else (a, v) :: m)
    else (k, w) :: Memory.write m a v

/-- The canonical form: indices strictly rising, no entry that reads as an unlisted index does. -/
abbrev Memory.wf (m : Memory) : Prop :=
  (m.map Prod.fst).Pairwise (· < ·) ∧ ∀ p ∈ m, p.2 ≠ 0

/-! ## The arena -/

/-- `NALLOC`: the number of slots in use (R32). -/
def nalloc (s : State) : Nat := s.nodes.length

/-- `alloc` (R9): the new slot's index, and the arena with it; it cannot fail. -/
def alloc (nodes : List Node) (nd : Node) : Nat × List Node := (nodes.length, nodes ++ [nd])

/-! ## The output streams -/

/-- `TabWrite` of each byte in turn (R62). -/
def tabWrite (bytes : List Byte) (s : State) : State := { s with tabOut := s.tabOut ++ bytes }

/-- `SymWrite` (R64). -/
def symWrite (v : Nat) (s : State) : State := { s with symOut := s.symOut ++ [v] }

/-! ## Single updates -/

/-- `MODE <- m` (R21, R240). -/
def setMode (m : Mode) (s : State) : State := { s with mode := m }

/-- `CUR <- n`, with the bits of `BI` that are left (R33, R212). -/
def setCursor (n : Nat) (bits : List Bool) (s : State) : State := { s with cur := some n, bitIn := bits }

/-- The tree registers as a build command leaves them: `TV`, `ROOT`, the arena and `PQ` (R137, R191). -/
def setTree (valid : Bool) (root : Ptr) (nodes : List Node) (pq : List Nat) (s : State) : State :=
  { s with tv := valid, root := root, nodes := nodes, pq := pq }

/-- The bytes `TI` has still to deliver, after some were taken (R61). -/
def setTabIn (bytes : List Byte) (s : State) : State := { s with tabIn := bytes }

/-! ## Faults -/

/-- Fault entry, `raise Fault(cause, info)` (R275): exactly `MODE`, `FCAUSE` and `FINFO` change. -/
def enterFault (cause : Cause) (info : Word) (s : State) : State :=
  { s with mode := .faulted, fcause := some cause, finfo := info }

/-- What `CLEAR` and reset do to the block (R242, R300, R302): every element to its reset value, the
parameters unchanged, the streams and the host port untouched (R54, R301). It is the only way out of
`FAULTED` (R277). -/
def clearBlock (s : State) : State :=
  { s with mode := .idle, fcause := none, finfo := 0#32, tv := false, eos := false, src := false,
           rv := false, root := none, cur := none, nodes := [], rsym := 0, nidx := 0#32, pq := [],
           cnt := [] }

/-! ## Running a command -/

/-- How a command's pseudocode ends, or goes on. -/
inductive Flow where
  /-- the next statement runs in this state -/
  | done (s : State)
  /-- `raise` was executed: no later statement of the command runs (R275) -/
  | raised (s : State)
  /-- the spec gives the block nothing to do here -/
  | stuck (f : Fault)
deriving DecidableEq, Repr

/-- Sequencing: what follows runs only if what came before neither raised nor stuck (R275). -/
def Flow.andThen (f : Flow) (k : State → Flow) : Flow :=
  match f with
  | .done s => k s
  | .raised s => .raised s
  | .stuck e => .stuck e

/-- `raise Fault(cause, info)` at a point of a command (R275). -/
def raise (cause : Cause) (info : Word) (s : State) : Flow := .raised (enterFault cause info s)

/-- A command accepted in `IDLE` only (R240, R241, R243): in `IDLE` it runs with `MODE = RUN` and leaves
`IDLE` if it did not fault; in `FAULTED` the write is ignored; in `RUN` the bus is stalled (R6). -/
def runCommand (body : State → Flow) (s : State) : Host.Outcome State Fault Refusal :=
  match s.mode with
  | .run => .fault .busStalled
  | .faulted => .next s
  | .idle =>
    match body (setMode .run s) with
    | .done t => .next (setMode .idle t)
    | .raised t => .next t
    | .stuck e => .fault e

end Sys2Proof.Machine
end

