-- ==== Sys2Proof/Machine/Build.lean ====
section
/-! DEFINITION. `BUILDC`, the tree builder: a greedy forest merge over a selection structure kept sorted by
weight and then by age (R129 to R145). -/

namespace Sys2Proof.Machine

/-- What `BUILDC` works on: the arena and `PQ` (R77). -/
structure Forest where
  nodes : List Node
  pq    : List Nat
deriving DecidableEq, Repr

/-- `NODE[i].weight` (R9). The builder asks only for indices `alloc` gave it (R78). -/
def weightOf (nodes : List Node) (i : Nat) : Nat := (nodes[i]?.map Node.weight).getD 0

/-- `pq_insert(n)` (R132): behind every entry whose weight is not greater. -/
def pqInsert (nodes : List Node) (pq : List Nat) (n : Nat) : List Nat :=
  let k := pq.countP (fun e => decide (weightOf nodes e ≤ weightOf nodes n))
  pq.take k ++ n :: pq.drop k

/-- Allocate a node and insert it into `PQ`: the common tail of R133, R134 and R136. -/
def addNode (nd : Node) (f : Forest) : Forest :=
  let a := alloc f.nodes nd
  { nodes := a.2, pq := pqInsert a.2 f.pq a.1 }

/-- The leaf-load micro-step for symbol `i` (R133): no node for a zero count. -/
def loadLeaf (cnt : Memory) (f : Forest) (i : Nat) : Forest :=
  if 0 < cnt.read i then addNode (leafNode i (cnt.read i)) f else f

/-- Leaf load in ascending symbol order, then the sentinel with weight 1 (R133, R134). -/
def loadLeaves (asize : Nat) (cnt : Memory) : Forest :=
  addNode (leafNode asize 1) ((List.range asize).foldl (loadLeaf cnt) { nodes := [], pq := [] })

/-- One merge (R135, R136) of the two entries `a`, `b` removed from the front of `PQ`, `rest` what is left:
the fork weighs their sum, the first removed is its left child and the second its right child. -/
def mergePair (nodes : List Node) (a b : Nat) (rest : List Nat) : Forest :=
  addNode (forkNode (weightOf nodes a + weightOf nodes b) a b) { nodes := nodes, pq := rest }

/-- The merge phase (R136): `.error f` when the merge in forest `f` would exceed `WMAX` (R140), which leaves
`f` as it is. Each merge shortens `PQ` by one (R145), so its length bounds the number of merges. -/
def mergeAll (wmax : Nat) : Nat → Forest → Except Forest Forest
  | 0, f => .ok f
  | k + 1, f =>
    match f.pq with
    | a :: b :: rest =>
      if wmax < weightOf f.nodes a + weightOf f.nodes b then .error f
      else mergeAll wmax k (mergePair f.nodes a b rest)
    | _ => .ok f

/-- The pseudocode of `BUILDC` (R130): init (R131), leaf load and sentinel, merges, finish (R137). -/
def buildcBody (s : State) : Flow :=
  let f := loadLeaves s.cfg.asize s.cnt
  match mergeAll (weightMax s.cfg) f.pq.length f with
  | .error g =>
    raise .weightOverflow (word g.nodes.length) (setTree false none g.nodes g.pq (startBuild false s))
  | .ok g => .done (setTree true g.pq.head? g.nodes [] (startBuild false s))

/-- `BUILDC` (R130). -/
def execBuildc (s : State) : Host.Outcome State Fault Refusal := runCommand buildcBody s

end Sys2Proof.Machine
end

