-- ==== Sys2Proof/Machine/Control.lean ====
section
/-! DEFINITION. `CLEAR` (R242), and what a word that is no command does (R243, R244). -/

namespace Sys2Proof.Machine

/-- `CLEAR` (R242): accepted in `IDLE` and in `FAULTED`; it cannot fault. -/
def execClear (s : State) : Host.Outcome State Fault Refusal :=
  match s.mode with
  | .run => .fault .busStalled
  | .faulted => .next (clearBlock s)
  | .idle => .next (clearBlock s)

/-- An illegal command word: `ILLEGAL_COMMAND` in `IDLE` (R244), ignored in `FAULTED` (R243). -/
def illegalCommand (w : Word) (s : State) : Host.Outcome State Fault Refusal :=
  match s.mode with
  | .run => .fault .busStalled
  | .faulted => .next s
  | .idle => .next (enterFault .illegalCommand w s)

end Sys2Proof.Machine
end

