-- ==== Sys2Proof/Machine/Decoder.lean ====
section
/-! DEFINITION. `DECSYM` and `DECSTR`, the bit-stream decoder: a walk from the root that takes one bit per
step and stops at a leaf, and a loop around it that ends at the sentinel (R210 to R222). -/

namespace Sys2Proof.Machine

/-- How a walk ends. -/
inductive WalkEnd where
  /-- at leaf `n`, which holds `sym`; these bits are left -/
  | leaf (n sym : Nat) (rest : List Bool)
  /-- at internal node `n`, with no bit left (R214) -/
  | truncated (n : Nat)
  /-- at node `n`, whose selected child is absent; the bit has been consumed (R214) -/
  | missing (n : Nat) (rest : List Bool)
  /-- at a pointer to no allocated slot -/
  | dangling
deriving DecidableEq, Repr

/-- `walk()` from node `n` over the bits of `BI` (R212): the leaf test comes before the bit read. The head
of the list is what `BitRead()` returns next, the empty list is `EOI` (R63). -/
def walk (nodes : List Node) : Nat → List Bool → WalkEnd
  | n, [] =>
    match nodes[n]? with
    | none => .dangling
    | some nd => if isLeaf nd then .leaf n nd.sym [] else .truncated n
  | n, b :: bits =>
    match nodes[n]? with
    | none => .dangling
    | some nd =>
      if isLeaf nd then .leaf n nd.sym (b :: bits)
      else
        match child nd b with
        | none => .missing n bits
        | some c => walk nodes c bits

/-- One `walk()` from `ROOT` with the register updates of its result (R212, R213), or its fault (R214):
`CUR` keeps the node named. -/
def decodeSymbol (s : State) : Flow :=
  match s.root with
  | none => .stuck .danglingPointer
  | some r =>
    match walk s.nodes r s.bitIn with
    | .leaf n v rest => .done (setResult v (setCursor n rest s))
    | .truncated n => raise .truncatedStream (word n) (setCursor n [] s)
    | .missing n rest => raise .missingChild (word n) (setCursor n rest s)
    | .dangling => .stuck .danglingPointer

/-- The pseudocode of `DECSYM` (R210, R211). -/
def decsymBody (s : State) : Flow :=
  if s.tv = false then raise .noTree 0x4#32 s else decodeSymbol s

/-- `DECSYM` (R210). -/
def execDecsym (s : State) : Host.Outcome State Fault Refusal := runCommand decsymBody s

/-- The loop of `DECSTR` (R215, R216). The first argument bounds the iterations: each takes a bit of `BI`
or is the last (R217). -/
def decodeLoop : Nat → State → Flow
  | 0, _ => .stuck .endless
  | k + 1, s =>
    (decodeSymbol s).andThen fun t =>
      if t.rsym = t.cfg.asize then .done t else decodeLoop k (symWrite t.rsym t)

/-- `ROOT` is a leaf whose symbol is not `ASIZE`: the stream decode would never end (R219). -/
def zeroLengthRoot (s : State) (r : Nat) : Bool :=
  match s.nodes[r]? with
  | none => false
  | some nd => isLeaf nd && decide (nd.sym ≠ s.cfg.asize)

/-- The pseudocode of `DECSTR` (R215): the two pre-checks (R211, R219), then the loop. -/
def decstrBody (s : State) : Flow :=
  if s.tv = false then raise .noTree 0x5#32 s
  else
    match s.root with
    | none => .stuck .danglingPointer
    | some r =>
      if zeroLengthRoot s r then raise .zeroLengthLoop (word r) s
      else decodeLoop (s.bitIn.length + 1) s

/-- `DECSTR` (R215). -/
def execDecstr (s : State) : Host.Outcome State Fault Refusal := runCommand decstrBody s

end Sys2Proof.Machine
end

