-- ==== Sys2Proof/Machine/Serialize.lean ====
section
/-! DEFINITION. `WRITE`, the code serializer: a left-first traversal that emits a symbol line and a path
line for every leaf (R160 to R168), and the text it is made of (R95, R100, R103). -/

namespace Sys2Proof.Machine

/-- `digit(d) = 0x30 + d` (R100). -/
def digit (d : Nat) : Byte := BitVec.ofNat 8 (0x30 + d)

/-- The decimal digits of `n`, most significant first; the first argument bounds how many (R100). -/
def decDigits : Nat → Nat → List Byte
  | 0, _ => []
  | k + 1, n => if n < 10 then [digit n] else decDigits k (n / 10) ++ [digit (n % 10)]

/-- `dec(n)`, the canonical decimal string (R100). -/
def dec (n : Nat) : List Byte := decDigits (n + 1) n

/-- The two lines of a leaf (R163). -/
def pairText (sym : Nat) (path : List Bool) : List Byte :=
  dec sym ++ lineFeed :: path.map bitChar ++ [lineFeed]

/-- How a traversal ended. -/
inductive EmitStop where
  /-- every node below was visited -/
  | finished
  /-- it reached the node of this index, which has exactly one child (R166) -/
  | missing (n : Nat)
  /-- it followed a pointer to no allocated slot, or went deeper than the arena has nodes -/
  | stuck (f : Fault)
deriving DecidableEq, Repr

/-- The bytes a traversal appended, and how it ended. -/
structure Emitted where
  bytes : List Byte
  stop  : EmitStop
deriving DecidableEq, Repr

/-- One traversal after another: the second runs only if the first finished. -/
def Emitted.andThen (x : Emitted) (y : Emitted) : Emitted :=
  match x.stop with
  | .finished => { bytes := x.bytes ++ y.bytes, stop := y.stop }
  | _ => x

/-- `emit(n, p)` (R160): the bit-0 branch before the bit-1 branch (R162); both children are tested before
either is entered (R166). The first argument bounds the depth, which is below `NALLOC` (R162). -/
def emit (nodes : List Node) : Nat → Nat → List Bool → Emitted
  | 0, _, _ => { bytes := [], stop := .stuck .endless }
  | k + 1, n, p =>
    match nodes[n]? with
    | none => { bytes := [], stop := .stuck .danglingPointer }
    | some nd =>
      match nd.left, nd.right with
      | none, none => { bytes := pairText nd.sym p, stop := .finished }
      | some a, some b => (emit nodes k a (p ++ [false])).andThen (emit nodes k b (p ++ [true]))
      | _, _ => { bytes := [], stop := .missing n }

/-- The pseudocode of `WRITE` (R160). The bytes appended before a fault stay in `TO` (R166). -/
def writeBody (s : State) : Flow :=
  if s.tv = false then raise .noTree 0x2#32 s
  else
    match s.root with
    | none => .stuck .danglingPointer
    | some r =>
      let e := emit s.nodes s.nodes.length r []
      match e.stop with
      | .finished => .done (tabWrite e.bytes s)
      | .missing n => raise .missingChild (word n) (tabWrite e.bytes s)
      | .stuck f => .stuck f

/-- `WRITE` (R160). -/
def execWrite (s : State) : Host.Outcome State Fault Refusal := runCommand writeBody s

end Sys2Proof.Machine
end

