-- ==== Sys2Proof/Machine/Table.lean ====
section
/-! DEFINITION. `BUILDT`, the table loader: read (symbol, path) pairs from `TI` and grow the tree along each
path (R180 to R196), and the reading of the table text (R95 to R103). -/

namespace Sys2Proof.Machine

/-! ## Reading the table text -/

/-- What reading a part of the text gives: a value and the bytes left, or the fault and the bytes left. The
head of a byte list is what `TabRead()` returns next, the empty list is `EOI` (R61). -/
inductive Parsed (α : Type) where
  | ok (value : α) (rest : List Byte)
  | bad (cause : Cause) (rest : List Byte)
deriving DecidableEq, Repr

/-- The byte is a decimal digit (R95, R96). -/
def isDigit (c : Byte) : Bool := decide (0x30 ≤ c.toNat) && decide (c.toNat ≤ 0x39)

/-- The symbol line (R180, R183): `v` is the value so far, `nd` the number of digits read. -/
def symbolLine : Nat → Nat → List Byte → Parsed Nat
  | _, _, [] => .bad .tableTruncated []
  | v, nd, c :: rest =>
    if c = lineFeed then (if nd = 0 then .bad .badTableSyntax rest else .ok v rest)
    else if isDigit c then symbolLine (10 * v + (c.toNat - 0x30)) (nd + 1) rest
    else .bad .badTableSyntax rest

/-- The path line (R180, R183): `path` is the path so far. -/
def pathLine : List Bool → List Byte → Parsed (List Bool)
  | _, [] => .bad .tableTruncated []
  | path, c :: rest =>
    if c = lineFeed then .ok path rest
    else if c = bitChar false then pathLine (path ++ [false]) rest
    else if c = bitChar true then pathLine (path ++ [true]) rest
    else .bad .badTableSyntax rest

/-- One pair, with the tests in stream order (R190): the symbol line, `BAD_SYMBOL` at its end (R185), the
path line. -/
def readPair (asize : Nat) (bytes : List Byte) : Parsed (Nat × List Bool) :=
  match symbolLine 0 0 bytes with
  | .bad c rest => .bad c rest
  | .ok v rest =>
    if asize < v then .bad .badSymbol rest
    else
      match pathLine [] rest with
      | .bad c rest => .bad c rest
      | .ok path rest => .ok (v, path) rest

/-! ## Growing the tree -/

/-- A place that holds a node pointer (R11): the `ROOT` register, or the child field of a node that the bit
selects. -/
inductive Slot where
  | root
  | child (n : Nat) (bit : Bool)
deriving DecidableEq, Repr

/-- What the loader works on: `ROOT` and the arena (R77). -/
structure Grown where
  root  : Ptr
  nodes : List Node
deriving DecidableEq, Repr

/-- `content(slot)` (R180). -/
def content (g : Grown) : Slot → Ptr
  | .root => g.root
  | .child n bit => (g.nodes[n]?).bind (fun nd => child nd bit)

/-- A node with the child the bit selects set (R188). -/
def setChild (bit : Bool) (p : Nat) (nd : Node) : Node :=
  if bit then { nd with right := some p } else { nd with left := some p }

/-- `content(slot) <- p` (R180, R188). -/
def link (g : Grown) (slot : Slot) (p : Nat) : Grown :=
  match slot with
  | .root => { g with root := some p }
  | .child n bit => { g with nodes := g.nodes.modify n (setChild bit p) }

/-- Where the walk of R187 ends. -/
inductive Found where
  /-- at an empty slot, with these path bits left -/
  | free (slot : Slot) (todo : List Bool)
  /-- on a completed leaf, or at the end of the path on an existing node -/
  | conflict
  /-- at a pointer to no allocated slot -/
  | dangling
deriving DecidableEq, Repr

/-- The walk through the nodes that already exist (R187). -/
def findSlot (g : Grown) (slot : Slot) : List Bool → Found
  | [] =>
    match content g slot with
    | none => .free slot []
    | some n => if n < g.nodes.length then .conflict else .dangling
  | b :: path =>
    match content g slot with
    | none => .free slot (b :: path)
    | some n =>
      match g.nodes[n]? with
      | none => .dangling
      | some nd => if nd.symv then .conflict else findSlot g (.child n b) path

/-- Allocate a node and link it into a slot (R188). -/
def place (g : Grown) (slot : Slot) (nd : Node) : Grown :=
  let a := alloc g.nodes nd
  link { g with nodes := a.2 } slot a.1

/-- Create what is missing (R188): a placeholder for each remaining bit, then the leaf. -/
def grow (v : Nat) : Grown → Slot → List Bool → Grown
  | g, slot, [] => place g slot (leafNode v 0)
  | g, slot, b :: path => grow v (place g slot placeholder) (.child g.nodes.length b) path

/-- How the loader ended. -/
inductive LoadStop where
  /-- end of input at a pair boundary (R99, R191) -/
  | complete
  /-- a fault in the pair being processed -/
  | fault (c : Cause)
  /-- nothing the spec gives -/
  | stuck (f : Fault)
deriving DecidableEq, Repr

/-- `insert(v, path)` (R187 to R190): the conflict test, then the capacity test, then the whole pair. -/
def insertPair (ncap : Nat) (g : Grown) (v : Nat) (path : List Bool) : Except LoadStop Grown :=
  match findSlot g .root path with
  | .dangling => .error (.stuck .danglingPointer)
  | .conflict => .error (.fault .conflictingCodePath)
  | .free slot todo =>
    if ncap < g.nodes.length + (todo.length + 1) then .error (.fault .arenaFull)
    else .ok (grow v g slot todo)

/-- The state of the loader when it ends. -/
structure Loaded where
  tree : Grown
  /-- zero-based index of the pair in progress, the number of pairs completed (R182) -/
  pair : Nat
  /-- bytes `TI` has still to deliver -/
  rest : List Byte
  stop : LoadStop
deriving DecidableEq, Repr

/-- The loop over pairs (R180, R182). Every pair takes at least a byte, so the number of bytes bounds the
number of pairs (R196). -/
def loadPairs (c : Config) : Nat → Nat → Grown → List Byte → Loaded
  | _, pair, g, [] => { tree := g, pair := pair, rest := [], stop := .complete }
  | 0, pair, g, bytes => { tree := g, pair := pair, rest := bytes, stop := .stuck .endless }
  | k + 1, pair, g, b :: bytes =>
    match readPair c.asize (b :: bytes) with
    | .bad cause rest => { tree := g, pair := pair, rest := rest, stop := .fault cause }
    | .ok (v, path) rest =>
      match insertPair c.ncap g v path with
      | .error stop => { tree := g, pair := pair, rest := rest, stop := stop }
      | .ok g' => loadPairs c k (pair + 1) g' rest

/-- The pseudocode of `BUILDT` (R180): init (R181), the pairs, completion (R191, R193) or the fault, whose
`FINFO` is the index of the pair in progress (R260). -/
def buildtBody (s : State) : Flow :=
  let l := loadPairs s.cfg s.tabIn.length 0 { root := none, nodes := [] } s.tabIn
  match l.stop with
  | .complete =>
    .done (setTree l.tree.root.isSome l.tree.root l.tree.nodes [] (setTabIn l.rest (startBuild true s)))
  | .fault c =>
    raise c (word l.pair) (setTree false l.tree.root l.tree.nodes [] (setTabIn l.rest (startBuild true s)))
  | .stuck f => .stuck f

/-- `BUILDT` (R180). -/
def execBuildt (s : State) : Host.Outcome State Fault Refusal := runCommand buildtBody s

end Sys2Proof.Machine
end

