-- ==== Sys2Proof/Machine/Dispatch.lean ====
section
/-! DEFINITION. The dispatch of a command to its meaning (R240): one arm per constructor of Instr. -/

namespace Sys2Proof.Machine

def exec (i : Instr) (s : State) : Host.Outcome State Fault Refusal :=
  match i with
  | .buildc => Sys2Proof.Machine.execBuildc s
  | .write => Sys2Proof.Machine.execWrite s
  | .buildt => Sys2Proof.Machine.execBuildt s
  | .decsym => Sys2Proof.Machine.execDecsym s
  | .decstr => Sys2Proof.Machine.execDecstr s
  | .clear => Sys2Proof.Machine.execClear s

end Sys2Proof.Machine
end

