-- ==== Sys2Proof/Machine/Bus.lean ====
section
/-! DEFINITION. The host port: the address map (R66), register and count-memory reads and writes (R36 to
R41, R69, R70, R245), a write to `CMD` (R240), the bus error (R68, R80), reset (R302), and the
pseudo-instructions of a host script (R109). -/

namespace Sys2Proof.Machine

/-! ## The address map -/

/-- The sixteen registers of the map, in the order of their offsets (R66). -/
inductive Reg where
  | cmd | status | fcause | finfo
  | pasize | pncap | pww | root
  | nalloc | cur | rsym | nidx
  | nsym | nwt | nleft | nright
deriving DecidableEq, Repr

/-- The byte offset of a register (R66). -/
def regOffset : Reg → Word
  | .cmd => 0x000#32
  | .status => 0x004#32
  | .fcause => 0x008#32
  | .finfo => 0x00C#32
  | .pasize => 0x010#32
  | .pncap => 0x014#32
  | .pww => 0x018#32
  | .root => 0x01C#32
  | .nalloc => 0x020#32
  | .cur => 0x024#32
  | .rsym => 0x028#32
  | .nidx => 0x02C#32
  | .nsym => 0x030#32
  | .nwt => 0x034#32
  | .nleft => 0x038#32
  | .nright => 0x03C#32

/-- All sixteen registers. -/
def allRegs : List Reg :=
  [.cmd, .status, .fcause, .finfo, .pasize, .pncap, .pww, .root,
   .nalloc, .cur, .rsym, .nidx, .nsym, .nwt, .nleft, .nright]

/-- The byte offset of `CNT[0]` (R66). -/
def countBase : Nat := 0x1000

/-- The byte offset of `CNT[i]` (R66). -/
def countOffset (i : Nat) : Word := word (countBase + 4 * i)

/-- A mapped location (R66). -/
inductive Loc where
  | reg (r : Reg)
  | count (i : Nat)
deriving DecidableEq, Repr

/-- The location an aligned 32-bit transaction at this offset reaches; `none` where the access is not 4
bytes wide, not aligned (R68), or unmapped (R80). -/
def locate (c : Config) (offset : Word) (bytes : Nat) : Option Loc :=
  if bytes ≠ 4 ∨ offset.toNat % 4 ≠ 0 then none
  else
    match allRegs.find? (fun r => decide (regOffset r = offset)) with
    | some r => some (.reg r)
    | none =>
      if countBase ≤ offset.toNat ∧ offset.toNat < countBase + 4 * c.asize then
        some (.count ((offset.toNat - countBase) / 4))
      else none

/-! ## Reads -/

/-- A field of the node the window shows; 0 when `NIDX >= NALLOC` (R41). -/
def windowField (s : State) (field : Node → Word) : Word :=
  match s.nodes[s.nidx.toNat]? with
  | none => 0#32
  | some nd => field nd

/-- The value a register reads as (R36 to R41). -/
def readReg (r : Reg) (s : State) : Word :=
  match r with
  | .cmd => 0#32
  | .status => statusWord s
  | .fcause => fcauseWord s.fcause
  | .finfo => s.finfo
  | .pasize => word s.cfg.asize
  | .pncap => word s.cfg.ncap
  | .pww => word s.cfg.ww
  | .root => ptrWord s.root
  | .nalloc => word (nalloc s)
  | .cur => ptrWord s.cur
  | .rsym => word s.rsym
  | .nidx => s.nidx
  | .nsym => windowField s (nsymWord s.cfg)
  | .nwt => windowField s (fun nd => word nd.weight)
  | .nleft => windowField s (fun nd => ptrWord nd.left)
  | .nright => windowField s (fun nd => ptrWord nd.right)

/-- The value a mapped location reads as; reading it changes nothing (R69, R70). -/
def readLoc (l : Loc) (s : State) : Word :=
  match l with
  | .reg r => readReg r s
  | .count i => word (s.cnt.read i)

/-! ## Writes -/

/-- The bus answers a transaction. -/
def answer (r : Reply) (s : State) : State := { s with replies := s.replies ++ [r] }

/-- `NIDX <- v` (R41). -/
def setNidx (v : Word) (s : State) : State := { s with nidx := v }

/-- `CNT[i] <- v` (R70). -/
def setCount (i v : Nat) (s : State) : State := { s with cnt := s.cnt.write i v }

/-- The host events still to come, after one was taken (R108). -/
def setHost (events : List HostEvent) (s : State) : State := { s with host := events }

/-- A write of `w` to `CMD` (R240): the command it decodes to, or an illegal word. -/
def writeCmd (w : Word) (s : State) : Host.Outcome State Fault Refusal :=
  match decode w with
  | .ok i => exec i s
  | .error _ => illegalCommand w s

/-- A write to a mapped location (R240, R245): `CMD` runs a command, `NIDX` and `CNT[i]` store (R70), every
other register ignores it (R69). -/
def writeLoc (l : Loc) (v : Word) (s : State) : Host.Outcome State Fault Refusal :=
  match l with
  | .reg .cmd => writeCmd v s
  | .reg .nidx => .next (setNidx v s)
  | .reg _ => .next s
  | .count i => .next (setCount i (narrowCount s.cfg v) s)

/-! ## Transactions -/

/-- One host event on an unstalled bus. A transaction to no mapped location gets a bus error response and
changes nothing else (R68, R80, R281; log entry 4). The bus write that starts a command completes normally
also when the command faults (R275). -/
def serve (e : HostEvent) (s : State) : Host.Outcome State Fault Refusal :=
  match e with
  | .reset => .next (clearBlock s)
  | .rd offset bytes =>
    match locate s.cfg offset bytes with
    | none => .next (answer .busError s)
    | some l => .next (answer (.data (readLoc l s)) s)
  | .wr offset bytes v =>
    match locate s.cfg offset bytes with
    | none => .next (answer .busError s)
    | some l => writeLoc l v (answer .done s)

/-- The bus takes the next host event. While a command runs it is stalled (R6). -/
def transact (e : HostEvent) (s : State) : Host.Outcome State Fault Refusal :=
  match s.mode with
  | .run => .fault .busStalled
  | .idle => serve e s
  | .faulted => serve e s

/-- One step: the next host event; with none pending the block waits and changes nothing (R303). -/
def nextEvent (s : State) : Host.Outcome State Fault Refusal :=
  match s.host with
  | [] => .next s
  | e :: rest => transact e (setHost rest s)

/-- Put an event at the front of the host port. -/
def offerEvent (e : HostEvent) (s : State) : State := { s with host := e :: s.host }

/-! ## Pseudo-instructions (R109) -/

/-- A command mnemonic as a script line: `WR 0x000, <its word>` (R109). -/
def commandEvent (i : Instr) : HostEvent := .wr (regOffset .cmd) 4 (encode i)

/-- `SETCNT i, v` (R109). -/
def setCntEvents (i : Nat) (v : Word) : List HostEvent := [.wr (countOffset i) 4 v]

/-- `GETNODE n` (R109). -/
def getNodeEvents (n : Word) : List HostEvent :=
  [.wr (regOffset .nidx) 4 n, .rd (regOffset .nsym) 4, .rd (regOffset .nwt) 4,
   .rd (regOffset .nleft) 4, .rd (regOffset .nright) 4]

end Sys2Proof.Machine
end

