-- ==== Sys2Proof/Machine/Step.lean ====
section
/-! DEFINITION. The step: one host transaction at a time, each command one step (R6, R7, R71). -/

namespace Sys2Proof.Machine

/-- One step of the machine (R6). -/
def step (s : State) : Host.Outcome State Fault Refusal := nextEvent s

/-- The state with a command word waiting where the step takes its next one: the block fetches nothing
(R35, R76), so this is a write of the word to `CMD` at the front of the host port (log entry 2). -/
def State.withFetchWord (s : State) (nbits w : Nat) : State :=
  offerEvent (.wr (regOffset .cmd) 4 (BitVec.ofNat 32 (w % 2 ^ nbits))) s

end Sys2Proof.Machine
end

