-- ==== Sys2Proof/Safety.lean ====
section
/-! DEFINITION. What counts as a good state and a good run, and the terms the statements use: the code tree
an arena holds (R47, R104), the table text of a list of codes (R95), the invariant of the model, and the
causes each command may raise (R272). -/

namespace Sys2Proof

open Sys2Proof.Machine

/-! ## Runs -/

/-- The host script has ended and the run is good (R248). -/
def goodEnd (s : State) : Prop := s.host = [] ∧ s.mode = .idle

/-- `k` steps in a row, ending at the first that does not answer a next state. -/
def runSteps : Nat → State → Host.Outcome State Fault Refusal
  | 0, s => .next s
  | k + 1, s =>
    match step s with
    | .next t => runSteps k t
    | .fault e => .fault e
    | .refused r => .refused r

/-! ## Code trees -/

/-- A well-formed tree (R47) without its indices and weights: every node has no child or two. -/
inductive CodeTree where
  | leaf (sym : Nat)
  | fork (zero one : CodeTree)
deriving DecidableEq, Repr

/-- The (symbol, path) pairs of the leaves, left-first (R104, R162). -/
def CodeTree.codes : CodeTree → List (Nat × List Bool)
  | .leaf v => [(v, [])]
  | .fork l r =>
    l.codes.map (fun c => (c.1, false :: c.2)) ++ r.codes.map (fun c => (c.1, true :: c.2))

/-- The number of nodes, leaves and forks. -/
def CodeTree.size : CodeTree → Nat
  | .leaf _ => 1
  | .fork l r => l.size + r.size + 1

/-- The arena slot `n` is the root of this tree (R45, R47). -/
def Holds (nodes : List Node) : Nat → CodeTree → Prop
  | n, .leaf v => ∃ nd, nodes[n]? = some nd ∧ isLeaf nd = true ∧ nd.sym = v
  | n, .fork l r => ∃ nd a b, nodes[n]? = some nd ∧ nd.left = some a ∧ nd.right = some b ∧
      Holds nodes a l ∧ Holds nodes b r

/-- The node a path leads to from node `n`: left on 0, right on 1 (R103, R104). -/
def follow (nodes : List Node) : Nat → List Bool → Option Nat
  | n, [] => some n
  | n, b :: path =>
    match nodes[n]? with
    | none => none
    | some nd =>
      match child nd b with
      | none => none
      | some c => follow nodes c path

/-! ## Table text -/

/-- The table text of a list of (symbol, path) pairs (R95, R163). -/
def tableText (codes : List (Nat × List Bool)) : List Byte :=
  codes.flatMap (fun c => pairText c.1 c.2)

/-- The value of a string of digits: the sum over `k` of `(d[k] - 0x30) * 10^(m-1-k)` (R101). -/
def digitsValue : List Byte → Nat
  | [] => 0
  | d :: ds => (d.toNat - 0x30) * 10 ^ ds.length + digitsValue ds

/-- A string of digits, one or more (R95). -/
def IsDigits (ds : List Byte) : Prop := ds ≠ [] ∧ ∀ d ∈ ds, isDigit d = true

/-- A string of path characters (R95). -/
def IsBits (bs : List Byte) : Prop := ∀ b ∈ bs, b = 0x30#8 ∨ b = 0x31#8

/-- A pair with any string of digits as its symbol line, `"007"` for `"7"` too (R95, R101): the digits, LF, one byte
per path bit, LF (R96, R103). -/
def spelledPair (ds : List Byte) (path : List Bool) : List Byte :=
  ds ++ [0x0A#8] ++ path.map (fun b => if b then 0x31#8 else 0x30#8) ++ [0x0A#8]

/-- The text of a list of pairs so spelled (R95). -/
def spelledText (pairs : List (List Byte × List Bool)) : List Byte :=
  pairs.flatMap (fun p => spelledPair p.1 p.2)

/-- The (symbol, path) pairs that spelled pairs stand for (R101). -/
def pairValues (pairs : List (List Byte × List Bool)) : List (Nat × List Bool) :=
  pairs.map (fun p => (digitsValue p.1, p.2))

/-- The bytes of a pair up to and including the one at which reading it faults, with the cause (R184, R185,
R190). -/
inductive BadPair (asize : Nat) : List Byte → Cause → Prop where
  | emptySymbol : BadPair asize [lineFeed] .badTableSyntax
  | symbolByte (ds : List Byte) (c : Byte) (hd : ∀ d ∈ ds, isDigit d = true)
      (hc : isDigit c = false) (hl : c ≠ lineFeed) : BadPair asize (ds ++ [c]) .badTableSyntax
  | symbolRange (ds : List Byte) (hd : IsDigits ds) (hv : asize < digitsValue ds) :
      BadPair asize (ds ++ [lineFeed]) .badSymbol
  | pathByte (ds bs : List Byte) (c : Byte) (hd : IsDigits ds) (hv : digitsValue ds ≤ asize)
      (hb : IsBits bs) (h0 : c ≠ 0x30#8) (h1 : c ≠ 0x31#8) (hl : c ≠ lineFeed) :
      BadPair asize (ds ++ lineFeed :: bs ++ [c]) .badTableSyntax

/-- The bytes of a pair that the end of input cuts off (R99, R186). -/
inductive CutPair (asize : Nat) : List Byte → Prop where
  | inSymbol (ds : List Byte) (hd : IsDigits ds) : CutPair asize ds
  | inPath (ds bs : List Byte) (hd : IsDigits ds) (hv : digitsValue ds ≤ asize) (hb : IsBits bs) :
      CutPair asize (ds ++ lineFeed :: bs)

/-- One path is a prefix of the other: the two conflict (R187). -/
def Clash (p q : List Bool) : Prop := p <+: q ∨ q <+: p

/-- The number of nodes a tree with these leaf paths has: one for each distinct prefix of a path (R188). -/
def pathNodes (paths : List (List Bool)) : Nat := (paths.flatMap List.inits).dedup.length

/-! ## Counts -/

/-- The symbols with a non-zero count, in ascending order (R133); `m` of R139 is its length. -/
def presentSymbols (s : State) : List Nat :=
  (List.range s.cfg.asize).filter (fun i => decide (0 < s.cnt.read i))

/-- `1 + sum of CNT[i]`, the weight of the root (R139, R140). -/
def totalWeight (s : State) : Nat := 1 + ((List.range s.cfg.asize).map s.cnt.read).sum

/-- The key by which `PQ` is ordered: lower weight first, among equal weights lower index first (R51). -/
def KeyBefore (nodes : List Node) (a b : Nat) : Prop :=
  weightOf nodes a < weightOf nodes b ∨ (weightOf nodes a = weightOf nodes b ∧ a < b)

/-- When node `i` was made, slot `c` was in `PQ`: allocated and no child of an earlier fork (R48, R136). -/
def Waiting (nodes : List Node) (i c : Nat) : Prop :=
  c < i ∧ ∀ j x, j < i → nodes[j]? = some x → x.left ≠ some c ∧ x.right ≠ some c

/-- The weight of the leaf of a symbol: its count, 1 for the sentinel (R133, R134). -/
def leafWeight (s : State) (v : Nat) : Nat := if v = s.cfg.asize then 1 else s.cnt.read v

/-- The sum over leaves of `weight(leaf) * depth(leaf)`, where `depth(leaf) = |path(leaf)|` (R143). -/
def codeCost (w : Nat → Nat) (codes : List (Nat × List Bool)) : Nat :=
  (codes.map (fun c => w c.1 * c.2.length)).sum

/-! ## Causes -/

/-- The causes a command can raise (R272). -/
def mayRaise : Instr → List Cause
  | .buildc => [.weightOverflow]
  | .write => [.noTree, .missingChild]
  | .buildt => [.conflictingCodePath, .badTableSyntax, .tableTruncated, .badSymbol, .arenaFull]
  | .decsym => [.truncatedStream, .noTree, .missingChild]
  | .decstr => [.truncatedStream, .noTree, .missingChild, .zeroLengthLoop]
  | .clear => []

/-! ## Incremental decoding -/

/-- `DECSYM` issued again and again, stopping after the first that leaves `EOS = 1` or faults, at most `k`
times: the symbols returned, and the state at the end (R220). -/
def decsymRepeat : Nat → State → List Nat × State
  | 0, s => ([], s)
  | k + 1, s =>
    match exec .decsym s with
    | .next t =>
      if t.mode = .faulted then ([], t)
      else if t.eos then ([t.rsym], t)
      else ((t.rsym :: (decsymRepeat k t).1), (decsymRepeat k t).2)
    | _ => ([], s)

/-! ## The invariant -/

/-- A pointer is `NIL` or names an allocated slot (R43). -/
def PtrIn (p : Ptr) (n : Nat) : Prop := ∀ i, p = some i → i < n

/-- What holds of every allocated node (R42 to R46): child pointers in range, and below their parent's index
in a count-built arena, above it in a table-built one (R44); the two leaf notions agree (R46); a leaf's symbol
is at most `ASIZE` and a fork's is 0; the weight fits `WW` bits, and is 0 in a table-built arena; a count-built
node never has exactly one child (R47). -/
structure NodeOk (c : Config) (src : Bool) (len i : Nat) (nd : Node) : Prop where
  childIn : ∀ b, PtrIn (child nd b) len
  childOrder : ∀ b j, child nd b = some j → if src then i < j else j < i
  leafAgree : nd.symv = isLeaf nd
  symRange : nd.sym ≤ c.asize
  forkSym : nd.symv = false → nd.sym = 0
  weightFits : nd.weight ≤ weightMax c
  tableWeight : src = true → nd.weight = 0
  countForks : src = false → nd.left.isNone = nd.right.isNone

/-- The invariant of the model at a command boundary. -/
structure Inv (s : State) : Prop where
  /-- R5 -/
  params : s.cfg.wf = true
  /-- R21: `RUN` is never seen -/
  notRunning : s.mode ≠ .run
  /-- R38: a cause is recorded exactly in `FAULTED` -/
  causeRecorded : s.fcause.isSome = decide (s.mode = .faulted)
  /-- R39 -/
  infoClear : s.mode = .idle → s.finfo = 0#32
  /-- R25 -/
  treeHasRoot : s.tv = true → s.root.isSome = true
  /-- R32 -/
  arenaFits : s.nodes.length ≤ s.cfg.ncap
  /-- R31, R43 -/
  rootIn : PtrIn s.root s.nodes.length
  /-- R33, R43 -/
  curIn : PtrIn s.cur s.nodes.length
  /-- R42 to R47 -/
  nodesOk : ∀ i nd, s.nodes[i]? = some nd → NodeOk s.cfg s.src s.nodes.length i nd
  /-- R34 -/
  rsymRange : s.rsym ≤ s.cfg.asize
  /-- R27, R29, R34: `EOS` says that the last decoded symbol was the sentinel -/
  eosMeaning : s.eos = (s.rv && decide (s.rsym = s.cfg.asize))
  /-- R29, R34 -/
  rsymClear : s.rv = false → s.rsym = 0
  /-- canonical form of `CNT` (R49) -/
  countsCanonical : Memory.wf s.cnt
  /-- R49: only indices below `ASIZE`, only values of `WW` bits -/
  countsRange : ∀ p ∈ s.cnt, p.1 < s.cfg.asize ∧ p.2 ≤ weightMax s.cfg
  /-- R50: empty at a boundary reached without a fault -/
  queueIdle : s.mode = .idle → s.pq = []
  /-- R50, R51: sorted by the key, so without repeats, and of allocated slots -/
  queueSorted : s.pq.Pairwise (KeyBefore s.nodes) ∧ ∀ e ∈ s.pq, e < s.nodes.length
  /-- R50, R139 -/
  queueFits : s.pq.length ≤ queueCap s.cfg
  /-- R64, R218: the sentinel is never written to `SO` -/
  sinkRange : ∀ v ∈ s.symOut, v < s.cfg.asize

end Sys2Proof
end

