-- ==== Sys2Proof/Certificates/Slice0/Obligations.lean ====
section
/-! DEFINITION. The statements of this model for the provers, each a Prop. Where a statement rests on a choice
of the model and not on a rule of the spec, its docstring names the log entry. -/

open Sys2Proof Sys2Proof.Machine

/-! ## Command words -/

/-- R92, R93: the six command words, and illegal words of each kind, as written in the spec. -/
def Obligations.CommandWordsDecode : Prop :=
  decode 0x00000001#32 = .ok .buildc ∧ decode 0x00000002#32 = .ok .write ∧
  decode 0x00000003#32 = .ok .buildt ∧ decode 0x00000004#32 = .ok .decsym ∧
  decode 0x00000005#32 = .ok .decstr ∧ decode 0x0000000F#32 = .ok .clear ∧
  decode 0x00000000#32 = .error .reservedOpcode ∧ decode 0x00000006#32 = .error .reservedOpcode ∧
  decode 0x0000000E#32 = .error .reservedOpcode ∧ decode 0x00000011#32 = .error .reservedBits ∧
  decode 0x80000001#32 = .error .reservedBits

/-- R91, R92, R94: a word decodes to a command exactly when it is that command's word. -/
def Obligations.DecodeAcceptsExactlyTheEncodings : Prop :=
  ∀ (w : Word) (i : Instr), decode w = .ok i ↔ w = encode i

/-- R91, R93: a word is illegal exactly when `w[31:4]` is not zero or `w[3:0]` is not one of the six
opcodes. -/
def Obligations.IllegalWordsAreTheReservedOnes : Prop :=
  ∀ w : Word, (∃ e, decode w = .error e) ↔
    (w.toNat / 16 ≠ 0 ∨ w.toNat % 16 ∉ [1, 2, 3, 4, 5, 15])

/-! ## Dispatch -/

/-- R240: a write of a command's word to `CMD` runs that command on the state with the transaction taken from
the host port and answered; `withFetchWord` puts such a write at the front. -/
def Obligations.StepRunsTheDecodedCommand : Prop :=
  (∀ (s : State) (rest : List HostEvent) (w : Word) (i : Instr),
    s.mode ≠ .run → s.host = .wr 0x000#32 4 w :: rest → decode w = .ok i →
    step s = exec i { s with host := rest, replies := s.replies ++ [.done] }) ∧
  (∀ (s : State) (nbits w : Nat) (i : Instr),
    s.mode ≠ .run → decodeTableWord nbits w = some i →
    step (s.withFetchWord nbits w) = exec i { s with replies := s.replies ++ [.done] })

/-- R244: in `IDLE` a word that is not one of the six (reserved `OP`, or a bit of `w[31:4]` set) raises
`ILLEGAL_COMMAND` with the word in `FINFO`, and nothing else of the block changes. -/
def Obligations.IllegalCommandFaultsInIdle : Prop :=
  ∀ (s : State) (rest : List HostEvent) (w : Word),
    s.mode = .idle → s.host = .wr 0x000#32 4 w :: rest →
    (w.toNat / 16 ≠ 0 ∨ w.toNat % 16 ∉ [1, 2, 3, 4, 5, 15]) →
    step s = .next { s with
      host := rest, replies := s.replies ++ [.done], mode := .faulted, fcause := some .illegalCommand,
      finfo := w }

/-- R243: in `FAULTED` every `CMD` write but 0x0000000F is ignored. -/
def Obligations.FaultedIgnoresAllButClear : Prop :=
  ∀ (s : State) (rest : List HostEvent) (w : Word),
    s.mode = .faulted → s.host = .wr 0x000#32 4 w :: rest → w ≠ 0x0000000F#32 →
    step s = .next { s with host := rest, replies := s.replies ++ [.done] }

/-- R277, R243: a step leaves `FAULTED` only by a `CLEAR` word or by reset, and while it stays the recorded
fault is kept. That reset arrives as a host event is the model's choice (log entry 5). -/
def Obligations.OnlyClearOrResetLeavesFaulted : Prop :=
  ∀ s t : State, s.mode = .faulted → step s = .next t →
    (t.mode = .faulted ∧ t.fcause = s.fcause ∧ t.finfo = s.finfo) ∨
    (t.mode = .idle ∧ t.fcause = none ∧ t.finfo = 0#32 ∧
      (s.host.head? = some (.wr 0x000#32 4 0x0000000F#32) ∨ s.host.head? = some .reset))

/-- R303, R6: with no host event pending the block waits; a state in mode `RUN`, which no step leaves, has its
bus stalled (both the model's form of those rules: log entries 2 and 6). -/
def Obligations.EmptyPortWaitsAndRunStalls : Prop :=
  (∀ s : State, s.host = [] → step s = .next s) ∧
  (∀ (s : State) (e : HostEvent) (rest : List HostEvent),
    s.mode = .run → s.host = e :: rest → step s = .fault .busStalled)

/-! ## Reset and CLEAR -/

/-- R300, R301, R302: the state after reset, for every choice of the parameters; and a reset, in `IDLE` or in
`FAULTED`, leaves that state with the parameters, the four streams, the pending events and the answers as they were.
That reset arrives as a host event, and that nothing answers it on the bus, is the model's choice (log entry 5). -/
def Obligations.ResetStateValues : Prop :=
  (∀ c : Config,
    (State.resetOf c).mode = .idle ∧ readReg .status (State.resetOf c) = 0x00000000#32 ∧
    readReg .fcause (State.resetOf c) = 0#32 ∧ (State.resetOf c).finfo = 0#32 ∧
    (State.resetOf c).root = none ∧ (State.resetOf c).cur = none ∧
    nalloc (State.resetOf c) = 0 ∧ (State.resetOf c).rsym = 0 ∧ (State.resetOf c).nidx = 0#32 ∧
    (State.resetOf c).pq = [] ∧ (∀ i, (State.resetOf c).cnt.read i = 0) ∧ (State.resetOf c).cfg = c) ∧
  (∀ (s : State) (rest : List HostEvent), s.mode ≠ .run → s.host = .reset :: rest →
    step s = .next { State.resetOf s.cfg with
      tabIn := s.tabIn, tabOut := s.tabOut, bitIn := s.bitIn, symOut := s.symOut,
      host := rest, replies := s.replies })

/-- R242: `CLEAR`, the word 0x0000000F, completes in `IDLE` and in `FAULTED` in the reset state of the same
parameters, with the streams and the host port as they were; in `FAULTED` every other command is ignored. -/
def Obligations.ClearRestoresResetState : Prop :=
  decode 0x0000000F#32 = .ok .clear ∧
  (∀ s : State, s.mode = .idle ∨ s.mode = .faulted →
    exec .clear s = .next { State.resetOf s.cfg with
      tabIn := s.tabIn, tabOut := s.tabOut, bitIn := s.bitIn, symOut := s.symOut,
      host := s.host, replies := s.replies }) ∧
  (∀ (s : State) (i : Instr), s.mode = .faulted → i ≠ .clear → exec i s = .next s)

/-! ## BUILDC -/

/-- R139, R140: within the weight limit `BUILDC` completes; `m` non-zero counts leave `2m+1` nodes, the root the
last of them, with the total weight; flags, result registers and `PQ` as R130 leaves them; nothing else changes. -/
def Obligations.BuildcCompletesWithinWeightLimit : Prop :=
  ∀ s : State, s.mode = .idle → totalWeight s ≤ weightMax s.cfg →
    ∃ nodes : List Node,
      exec .buildc s = .next { s with
        tv := true, src := false, eos := false, rv := false, rsym := 0, cur := none, pq := [],
        root := some (2 * (presentSymbols s).length), nodes := nodes } ∧
      nodes.length = 2 * (presentSymbols s).length + 1 ∧
      weightOf nodes (2 * (presentSymbols s).length) = totalWeight s

/-- R140, R267, R276: beyond the weight limit `BUILDC` raises `WEIGHT_OVERFLOW` with `FINFO = NALLOC` and holds
no tree. -/
def Obligations.BuildcOverflowFaults : Prop :=
  ∀ s : State, s.cfg.wf = true → s.mode = .idle → weightMax s.cfg < totalWeight s →
    ∃ (nodes : List Node) (pq : List Nat),
      exec .buildc s = .next { s with
        mode := .faulted, fcause := some .weightOverflow, finfo := word nodes.length,
        tv := false, src := false, eos := false, rv := false, rsym := 0, cur := none, root := none,
        nodes := nodes, pq := pq } ∧
      nodes.take ((presentSymbols s).length + 1) =
        (presentSymbols s).map (fun i => leafNode i (s.cnt.read i)) ++ [leafNode s.cfg.asize 1] ∧
      (∃ a b rest, pq = a :: b :: rest ∧ weightMax s.cfg < weightOf nodes a + weightOf nodes b)

/-- R133, R134, R142: a completed `BUILDC` has one leaf for each symbol with a non-zero count, in ascending
order, with that count as weight, then the sentinel's leaf with weight 1, and no other leaf. -/
def Obligations.BuildcLeavesAreSymbolsThenSentinel : Prop :=
  ∀ s t : State, s.mode = .idle → exec .buildc s = .next t → t.mode = .idle →
    t.nodes.take ((presentSymbols s).length + 1) =
      (presentSymbols s).map (fun i => leafNode i (s.cnt.read i)) ++ [leafNode s.cfg.asize 1] ∧
    (∀ nd ∈ t.nodes.drop ((presentSymbols s).length + 1), isLeaf nd = false ∧ nd.symv = false ∧ nd.sym = 0)

/-- R135, R136, R42, R51: every fork a completed `BUILDC` leaves joins the two nodes that came first, in the order of
`PQ`, of all that waited when it was made (allocated before it and no child of an earlier fork): the very first is its
left child, the next its right child, and it weighs their sum. -/
def Obligations.BuildcForksJoinInKeyOrder : Prop :=
  ∀ s t : State, s.mode = .idle → exec .buildc s = .next t → t.mode = .idle →
    ∀ i nd, t.nodes[i]? = some nd → nd.symv = false →
      ∃ a b, nd = forkNode (weightOf t.nodes a + weightOf t.nodes b) a b ∧
        Waiting t.nodes i a ∧ Waiting t.nodes i b ∧ KeyBefore t.nodes a b ∧
        ∀ c, Waiting t.nodes i c → c ≠ a → c ≠ b → KeyBefore t.nodes b c

/-- R132: `pq_insert` of a node newer than every entry puts it behind every entry of at most its weight and
before every heavier one, and so keeps `PQ` sorted by (weight, index). -/
def Obligations.InsertKeepsQueueSorted : Prop :=
  ∀ (nodes : List Node) (pq : List Nat) (n : Nat),
    pq.Pairwise (KeyBefore nodes) → (∀ e ∈ pq, e < n) →
    (pqInsert nodes pq n).Pairwise (KeyBefore nodes) ∧
    pqInsert nodes pq n = pq.filter (fun e => decide (weightOf nodes e ≤ weightOf nodes n)) ++
      n :: pq.filter (fun e => decide (weightOf nodes n < weightOf nodes e))

/-- R138: what `BUILDC` leaves depends on the counts and the parameters alone. -/
def Obligations.BuildcIsFunctionOfCounts : Prop :=
  ∀ s s' t t' : State, s.mode = .idle → s'.mode = .idle → s.cfg = s'.cfg →
    (∀ i, i < s.cfg.asize → s.cnt.read i = s'.cnt.read i) →
    exec .buildc s = .next t → exec .buildc s' = .next t' →
    t.nodes = t'.nodes ∧ t.root = t'.root ∧ t.pq = t'.pq ∧ t.mode = t'.mode ∧ t.tv = t'.tv

/-- R47, R142: the tree of a completed `BUILDC` is well-formed; its leaves are the symbols with a non-zero count
and the sentinel, each once. -/
def Obligations.BuildcTreeIsWellFormed : Prop :=
  ∀ s t : State, s.mode = .idle → exec .buildc s = .next t → t.mode = .idle →
    ∃ r T, t.root = some r ∧ Holds t.nodes r T ∧
      (T.codes.map Prod.fst).Perm (presentSymbols s ++ [s.cfg.asize])

/-- R143: the tree of a completed `BUILDC` is well-formed, hence prefix-free, and weight-minimal among all
assignments of prefix-free codes to its leaves, hence among all binary trees over them; of two leaves the heavier
is at most as deep as the lighter. -/
def Obligations.BuildcTreeIsWeightMinimal : Prop :=
  ∀ s t : State, s.mode = .idle → exec .buildc s = .next t → t.mode = .idle →
    ∃ r T, t.root = some r ∧ Holds t.nodes r T ∧
      (T.codes.map Prod.fst).Perm (presentSymbols s ++ [s.cfg.asize]) ∧
      T.codes.Pairwise (fun c d => ¬ Clash c.2 d.2) ∧
      (∀ codes : List (Nat × List Bool), (codes.map Prod.fst).Perm (presentSymbols s ++ [s.cfg.asize]) →
        codes.Pairwise (fun c d => ¬ Clash c.2 d.2) →
        codeCost (leafWeight s) T.codes ≤ codeCost (leafWeight s) codes) ∧
      (∀ c ∈ T.codes, ∀ d ∈ T.codes, leafWeight s d.1 < leafWeight s c.1 → c.2.length ≤ d.2.length)

/-- R316: a code of the tree of a completed `BUILDC` has at most `ASIZE` bits, and at most one bit for each symbol
with a non-zero count. -/
def Obligations.BuildcCodesAreAtMostAsizeLong : Prop :=
  ∀ s t : State, s.mode = .idle → exec .buildc s = .next t → t.mode = .idle →
    ∀ r T, t.root = some r → Holds t.nodes r T →
      ∀ c ∈ T.codes, c.2.length ≤ (presentSymbols s).length ∧ c.2.length ≤ s.cfg.asize

/-- R77, R130: whatever `BUILDC` does, it writes only `MODE`, the fault registers, the flags, `RSYM`, `CUR`,
`ROOT`, the arena and `PQ`; the counts, `NIDX` and every stream are as before. -/
def Obligations.BuildcFrame : Prop :=
  ∀ s t : State, exec .buildc s = .next t →
    t = { s with
      mode := t.mode, fcause := t.fcause, finfo := t.finfo, tv := t.tv, src := t.src, eos := t.eos,
      rv := t.rv, rsym := t.rsym, cur := t.cur, root := t.root, nodes := t.nodes, pq := t.pq } ∧
    (∀ i, t.cnt.read i = s.cnt.read i)

/-! ## WRITE -/

/-- R160, R162, R163, R167: `WRITE` of a well-formed tree completes, having appended the pair of every leaf,
left-first, and changed nothing else. -/
def Obligations.WriteEmitsTheTable : Prop :=
  ∀ (s : State) (r : Nat) (T : CodeTree), Inv s → s.mode = .idle → s.tv = true → s.root = some r →
    Holds s.nodes r T →
    exec .write s = .next { s with tabOut := s.tabOut ++ tableText T.codes }

/-- R166, R192, R274: with a tree, `WRITE` completes exactly when the tree is well-formed. Otherwise it raises
`MISSING_CHILD` at the first node with exactly one child in left-first pre-order, which is the ascending order `<` of
the paths from the root; the table of the leaves before it, in that order, has been appended and stays. -/
def Obligations.WriteFaultsExactlyOnOneChildNode : Prop :=
  ∀ s : State, Inv s → s.mode = .idle → s.tv = true →
    (∃ r T, s.root = some r ∧ Holds s.nodes r T ∧
      exec .write s = .next { s with tabOut := s.tabOut ++ tableText T.codes }) ∨
    ((¬ ∃ r T, s.root = some r ∧ Holds s.nodes r T) ∧
      ∃ (r n : Nat) (path : List Bool) (nd : Node) (before : List (Nat × List Bool)),
        s.root = some r ∧ follow s.nodes r path = some n ∧ s.nodes[n]? = some nd ∧
        nd.left.isNone ≠ nd.right.isNone ∧
        (∀ q m x, q < path → follow s.nodes r q = some m → s.nodes[m]? = some x →
          x.left.isNone = x.right.isNone) ∧
        before.Pairwise (fun c d => c.2 < d.2) ∧
        (∀ v q, (v, q) ∈ before ↔ q < path ∧ ∃ m leaf, follow s.nodes r q = some m ∧
          s.nodes[m]? = some leaf ∧ isLeaf leaf = true ∧ leaf.sym = v) ∧
        exec .write s = .next { s with
          tabOut := s.tabOut ++ tableText before, mode := .faulted, fcause := some .missingChild,
          finfo := word n })

/-- R163, R103, R96, R162: a pair is printed as the digits of the symbol, 0x0A, one byte 0x30 or 0x31 per path bit, and
0x0A; the table of a tree names its leaves in ascending lexicographic order of their paths, so names no path twice; and
whatever `WRITE` appends, faulting or not, is digits and line feeds. -/
def Obligations.WrittenTextIsCanonical : Prop :=
  (∀ (v : Nat) (path : List Bool), pairText v path =
    dec v ++ [0x0A#8] ++ path.map (fun b => if b then 0x31#8 else 0x30#8) ++ [0x0A#8]) ∧
  (∀ T : CodeTree, T.codes.Pairwise (fun c d => c.2 < d.2)) ∧
  (∀ (codes : List (Nat × List Bool)) (b : Byte), b ∈ tableText codes →
    b = 0x0A#8 ∨ (0x30 ≤ b.toNat ∧ b.toNat ≤ 0x39)) ∧
  (∀ s t : State, exec .write s = .next t → ∃ bytes, t.tabOut = s.tabOut ++ bytes ∧
    ∀ b ∈ bytes, b = 0x0A#8 ∨ (0x30 ≤ b.toNat ∧ b.toNat ≤ 0x39))

/-- R160: whatever `WRITE` does, it only appends to `TO` and, if it faults, enters the fault. -/
def Obligations.WriteFrame : Prop :=
  ∀ s t : State, exec .write s = .next t →
    (∃ bytes, t = { s with tabOut := s.tabOut ++ bytes }) ∨
    (∃ bytes cause info, t = { s with
      tabOut := s.tabOut ++ bytes, mode := .faulted, fcause := some cause, finfo := info })

/-- R161, R211, R268: without a tree `WRITE`, `DECSYM` and `DECSTR` raise `NO_TREE` with their opcode in `FINFO`
and touch nothing else. -/
def Obligations.CommandsWithoutTreeFault : Prop :=
  ∀ s : State, s.mode = .idle → s.tv = false →
    exec .write s = .next { s with mode := .faulted, fcause := some .noTree, finfo := 0x2#32 } ∧
    exec .decsym s = .next { s with mode := .faulted, fcause := some .noTree, finfo := 0x4#32 } ∧
    exec .decstr s = .next { s with mode := .faulted, fcause := some .noTree, finfo := 0x5#32 }

/-! ## The numbers of the table text -/

/-- R100: `dec` is the canonical decimal string. -/
def Obligations.DecPrintsCanonicalDigits : Prop :=
  (∀ n, n < 10 → dec n = [BitVec.ofNat 8 (0x30 + n)]) ∧
  (∀ n, 10 ≤ n → dec n = dec (n / 10) ++ [BitVec.ofNat 8 (0x30 + n % 10)]) ∧
  (∀ n, 0 < n → (dec n).head? ≠ some 0x30#8)

/-- R101: a symbol line of one or more digits has the value of its digit string, leading zeros accepted, and
reading it takes the line and its LF; reading back a printed number gives the number. -/
def Obligations.SymbolLineHasDigitValue : Prop :=
  (∀ (ds rest : List Byte), IsDigits ds →
    symbolLine 0 0 (ds ++ lineFeed :: rest) = .ok (digitsValue ds) rest) ∧
  (∀ (ds : List Byte), digitsValue (0x30#8 :: ds) = digitsValue ds) ∧
  (∀ n, IsDigits (dec n) ∧ digitsValue (dec n) = n)

/-! ## BUILDT -/

/-- R168, R188: `BUILDT` of the table of a tree whose identifiers are in range and whose nodes fit completes and
holds that very tree, rooted at slot 0, with every weight 0; nothing else changes. -/
def Obligations.BuildtRebuildsTheTree : Prop :=
  ∀ (s : State) (T : CodeTree), s.mode = .idle → s.tabIn = tableText T.codes →
    (∀ c ∈ T.codes, c.1 ≤ s.cfg.asize) → T.size ≤ s.cfg.ncap →
    ∃ nodes : List Node,
      exec .buildt s = .next { s with
        tv := true, src := true, eos := false, rv := false, rsym := 0, cur := none, pq := [],
        root := some 0, nodes := nodes, tabIn := [] } ∧
      Holds nodes 0 T ∧ nodes.length = T.size ∧ ∀ nd ∈ nodes, nd.weight = 0

/-- R194, R193, R101: `BUILDT` of any table, leading zeros in its symbol lines or none, whose paths do not clash, whose
symbols are in range and whose nodes fit completes; the leaves of the tree are exactly the pairs; the empty table
leaves no tree. -/
def Obligations.BuildtLoadsPrefixFreeTable : Prop :=
  ∀ (s : State) (pairs : List (List Byte × List Bool)), s.mode = .idle → s.tabIn = spelledText pairs →
    (∀ p ∈ pairs, IsDigits p.1 ∧ digitsValue p.1 ≤ s.cfg.asize) →
    pairs.Pairwise (fun p q => ¬ Clash p.2 q.2) →
    pathNodes (pairs.map Prod.snd) ≤ s.cfg.ncap →
    ∃ nodes : List Node,
      exec .buildt s = .next { s with
        tv := !pairs.isEmpty, src := true, eos := false, rv := false, rsym := 0, cur := none, pq := [],
        root := if pairs.isEmpty then none else some 0, nodes := nodes, tabIn := [] } ∧
      nodes.length = pathNodes (pairs.map Prod.snd) ∧
      (∀ v path, (v, path) ∈ pairValues pairs ↔
        ∃ n nd, follow nodes 0 path = some n ∧ nodes[n]? = some nd ∧ isLeaf nd = true ∧ nd.sym = v)

/-- R187, R189, R190, R262, R266, R101: after pairs that load, a pair whose path clashes with an earlier one raises
`CONFLICTING_CODE_PATH`, and one that does not clash but does not fit raises `ARENA_FULL`; `FINFO` is its index,
the tree of the earlier pairs stays, `TV` is 0 and `TI` is consumed through the pair's last LF. Every symbol line may
have leading zeros. -/
def Obligations.BuildtRejectsClashingOrLargePair : Prop :=
  ∀ (s t : State) (pairs : List (List Byte × List Bool)) (ds : List Byte) (path : List Bool) (rest : List Byte),
    s.mode = .idle → (∀ p ∈ pairs, IsDigits p.1) →
    exec .buildt { s with tabIn := spelledText pairs } = .next t → t.mode = .idle →
    IsDigits ds → digitsValue ds ≤ s.cfg.asize →
    ((∃ p ∈ pairs, Clash p.2 path) →
      exec .buildt { s with tabIn := spelledText pairs ++ spelledPair ds path ++ rest } =
        .next { t with
          mode := .faulted, fcause := some .conflictingCodePath, finfo := word pairs.length, tv := false,
          tabIn := rest }) ∧
    ((∀ p ∈ pairs, ¬ Clash p.2 path) → s.cfg.ncap < pathNodes (pairs.map Prod.snd ++ [path]) →
      exec .buildt { s with tabIn := spelledText pairs ++ spelledPair ds path ++ rest } =
        .next { t with
          mode := .faulted, fcause := some .arenaFull, finfo := word pairs.length, tv := false,
          tabIn := rest })

/-- R184, R185, R186, R190, R101: after pairs that load, text that is no pair raises `BAD_TABLE_SYNTAX`, `BAD_SYMBOL`
or `TABLE_TRUNCATED` at its first offending position; `FINFO` is the index of that pair, the tree of the earlier pairs
stays, `TV` is 0, and `TI` is consumed through that position. Every symbol line may have leading zeros. -/
def Obligations.BuildtRejectsMalformedPair : Prop :=
  ∀ (s t : State) (pairs : List (List Byte × List Bool)),
    s.mode = .idle → (∀ p ∈ pairs, IsDigits p.1) →
    exec .buildt { s with tabIn := spelledText pairs } = .next t → t.mode = .idle →
    (∀ bad cause rest, BadPair s.cfg.asize bad cause →
      exec .buildt { s with tabIn := spelledText pairs ++ bad ++ rest } =
        .next { t with
          mode := .faulted, fcause := some cause, finfo := word pairs.length, tv := false, tabIn := rest }) ∧
    (∀ cut, CutPair s.cfg.asize cut →
      exec .buildt { s with tabIn := spelledText pairs ++ cut } =
        .next { t with
          mode := .faulted, fcause := some .tableTruncated, finfo := word pairs.length, tv := false,
          tabIn := [] })

/-- R77, R180: whatever `BUILDT` does, it writes only `MODE`, the fault registers, the flags, `RSYM`, `CUR`, `ROOT`,
the arena and `PQ`, and takes bytes from the front of `TI`. -/
def Obligations.BuildtFrame : Prop :=
  ∀ s t : State, exec .buildt s = .next t →
    t = { s with
      mode := t.mode, fcause := t.fcause, finfo := t.finfo, tv := t.tv, src := t.src, eos := t.eos,
      rv := t.rv, rsym := t.rsym, cur := t.cur, root := t.root, nodes := t.nodes, pq := t.pq,
      tabIn := t.tabIn } ∧
    (∃ taken, s.tabIn = taken ++ t.tabIn) ∧ (∀ i, t.cnt.read i = s.cnt.read i)

/-- R48: after a build that left a tree, every allocated node is pointed to exactly once, by `ROOT` or by one
child field. -/
def Obligations.BuildsOwnEachNodeOnce : Prop :=
  ∀ (s t : State) (i : Instr), i = .buildc ∨ i = .buildt → s.mode = .idle → exec i s = .next t →
    t.tv = true →
    (t.root.toList ++ t.nodes.flatMap (fun nd => nd.left.toList ++ nd.right.toList)).Perm
      (List.range t.nodes.length)

/-! ## DECSYM and DECSTR -/

/-- R210, R212, R213: when `BI` holds the path from the root to a leaf, `DECSYM` takes exactly that path, stops at
the leaf and returns its symbol; nothing else changes. -/
def Obligations.DecsymReturnsTheLeafOfThePath : Prop :=
  ∀ (s : State) (r n : Nat) (nd : Node) (path rest : List Bool),
    s.mode = .idle → s.tv = true → s.root = some r →
    follow s.nodes r path = some n → s.nodes[n]? = some nd → isLeaf nd = true →
    s.bitIn = path ++ rest →
    exec .decsym s = .next { s with
      cur := some n, rsym := nd.sym, rv := true, eos := decide (nd.sym = s.cfg.asize), bitIn := rest }

/-- R214, R261, R269: `DECSYM` at an internal node raises `TRUNCATED_STREAM` when no bit is left, and
`MISSING_CHILD` when the bit, which is consumed, selects an absent child; `CUR` and `FINFO` name the node, and
`RSYM`, `RV`, `EOS` are as before. -/
def Obligations.DecsymFaultsNameTheNode : Prop :=
  ∀ (s : State) (r n : Nat) (nd : Node) (path : List Bool),
    s.mode = .idle → s.tv = true → s.root = some r →
    follow s.nodes r path = some n → s.nodes[n]? = some nd → isLeaf nd = false →
    (s.bitIn = path →
      exec .decsym s = .next { s with
        cur := some n, bitIn := [], mode := .faulted, fcause := some .truncatedStream, finfo := word n }) ∧
    (∀ (b : Bool) (rest : List Bool), child nd b = none → s.bitIn = path ++ b :: rest →
      exec .decsym s = .next { s with
        cur := some n, bitIn := rest, mode := .faulted, fcause := some .missingChild, finfo := word n })

/-- R216, R217, R218, R221: when `BI` holds the paths of leaves other than the sentinel's and then the path of a
sentinel leaf, in a well-formed tree or an incomplete one, `DECSTR` writes the symbols of those leaves to `SO` in
order, stops at the sentinel without writing it, and takes no further bit. -/
def Obligations.DecstrDecodesUpToTheSentinel : Prop :=
  ∀ (s : State) (r n : Nat) (nd : Node) (codes : List (Nat × List Bool)) (last rest : List Bool),
    s.mode = .idle → s.tv = true → s.root = some r →
    (∀ c ∈ codes, c.1 ≠ s.cfg.asize ∧ ∃ m leaf, follow s.nodes r c.2 = some m ∧
      s.nodes[m]? = some leaf ∧ isLeaf leaf = true ∧ leaf.sym = c.1) →
    follow s.nodes r last = some n → s.nodes[n]? = some nd → isLeaf nd = true → nd.sym = s.cfg.asize →
    s.bitIn = codes.flatMap Prod.snd ++ last ++ rest →
    exec .decstr s = .next { s with
      cur := some n, rsym := s.cfg.asize, rv := true, eos := true, bitIn := rest,
      symOut := s.symOut ++ codes.map Prod.fst }

/-- R217: when the stream ends, or selects an absent child, at an internal node before the sentinel, `DECSTR`
raises `TRUNCATED_STREAM` or `MISSING_CHILD`; the symbols decoded before stay in `SO`, and `RSYM`, `RV`, `EOS`
hold what the last of them set. -/
def Obligations.DecstrFaultKeepsWrittenSymbols : Prop :=
  ∀ (s : State) (r n : Nat) (nd : Node) (codes : List (Nat × List Bool)) (path : List Bool),
    s.mode = .idle → s.tv = true → s.root = some r →
    (∀ c ∈ codes, c.1 ≠ s.cfg.asize ∧ ∃ m leaf, follow s.nodes r c.2 = some m ∧
      s.nodes[m]? = some leaf ∧ isLeaf leaf = true ∧ leaf.sym = c.1) →
    follow s.nodes r path = some n → s.nodes[n]? = some nd → isLeaf nd = false →
    (s.bitIn = codes.flatMap Prod.snd ++ path →
      exec .decstr s = .next { s with
        cur := some n, bitIn := [], mode := .faulted, fcause := some .truncatedStream, finfo := word n,
        symOut := s.symOut ++ codes.map Prod.fst, rsym := ((codes.map Prod.fst).getLast?).getD s.rsym,
        rv := s.rv || !codes.isEmpty, eos := s.eos && codes.isEmpty }) ∧
    (∀ (b : Bool) (rest : List Bool), child nd b = none →
      s.bitIn = codes.flatMap Prod.snd ++ path ++ b :: rest →
      exec .decstr s = .next { s with
        cur := some n, bitIn := rest, mode := .faulted, fcause := some .missingChild, finfo := word n,
        symOut := s.symOut ++ codes.map Prod.fst, rsym := ((codes.map Prod.fst).getLast?).getD s.rsym,
        rv := s.rv || !codes.isEmpty, eos := s.eos && codes.isEmpty })

/-- R219, R271: on a one-node tree no bit is read: `DECSYM` returns the symbol; `DECSTR` completes at once if it is
the sentinel and otherwise raises `ZERO_LENGTH_LOOP` with `FINFO = ROOT`, having written nothing. -/
def Obligations.OneNodeTreeReadsNoBit : Prop :=
  ∀ (s : State) (r : Nat) (nd : Node), s.mode = .idle → s.tv = true → s.root = some r →
    s.nodes[r]? = some nd → isLeaf nd = true →
    exec .decsym s = .next { s with
      cur := some r, rsym := nd.sym, rv := true, eos := decide (nd.sym = s.cfg.asize) } ∧
    (nd.sym = s.cfg.asize →
      exec .decstr s = .next { s with cur := some r, rsym := nd.sym, rv := true, eos := true }) ∧
    (nd.sym ≠ s.cfg.asize →
      exec .decstr s = .next { s with mode := .faulted, fcause := some .zeroLengthLoop, finfo := word r })

/-- R220, R74: with a tree, and where `DECSTR` does not raise `ZERO_LENGTH_LOOP`, `DECSYM` issued again and again
returns the symbols `DECSTR` writes, then the sentinel if `DECSTR` completes, and ends in the same state but for
`SO`, to which it writes nothing; where `DECSTR` raises it, `DECSYM` returns the root's symbol and takes no bit. -/
def Obligations.IncrementalDecodeEqualsStreamDecode : Prop :=
  ∀ s t : State, s.mode = .idle → s.tv = true → exec .decstr s = .next t →
    (¬ (t.mode = .faulted ∧ t.fcause = some .zeroLengthLoop) →
      ∃ written, t.symOut = s.symOut ++ written ∧
        decsymRepeat (s.bitIn.length + 1) s =
          (written ++ (if t.mode = .idle then [s.cfg.asize] else []), { t with symOut := s.symOut })) ∧
    (t.mode = .faulted → t.fcause = some .zeroLengthLoop →
      t.symOut = s.symOut ∧ t.bitIn = s.bitIn ∧
      ∃ r nd, s.root = some r ∧ s.nodes[r]? = some nd ∧ nd.sym ≠ s.cfg.asize ∧
        exec .decsym s = .next { s with cur := some r, rsym := nd.sym, rv := true, eos := false })

/-- R222, R210, R215, R218: `DECSYM` and `DECSTR`, faulting or not, write only `CUR`, `RSYM`, `RV`, `EOS`, `MODE`, the
fault registers and, `DECSTR` alone, `SO`, to which the sentinel is never written; they take bits from the front
of `BI`. -/
def Obligations.DecodersFrame : Prop :=
  (∀ s t : State, exec .decsym s = .next t →
    t = { s with
      cur := t.cur, rsym := t.rsym, rv := t.rv, eos := t.eos, mode := t.mode, fcause := t.fcause,
      finfo := t.finfo, bitIn := t.bitIn } ∧
    ∃ taken, s.bitIn = taken ++ t.bitIn) ∧
  (∀ s t : State, exec .decstr s = .next t →
    t = { s with
      cur := t.cur, rsym := t.rsym, rv := t.rv, eos := t.eos, mode := t.mode, fcause := t.fcause,
      finfo := t.finfo, bitIn := t.bitIn, symOut := t.symOut } ∧
    (∃ taken, s.bitIn = taken ++ t.bitIn) ∧
    ∃ written, t.symOut = s.symOut ++ written ∧ s.cfg.asize ∉ written)

/-- R168, R221, R222: the round trip. The table `WRITE` appends for a well-formed tree, loaded by `BUILDT` into a
block with the same `ASIZE` and room for it, gives a tree on which `DECSTR` takes the same bits, writes the same
symbols and ends the same way, and whose own table is the same text. -/
def Obligations.RoundTripDecodesAlike : Prop :=
  ∀ (s u t : State) (r : Nat) (T : CodeTree),
    Inv s → s.mode = .idle → s.tv = true → s.root = some r → Holds s.nodes r T →
    Inv u → u.mode = .idle → u.cfg.asize = s.cfg.asize → T.size ≤ u.cfg.ncap → u.tabIn = tableText T.codes →
    exec .buildt u = .next t →
    (∃ x y, exec .decstr s = .next x ∧
      exec .decstr { t with bitIn := s.bitIn, symOut := s.symOut } = .next y ∧
      y.symOut = x.symOut ∧ y.bitIn = x.bitIn ∧ y.mode = x.mode ∧ y.fcause = x.fcause) ∧
    exec .write t = .next { t with tabOut := t.tabOut ++ tableText T.codes }

/-! ## Faults -/

/-- R272: a command started in `IDLE` raises only the causes the table gives it. -/
def Obligations.CommandsRaiseOnlyTheirCauses : Prop :=
  ∀ (i : Instr) (s t : State), s.mode = .idle → exec i s = .next t → t.mode = .faulted →
    ∃ c, t.fcause = some c ∧ c ∈ mayRaise i

/-- R275, R276: a fault of `WRITE`, `DECSYM` or `DECSTR` leaves `TV` and `SRC` and the tree as they were; a fault of
a build command leaves `TV` = 0, and after `BUILDC` no root. -/
def Obligations.FaultsKeepOrDropTheTree : Prop :=
  (∀ (i : Instr) (s t : State), i = .write ∨ i = .decsym ∨ i = .decstr → exec i s = .next t →
    t.tv = s.tv ∧ t.src = s.src ∧ t.root = s.root ∧ t.nodes = s.nodes) ∧
  (∀ (i : Instr) (s t : State), i = .buildc ∨ i = .buildt → s.mode = .idle → exec i s = .next t →
    t.mode = .faulted → t.tv = false ∧ (i = .buildc → t.root = none))

/-- R272: after a `BUILDC` that completed, `WRITE` raises nothing and the decoders only `TRUNCATED_STREAM`. -/
def Obligations.CountBuiltTreeNeverMissesAChild : Prop :=
  ∀ (s t : State) (bits : List Bool), s.mode = .idle → exec .buildc s = .next t → t.mode = .idle →
    (∃ x, exec .write t = .next x ∧ x.mode = .idle) ∧
    (∀ i, i = .decsym ∨ i = .decstr → ∃ x, exec i { t with bitIn := bits } = .next x ∧
      (x.mode = .idle ∨ x.fcause = some .truncatedStream))

/-! ## The whole machine -/

/-- The reset state satisfies the invariant, for every legal choice of the parameters and for the defaults. -/
def Obligations.ResetSatisfiesInvariant : Prop :=
  Inv State.reset ∧ ∀ c : Config, c.wf = true → Inv (State.resetOf c)

/-- Every step keeps the invariant. -/
def Obligations.StepKeepsInvariant : Prop :=
  ∀ s t : State, Inv s → step s = .next t → Inv t

/-- R145, R167, R196, R217, R245: in a state that satisfies the invariant every step has a next state: no transaction
stops the machine, and no command runs for ever. That an illegal access (R68, R80, R281) is answered with a bus error
and the machine goes on is the model's choice (log entry 4). -/
def Obligations.NoStepStops : Prop := ∀ s : State, Inv s → ∃ t, step s = .next t

/-- R5: the parameters are constant for the life of the block. -/
def Obligations.ParametersNeverChange : Prop :=
  ∀ s t : State, step s = .next t → t.cfg = s.cfg

/-! ## The host port -/

/-- R37, R26: `STATUS` packs the five flags, `FLT` being `MODE = FAULTED`; its other bits read as zero. -/
def Obligations.StatusPacksTheFlags : Prop :=
  ∀ s : State, (readReg .status s).toNat = s.tv.toNat + 2 * (decide (s.mode = .faulted)).toNat +
    4 * s.eos.toNat + 8 * s.src.toNat + 16 * s.rv.toNat

/-- R36 to R41, R43, R245, R260: the word a read of each register returns, and that it changes nothing but the host
port. A cause reads as its number and `NIL` as 0xFFFFFFFF. -/
def Obligations.RegisterReadsReturnTheState : Prop :=
  ∀ (s : State) (rest : List HostEvent) (offset : Word), s.mode ≠ .run → s.host = .rd offset 4 :: rest →
    let returns (v : Word) := step s = .next { s with host := rest, replies := s.replies ++ [.data v] }
    (offset = 0x000#32 → returns 0#32) ∧
    (offset = 0x004#32 → returns (BitVec.ofNat 32 (s.tv.toNat + 2 * (decide (s.mode = .faulted)).toNat +
      4 * s.eos.toNat + 8 * s.src.toNat + 16 * s.rv.toNat))) ∧
    (offset = 0x008#32 → (s.fcause = none → returns 0#32) ∧
      ∀ p ∈ [(Cause.truncatedStream, 1#32), (.conflictingCodePath, 2#32), (.badTableSyntax, 3#32),
          (.tableTruncated, 4#32), (.badSymbol, 5#32), (.arenaFull, 6#32), (.weightOverflow, 7#32),
          (.noTree, 8#32), (.missingChild, 9#32), (.illegalCommand, 10#32), (.zeroLengthLoop, 11#32)],
        s.fcause = some p.1 → returns p.2) ∧
    (offset = 0x00C#32 → returns s.finfo) ∧
    (offset = 0x010#32 → returns (BitVec.ofNat 32 s.cfg.asize)) ∧
    (offset = 0x014#32 → returns (BitVec.ofNat 32 s.cfg.ncap)) ∧
    (offset = 0x018#32 → returns (BitVec.ofNat 32 s.cfg.ww)) ∧
    (offset = 0x01C#32 → (s.root = none → returns 0xFFFFFFFF#32) ∧
      ∀ i, s.root = some i → returns (BitVec.ofNat 32 i)) ∧
    (offset = 0x020#32 → returns (BitVec.ofNat 32 s.nodes.length)) ∧
    (offset = 0x024#32 → (s.cur = none → returns 0xFFFFFFFF#32) ∧
      ∀ i, s.cur = some i → returns (BitVec.ofNat 32 i)) ∧
    (offset = 0x028#32 → returns (BitVec.ofNat 32 s.rsym)) ∧
    (offset = 0x02C#32 → returns s.nidx)

/-- R41, R43, R5: the node window shows the fields of slot `NIDX`, and zeros when `NIDX >= NALLOC`: `symv` in bit 31
and `sym` in the `SW` bits below, `SW` being the number of bits of `ASIZE`; pointers with `NIL` as 0xFFFFFFFF. -/
def Obligations.NodeWindowShowsAllocatedSlots : Prop :=
  ∀ (s : State) (rest : List HostEvent) (offset : Word), s.mode ≠ .run → s.host = .rd offset 4 :: rest →
    let returns (v : Word) := step s = .next { s with host := rest, replies := s.replies ++ [.data v] }
    (s.nodes.length ≤ s.nidx.toNat →
      offset ∈ [0x030#32, 0x034#32, 0x038#32, 0x03C#32] → returns 0#32) ∧
    (∀ nd, s.nodes[s.nidx.toNat]? = some nd →
      (offset = 0x030#32 → s.cfg.wf = true →
        ∀ sw, 2 ^ (sw - 1) ≤ s.cfg.asize → s.cfg.asize < 2 ^ sw →
          returns (BitVec.ofNat 32 (nd.sym % 2 ^ sw + 2 ^ 31 * nd.symv.toNat))) ∧
      (offset = 0x034#32 → returns (BitVec.ofNat 32 nd.weight)) ∧
      (offset = 0x038#32 → (nd.left = none → returns 0xFFFFFFFF#32) ∧
        ∀ i, nd.left = some i → returns (BitVec.ofNat 32 i)) ∧
      (offset = 0x03C#32 → (nd.right = none → returns 0xFFFFFFFF#32) ∧
        ∀ i, nd.right = some i → returns (BitVec.ofNat 32 i)))

/-- R70, R79: a write to `CNT[i]` stores the low `WW` bits there and changes no other count and nothing else of
the block; a read of `CNT[i]` returns the count. -/
def Obligations.CountWritesKeepTheLowBits : Prop :=
  ∀ (s : State) (rest : List HostEvent) (i : Nat), Inv s → i < s.cfg.asize →
    (∀ v, s.host = .wr (word (0x1000 + 4 * i)) 4 v :: rest →
      ∃ cnt : Memory, step s = .next { s with host := rest, replies := s.replies ++ [.done], cnt := cnt } ∧
        cnt.read i = v.toNat % 2 ^ s.cfg.ww ∧ ∀ j, j ≠ i → cnt.read j = s.cnt.read j) ∧
    (s.host = .rd (word (0x1000 + 4 * i)) 4 :: rest →
      step s = .next { s with host := rest, replies := s.replies ++ [.data (word (s.cnt.read i))] })

/-- R69, R41: a write to `NIDX` stores all 32 bits; a write to a read-only register is ignored. -/
def Obligations.OnlyNidxStoresAmongRegisters : Prop :=
  ∀ (s : State) (rest : List HostEvent) (offset v : Word), s.mode ≠ .run →
    s.host = .wr offset 4 v :: rest →
    (offset = 0x02C#32 → step s = .next { s with host := rest, replies := s.replies ++ [.done], nidx := v }) ∧
    (offset.toNat % 4 = 0 → 0x004 ≤ offset.toNat → offset.toNat ≤ 0x03C → offset ≠ 0x02C#32 →
      step s = .next { s with host := rest, replies := s.replies ++ [.done] })

/-- R68, R80, R281: a transaction that is not 4 bytes wide, not aligned, or to an unmapped offset gets a bus error
and changes nothing of the block. That the machine then goes on is log entry 4. -/
def Obligations.IllegalAccessGetsBusError : Prop :=
  ∀ (s : State) (rest : List HostEvent) (offset v : Word) (bytes : Nat), s.mode ≠ .run →
    (s.host = .wr offset bytes v :: rest ∨ s.host = .rd offset bytes :: rest) →
    (bytes ≠ 4 ∨ offset.toNat % 4 ≠ 0 ∨ (0x040 ≤ offset.toNat ∧ offset.toNat < 0x1000) ∨
      0x1000 + 4 * s.cfg.asize ≤ offset.toNat) →
    step s = .next { s with host := rest, replies := s.replies ++ [.busError] }

/-- R69, R245: a read has no side effect: every read leaves all but the host port as it was. That the machine goes on
after an illegal read (R68, R80, R281), with a bus error as its answer, is the model's choice (log entry 4). -/
def Obligations.ReadsHaveNoSideEffect : Prop :=
  ∀ (s : State) (rest : List HostEvent) (offset : Word) (bytes : Nat), s.mode ≠ .run →
    s.host = .rd offset bytes :: rest →
    ∃ reply, step s = .next { s with host := rest, replies := s.replies ++ [reply] }

/-- R109: the expansion of each of the eight pseudo-instructions, and what it does: a mnemonic runs its command;
`SETCNT i, v` stores the low `WW` bits of `v` in `CNT[i]` and nowhere else (R70); `GETNODE n` sets `NIDX` and returns
the four fields of slot `n`, all zero where `n` is not allocated (R41, R43). -/
def Obligations.PseudoInstructionsRunTheirTransactions : Prop :=
  (commandEvent .buildc = .wr 0x000#32 4 0x00000001#32 ∧ commandEvent .write = .wr 0x000#32 4 0x00000002#32 ∧
    commandEvent .buildt = .wr 0x000#32 4 0x00000003#32 ∧ commandEvent .decsym = .wr 0x000#32 4 0x00000004#32 ∧
    commandEvent .decstr = .wr 0x000#32 4 0x00000005#32 ∧ commandEvent .clear = .wr 0x000#32 4 0x0000000F#32 ∧
    (∀ i v, setCntEvents i v = [.wr (BitVec.ofNat 32 (0x1000 + 4 * i)) 4 v]) ∧
    (∀ n, getNodeEvents n =
      [.wr 0x02C#32 4 n, .rd 0x030#32 4, .rd 0x034#32 4, .rd 0x038#32 4, .rd 0x03C#32 4])) ∧
  (∀ (s : State) (i : Instr), s.mode ≠ .run →
    step (offerEvent (commandEvent i) s) = exec i { s with replies := s.replies ++ [.done] }) ∧
  (∀ (s : State) (i : Nat) (v : Word), Inv s → i < s.cfg.asize →
    ∃ cnt : Memory,
      runSteps 1 { s with host := setCntEvents i v ++ s.host } = .next { s with
        cnt := cnt, replies := s.replies ++ [.done] } ∧
      cnt.read i = v.toNat % 2 ^ s.cfg.ww ∧ ∀ j, j ≠ i → cnt.read j = s.cnt.read j) ∧
  (∀ (s : State) (n : Word), s.mode ≠ .run →
    ∃ sym weight left right : Word,
      runSteps 5 { s with host := getNodeEvents n ++ s.host } = .next { s with
        nidx := n,
        replies := s.replies ++ [.done, .data sym, .data weight, .data left, .data right] } ∧
      (s.nodes.length ≤ n.toNat → sym = 0#32 ∧ weight = 0#32 ∧ left = 0#32 ∧ right = 0#32) ∧
      (∀ nd, s.nodes[n.toNat]? = some nd →
        (s.cfg.wf = true → ∀ sw, 2 ^ (sw - 1) ≤ s.cfg.asize → s.cfg.asize < 2 ^ sw →
          sym = BitVec.ofNat 32 (nd.sym % 2 ^ sw + 2 ^ 31 * nd.symv.toNat)) ∧
        weight = BitVec.ofNat 32 nd.weight ∧
        (nd.left = none → left = 0xFFFFFFFF#32) ∧ (∀ i, nd.left = some i → left = BitVec.ofNat 32 i) ∧
        (nd.right = none → right = 0xFFFFFFFF#32) ∧ (∀ i, nd.right = some i → right = BitVec.ofNat 32 i)))

/-! ## The terms of the statements -/

/-- R45, R103, R129, R136, R5, R8, R95, R96: the terms of the machine that the statements above use say what the rules
say: the leaf test, the child a bit selects, the two kinds of node, a node's weight, `WMAX`, the digits, LF, and
zero-extension to the bus word. -/
def Obligations.NodeAndTextTermsReadAsTheRules : Prop :=
  (∀ nd : Node, isLeaf nd = true ↔ nd.left = none ∧ nd.right = none) ∧
  (∀ nd : Node, child nd false = nd.left ∧ child nd true = nd.right) ∧
  (∀ v w : Nat, leafNode v w = { sym := v, symv := true, weight := w, left := none, right := none }) ∧
  (∀ w a b : Nat, forkNode w a b = { sym := 0, symv := false, weight := w, left := some a, right := some b }) ∧
  (∀ (nodes : List Node) (i : Nat) (nd : Node), nodes[i]? = some nd → weightOf nodes i = nd.weight) ∧
  (∀ c : Config, weightMax c = 2 ^ c.ww - 1) ∧
  (∀ b : Byte, isDigit b = true ↔ 0x30 ≤ b.toNat ∧ b.toNat ≤ 0x39) ∧
  lineFeed = 0x0A#8 ∧
  (∀ n : Nat, (word n).toNat = n % 2 ^ 32)
end

