-- ==== Sys2Proof/Laws/State.lean ====
section
/-! SUPPORT. One lemma per field of each shared update of State, true by unfolding, so that no later proof
unfolds a record update. -/

namespace Sys2Proof.Machine

@[simp] theorem enterFault_mode (c : Cause) (i : Word) (s : State) : (enterFault c i s).mode = .faulted := rfl
@[simp] theorem enterFault_tv (c : Cause) (i : Word) (s : State) : (enterFault c i s).tv = s.tv := rfl
@[simp] theorem enterFault_eos (c : Cause) (i : Word) (s : State) : (enterFault c i s).eos = s.eos := rfl
@[simp] theorem enterFault_src (c : Cause) (i : Word) (s : State) : (enterFault c i s).src = s.src := rfl
@[simp] theorem enterFault_rv (c : Cause) (i : Word) (s : State) : (enterFault c i s).rv = s.rv := rfl
@[simp] theorem enterFault_fcause (c : Cause) (i : Word) (s : State) : (enterFault c i s).fcause = some c := rfl
@[simp] theorem enterFault_finfo (c : Cause) (i : Word) (s : State) : (enterFault c i s).finfo = i := rfl
@[simp] theorem enterFault_root (c : Cause) (i : Word) (s : State) : (enterFault c i s).root = s.root := rfl
@[simp] theorem enterFault_cur (c : Cause) (i : Word) (s : State) : (enterFault c i s).cur = s.cur := rfl
@[simp] theorem enterFault_rsym (c : Cause) (i : Word) (s : State) : (enterFault c i s).rsym = s.rsym := rfl
@[simp] theorem enterFault_nidx (c : Cause) (i : Word) (s : State) : (enterFault c i s).nidx = s.nidx := rfl
@[simp] theorem enterFault_nodes (c : Cause) (i : Word) (s : State) : (enterFault c i s).nodes = s.nodes := rfl
@[simp] theorem enterFault_cnt (c : Cause) (i : Word) (s : State) : (enterFault c i s).cnt = s.cnt := rfl
@[simp] theorem enterFault_pq (c : Cause) (i : Word) (s : State) : (enterFault c i s).pq = s.pq := rfl
@[simp] theorem enterFault_cfg (c : Cause) (i : Word) (s : State) : (enterFault c i s).cfg = s.cfg := rfl
@[simp] theorem enterFault_tabIn (c : Cause) (i : Word) (s : State) : (enterFault c i s).tabIn = s.tabIn := rfl
@[simp] theorem enterFault_tabOut (c : Cause) (i : Word) (s : State) : (enterFault c i s).tabOut = s.tabOut := rfl
@[simp] theorem enterFault_bitIn (c : Cause) (i : Word) (s : State) : (enterFault c i s).bitIn = s.bitIn := rfl
@[simp] theorem enterFault_symOut (c : Cause) (i : Word) (s : State) : (enterFault c i s).symOut = s.symOut := rfl
@[simp] theorem enterFault_host (c : Cause) (i : Word) (s : State) : (enterFault c i s).host = s.host := rfl
@[simp] theorem enterFault_replies (c : Cause) (i : Word) (s : State) : (enterFault c i s).replies = s.replies := rfl

@[simp] theorem clearBlock_mode (s : State) : (clearBlock s).mode = .idle := rfl
@[simp] theorem clearBlock_tv (s : State) : (clearBlock s).tv = false := rfl
@[simp] theorem clearBlock_eos (s : State) : (clearBlock s).eos = false := rfl
@[simp] theorem clearBlock_src (s : State) : (clearBlock s).src = false := rfl
@[simp] theorem clearBlock_rv (s : State) : (clearBlock s).rv = false := rfl
@[simp] theorem clearBlock_fcause (s : State) : (clearBlock s).fcause = none := rfl
@[simp] theorem clearBlock_finfo (s : State) : (clearBlock s).finfo = 0#32 := rfl
@[simp] theorem clearBlock_root (s : State) : (clearBlock s).root = none := rfl
@[simp] theorem clearBlock_cur (s : State) : (clearBlock s).cur = none := rfl
@[simp] theorem clearBlock_rsym (s : State) : (clearBlock s).rsym = 0 := rfl
@[simp] theorem clearBlock_nidx (s : State) : (clearBlock s).nidx = 0#32 := rfl
@[simp] theorem clearBlock_nodes (s : State) : (clearBlock s).nodes = [] := rfl
@[simp] theorem clearBlock_cnt (s : State) : (clearBlock s).cnt = [] := rfl
@[simp] theorem clearBlock_pq (s : State) : (clearBlock s).pq = [] := rfl
@[simp] theorem clearBlock_cfg (s : State) : (clearBlock s).cfg = s.cfg := rfl
@[simp] theorem clearBlock_tabIn (s : State) : (clearBlock s).tabIn = s.tabIn := rfl
@[simp] theorem clearBlock_tabOut (s : State) : (clearBlock s).tabOut = s.tabOut := rfl
@[simp] theorem clearBlock_bitIn (s : State) : (clearBlock s).bitIn = s.bitIn := rfl
@[simp] theorem clearBlock_symOut (s : State) : (clearBlock s).symOut = s.symOut := rfl
@[simp] theorem clearBlock_host (s : State) : (clearBlock s).host = s.host := rfl
@[simp] theorem clearBlock_replies (s : State) : (clearBlock s).replies = s.replies := rfl

@[simp] theorem startBuild_mode (b : Bool) (s : State) : (startBuild b s).mode = s.mode := rfl
@[simp] theorem startBuild_tv (b : Bool) (s : State) : (startBuild b s).tv = false := rfl
@[simp] theorem startBuild_eos (b : Bool) (s : State) : (startBuild b s).eos = false := rfl
@[simp] theorem startBuild_src (b : Bool) (s : State) : (startBuild b s).src = b := rfl
@[simp] theorem startBuild_rv (b : Bool) (s : State) : (startBuild b s).rv = false := rfl
@[simp] theorem startBuild_fcause (b : Bool) (s : State) : (startBuild b s).fcause = s.fcause := rfl
@[simp] theorem startBuild_finfo (b : Bool) (s : State) : (startBuild b s).finfo = s.finfo := rfl
@[simp] theorem startBuild_root (b : Bool) (s : State) : (startBuild b s).root = none := rfl
@[simp] theorem startBuild_cur (b : Bool) (s : State) : (startBuild b s).cur = none := rfl
@[simp] theorem startBuild_rsym (b : Bool) (s : State) : (startBuild b s).rsym = 0 := rfl
@[simp] theorem startBuild_nidx (b : Bool) (s : State) : (startBuild b s).nidx = s.nidx := rfl
@[simp] theorem startBuild_nodes (b : Bool) (s : State) : (startBuild b s).nodes = [] := rfl
@[simp] theorem startBuild_cnt (b : Bool) (s : State) : (startBuild b s).cnt = s.cnt := rfl
@[simp] theorem startBuild_pq (b : Bool) (s : State) : (startBuild b s).pq = [] := rfl
@[simp] theorem startBuild_cfg (b : Bool) (s : State) : (startBuild b s).cfg = s.cfg := rfl
@[simp] theorem startBuild_tabIn (b : Bool) (s : State) : (startBuild b s).tabIn = s.tabIn := rfl
@[simp] theorem startBuild_tabOut (b : Bool) (s : State) : (startBuild b s).tabOut = s.tabOut := rfl
@[simp] theorem startBuild_bitIn (b : Bool) (s : State) : (startBuild b s).bitIn = s.bitIn := rfl
@[simp] theorem startBuild_symOut (b : Bool) (s : State) : (startBuild b s).symOut = s.symOut := rfl
@[simp] theorem startBuild_host (b : Bool) (s : State) : (startBuild b s).host = s.host := rfl
@[simp] theorem startBuild_replies (b : Bool) (s : State) : (startBuild b s).replies = s.replies := rfl

@[simp] theorem setResult_mode (v : Nat) (s : State) : (setResult v s).mode = s.mode := rfl
@[simp] theorem setResult_tv (v : Nat) (s : State) : (setResult v s).tv = s.tv := rfl
@[simp] theorem setResult_eos (v : Nat) (s : State) : (setResult v s).eos = decide (v = s.cfg.asize) := rfl
@[simp] theorem setResult_src (v : Nat) (s : State) : (setResult v s).src = s.src := rfl
@[simp] theorem setResult_rv (v : Nat) (s : State) : (setResult v s).rv = true := rfl
@[simp] theorem setResult_fcause (v : Nat) (s : State) : (setResult v s).fcause = s.fcause := rfl
@[simp] theorem setResult_finfo (v : Nat) (s : State) : (setResult v s).finfo = s.finfo := rfl
@[simp] theorem setResult_root (v : Nat) (s : State) : (setResult v s).root = s.root := rfl
@[simp] theorem setResult_cur (v : Nat) (s : State) : (setResult v s).cur = s.cur := rfl
@[simp] theorem setResult_rsym (v : Nat) (s : State) : (setResult v s).rsym = v := rfl
@[simp] theorem setResult_nidx (v : Nat) (s : State) : (setResult v s).nidx = s.nidx := rfl
@[simp] theorem setResult_nodes (v : Nat) (s : State) : (setResult v s).nodes = s.nodes := rfl
@[simp] theorem setResult_cnt (v : Nat) (s : State) : (setResult v s).cnt = s.cnt := rfl
@[simp] theorem setResult_pq (v : Nat) (s : State) : (setResult v s).pq = s.pq := rfl
@[simp] theorem setResult_cfg (v : Nat) (s : State) : (setResult v s).cfg = s.cfg := rfl
@[simp] theorem setResult_tabIn (v : Nat) (s : State) : (setResult v s).tabIn = s.tabIn := rfl
@[simp] theorem setResult_tabOut (v : Nat) (s : State) : (setResult v s).tabOut = s.tabOut := rfl
@[simp] theorem setResult_bitIn (v : Nat) (s : State) : (setResult v s).bitIn = s.bitIn := rfl
@[simp] theorem setResult_symOut (v : Nat) (s : State) : (setResult v s).symOut = s.symOut := rfl
@[simp] theorem setResult_host (v : Nat) (s : State) : (setResult v s).host = s.host := rfl
@[simp] theorem setResult_replies (v : Nat) (s : State) : (setResult v s).replies = s.replies := rfl

@[simp] theorem setMode_mode (m : Mode) (s : State) : (setMode m s).mode = m := rfl
@[simp] theorem setMode_tv (m : Mode) (s : State) : (setMode m s).tv = s.tv := rfl
@[simp] theorem setMode_eos (m : Mode) (s : State) : (setMode m s).eos = s.eos := rfl
@[simp] theorem setMode_src (m : Mode) (s : State) : (setMode m s).src = s.src := rfl
@[simp] theorem setMode_rv (m : Mode) (s : State) : (setMode m s).rv = s.rv := rfl
@[simp] theorem setMode_fcause (m : Mode) (s : State) : (setMode m s).fcause = s.fcause := rfl
@[simp] theorem setMode_finfo (m : Mode) (s : State) : (setMode m s).finfo = s.finfo := rfl
@[simp] theorem setMode_root (m : Mode) (s : State) : (setMode m s).root = s.root := rfl
@[simp] theorem setMode_cur (m : Mode) (s : State) : (setMode m s).cur = s.cur := rfl
@[simp] theorem setMode_rsym (m : Mode) (s : State) : (setMode m s).rsym = s.rsym := rfl
@[simp] theorem setMode_nidx (m : Mode) (s : State) : (setMode m s).nidx = s.nidx := rfl
@[simp] theorem setMode_nodes (m : Mode) (s : State) : (setMode m s).nodes = s.nodes := rfl
@[simp] theorem setMode_cnt (m : Mode) (s : State) : (setMode m s).cnt = s.cnt := rfl
@[simp] theorem setMode_pq (m : Mode) (s : State) : (setMode m s).pq = s.pq := rfl
@[simp] theorem setMode_cfg (m : Mode) (s : State) : (setMode m s).cfg = s.cfg := rfl
@[simp] theorem setMode_tabIn (m : Mode) (s : State) : (setMode m s).tabIn = s.tabIn := rfl
@[simp] theorem setMode_tabOut (m : Mode) (s : State) : (setMode m s).tabOut = s.tabOut := rfl
@[simp] theorem setMode_bitIn (m : Mode) (s : State) : (setMode m s).bitIn = s.bitIn := rfl
@[simp] theorem setMode_symOut (m : Mode) (s : State) : (setMode m s).symOut = s.symOut := rfl
@[simp] theorem setMode_host (m : Mode) (s : State) : (setMode m s).host = s.host := rfl
@[simp] theorem setMode_replies (m : Mode) (s : State) : (setMode m s).replies = s.replies := rfl

@[simp] theorem setCursor_mode (n : Nat) (b : List Bool) (s : State) : (setCursor n b s).mode = s.mode := rfl
@[simp] theorem setCursor_tv (n : Nat) (b : List Bool) (s : State) : (setCursor n b s).tv = s.tv := rfl
@[simp] theorem setCursor_eos (n : Nat) (b : List Bool) (s : State) : (setCursor n b s).eos = s.eos := rfl
@[simp] theorem setCursor_src (n : Nat) (b : List Bool) (s : State) : (setCursor n b s).src = s.src := rfl
@[simp] theorem setCursor_rv (n : Nat) (b : List Bool) (s : State) : (setCursor n b s).rv = s.rv := rfl
@[simp] theorem setCursor_fcause (n : Nat) (b : List Bool) (s : State) : (setCursor n b s).fcause = s.fcause := rfl
@[simp] theorem setCursor_finfo (n : Nat) (b : List Bool) (s : State) : (setCursor n b s).finfo = s.finfo := rfl
@[simp] theorem setCursor_root (n : Nat) (b : List Bool) (s : State) : (setCursor n b s).root = s.root := rfl
@[simp] theorem setCursor_cur (n : Nat) (b : List Bool) (s : State) : (setCursor n b s).cur = some n := rfl
@[simp] theorem setCursor_rsym (n : Nat) (b : List Bool) (s : State) : (setCursor n b s).rsym = s.rsym := rfl
@[simp] theorem setCursor_nidx (n : Nat) (b : List Bool) (s : State) : (setCursor n b s).nidx = s.nidx := rfl
@[simp] theorem setCursor_nodes (n : Nat) (b : List Bool) (s : State) : (setCursor n b s).nodes = s.nodes := rfl
@[simp] theorem setCursor_cnt (n : Nat) (b : List Bool) (s : State) : (setCursor n b s).cnt = s.cnt := rfl
@[simp] theorem setCursor_pq (n : Nat) (b : List Bool) (s : State) : (setCursor n b s).pq = s.pq := rfl
@[simp] theorem setCursor_cfg (n : Nat) (b : List Bool) (s : State) : (setCursor n b s).cfg = s.cfg := rfl
@[simp] theorem setCursor_tabIn (n : Nat) (b : List Bool) (s : State) : (setCursor n b s).tabIn = s.tabIn := rfl
@[simp] theorem setCursor_tabOut (n : Nat) (b : List Bool) (s : State) : (setCursor n b s).tabOut = s.tabOut := rfl
@[simp] theorem setCursor_bitIn (n : Nat) (b : List Bool) (s : State) : (setCursor n b s).bitIn = b := rfl
@[simp] theorem setCursor_symOut (n : Nat) (b : List Bool) (s : State) : (setCursor n b s).symOut = s.symOut := rfl
@[simp] theorem setCursor_host (n : Nat) (b : List Bool) (s : State) : (setCursor n b s).host = s.host := rfl
@[simp] theorem setCursor_replies (n : Nat) (b : List Bool) (s : State) : (setCursor n b s).replies = s.replies := rfl

@[simp] theorem setTree_mode (v : Bool) (r : Ptr) (ns : List Node) (q : List Nat) (s : State) : (setTree v r ns q s).mode = s.mode := rfl
@[simp] theorem setTree_tv (v : Bool) (r : Ptr) (ns : List Node) (q : List Nat) (s : State) : (setTree v r ns q s).tv = v := rfl
@[simp] theorem setTree_eos (v : Bool) (r : Ptr) (ns : List Node) (q : List Nat) (s : State) : (setTree v r ns q s).eos = s.eos := rfl
@[simp] theorem setTree_src (v : Bool) (r : Ptr) (ns : List Node) (q : List Nat) (s : State) : (setTree v r ns q s).src = s.src := rfl
@[simp] theorem setTree_rv (v : Bool) (r : Ptr) (ns : List Node) (q : List Nat) (s : State) : (setTree v r ns q s).rv = s.rv := rfl
@[simp] theorem setTree_fcause (v : Bool) (r : Ptr) (ns : List Node) (q : List Nat) (s : State) : (setTree v r ns q s).fcause = s.fcause := rfl
@[simp] theorem setTree_finfo (v : Bool) (r : Ptr) (ns : List Node) (q : List Nat) (s : State) : (setTree v r ns q s).finfo = s.finfo := rfl
@[simp] theorem setTree_root (v : Bool) (r : Ptr) (ns : List Node) (q : List Nat) (s : State) : (setTree v r ns q s).root = r := rfl
@[simp] theorem setTree_cur (v : Bool) (r : Ptr) (ns : List Node) (q : List Nat) (s : State) : (setTree v r ns q s).cur = s.cur := rfl
@[simp] theorem setTree_rsym (v : Bool) (r : Ptr) (ns : List Node) (q : List Nat) (s : State) : (setTree v r ns q s).rsym = s.rsym := rfl
@[simp] theorem setTree_nidx (v : Bool) (r : Ptr) (ns : List Node) (q : List Nat) (s : State) : (setTree v r ns q s).nidx = s.nidx := rfl
@[simp] theorem setTree_nodes (v : Bool) (r : Ptr) (ns : List Node) (q : List Nat) (s : State) : (setTree v r ns q s).nodes = ns := rfl
@[simp] theorem setTree_cnt (v : Bool) (r : Ptr) (ns : List Node) (q : List Nat) (s : State) : (setTree v r ns q s).cnt = s.cnt := rfl
@[simp] theorem setTree_pq (v : Bool) (r : Ptr) (ns : List Node) (q : List Nat) (s : State) : (setTree v r ns q s).pq = q := rfl
@[simp] theorem setTree_cfg (v : Bool) (r : Ptr) (ns : List Node) (q : List Nat) (s : State) : (setTree v r ns q s).cfg = s.cfg := rfl
@[simp] theorem setTree_tabIn (v : Bool) (r : Ptr) (ns : List Node) (q : List Nat) (s : State) : (setTree v r ns q s).tabIn = s.tabIn := rfl
@[simp] theorem setTree_tabOut (v : Bool) (r : Ptr) (ns : List Node) (q : List Nat) (s : State) : (setTree v r ns q s).tabOut = s.tabOut := rfl
@[simp] theorem setTree_bitIn (v : Bool) (r : Ptr) (ns : List Node) (q : List Nat) (s : State) : (setTree v r ns q s).bitIn = s.bitIn := rfl
@[simp] theorem setTree_symOut (v : Bool) (r : Ptr) (ns : List Node) (q : List Nat) (s : State) : (setTree v r ns q s).symOut = s.symOut := rfl
@[simp] theorem setTree_host (v : Bool) (r : Ptr) (ns : List Node) (q : List Nat) (s : State) : (setTree v r ns q s).host = s.host := rfl
@[simp] theorem setTree_replies (v : Bool) (r : Ptr) (ns : List Node) (q : List Nat) (s : State) : (setTree v r ns q s).replies = s.replies := rfl

@[simp] theorem setTabIn_mode (bs : List Byte) (s : State) : (setTabIn bs s).mode = s.mode := rfl
@[simp] theorem setTabIn_tv (bs : List Byte) (s : State) : (setTabIn bs s).tv = s.tv := rfl
@[simp] theorem setTabIn_eos (bs : List Byte) (s : State) : (setTabIn bs s).eos = s.eos := rfl
@[simp] theorem setTabIn_src (bs : List Byte) (s : State) : (setTabIn bs s).src = s.src := rfl
@[simp] theorem setTabIn_rv (bs : List Byte) (s : State) : (setTabIn bs s).rv = s.rv := rfl
@[simp] theorem setTabIn_fcause (bs : List Byte) (s : State) : (setTabIn bs s).fcause = s.fcause := rfl
@[simp] theorem setTabIn_finfo (bs : List Byte) (s : State) : (setTabIn bs s).finfo = s.finfo := rfl
@[simp] theorem setTabIn_root (bs : List Byte) (s : State) : (setTabIn bs s).root = s.root := rfl
@[simp] theorem setTabIn_cur (bs : List Byte) (s : State) : (setTabIn bs s).cur = s.cur := rfl
@[simp] theorem setTabIn_rsym (bs : List Byte) (s : State) : (setTabIn bs s).rsym = s.rsym := rfl
@[simp] theorem setTabIn_nidx (bs : List Byte) (s : State) : (setTabIn bs s).nidx = s.nidx := rfl
@[simp] theorem setTabIn_nodes (bs : List Byte) (s : State) : (setTabIn bs s).nodes = s.nodes := rfl
@[simp] theorem setTabIn_cnt (bs : List Byte) (s : State) : (setTabIn bs s).cnt = s.cnt := rfl
@[simp] theorem setTabIn_pq (bs : List Byte) (s : State) : (setTabIn bs s).pq = s.pq := rfl
@[simp] theorem setTabIn_cfg (bs : List Byte) (s : State) : (setTabIn bs s).cfg = s.cfg := rfl
@[simp] theorem setTabIn_tabIn (bs : List Byte) (s : State) : (setTabIn bs s).tabIn = bs := rfl
@[simp] theorem setTabIn_tabOut (bs : List Byte) (s : State) : (setTabIn bs s).tabOut = s.tabOut := rfl
@[simp] theorem setTabIn_bitIn (bs : List Byte) (s : State) : (setTabIn bs s).bitIn = s.bitIn := rfl
@[simp] theorem setTabIn_symOut (bs : List Byte) (s : State) : (setTabIn bs s).symOut = s.symOut := rfl
@[simp] theorem setTabIn_host (bs : List Byte) (s : State) : (setTabIn bs s).host = s.host := rfl
@[simp] theorem setTabIn_replies (bs : List Byte) (s : State) : (setTabIn bs s).replies = s.replies := rfl

@[simp] theorem tabWrite_mode (bs : List Byte) (s : State) : (tabWrite bs s).mode = s.mode := rfl
@[simp] theorem tabWrite_tv (bs : List Byte) (s : State) : (tabWrite bs s).tv = s.tv := rfl
@[simp] theorem tabWrite_eos (bs : List Byte) (s : State) : (tabWrite bs s).eos = s.eos := rfl
@[simp] theorem tabWrite_src (bs : List Byte) (s : State) : (tabWrite bs s).src = s.src := rfl
@[simp] theorem tabWrite_rv (bs : List Byte) (s : State) : (tabWrite bs s).rv = s.rv := rfl
@[simp] theorem tabWrite_fcause (bs : List Byte) (s : State) : (tabWrite bs s).fcause = s.fcause := rfl
@[simp] theorem tabWrite_finfo (bs : List Byte) (s : State) : (tabWrite bs s).finfo = s.finfo := rfl
@[simp] theorem tabWrite_root (bs : List Byte) (s : State) : (tabWrite bs s).root = s.root := rfl
@[simp] theorem tabWrite_cur (bs : List Byte) (s : State) : (tabWrite bs s).cur = s.cur := rfl
@[simp] theorem tabWrite_rsym (bs : List Byte) (s : State) : (tabWrite bs s).rsym = s.rsym := rfl
@[simp] theorem tabWrite_nidx (bs : List Byte) (s : State) : (tabWrite bs s).nidx = s.nidx := rfl
@[simp] theorem tabWrite_nodes (bs : List Byte) (s : State) : (tabWrite bs s).nodes = s.nodes := rfl
@[simp] theorem tabWrite_cnt (bs : List Byte) (s : State) : (tabWrite bs s).cnt = s.cnt := rfl
@[simp] theorem tabWrite_pq (bs : List Byte) (s : State) : (tabWrite bs s).pq = s.pq := rfl
@[simp] theorem tabWrite_cfg (bs : List Byte) (s : State) : (tabWrite bs s).cfg = s.cfg := rfl
@[simp] theorem tabWrite_tabIn (bs : List Byte) (s : State) : (tabWrite bs s).tabIn = s.tabIn := rfl
@[simp] theorem tabWrite_tabOut (bs : List Byte) (s : State) : (tabWrite bs s).tabOut = s.tabOut ++ bs := rfl
@[simp] theorem tabWrite_bitIn (bs : List Byte) (s : State) : (tabWrite bs s).bitIn = s.bitIn := rfl
@[simp] theorem tabWrite_symOut (bs : List Byte) (s : State) : (tabWrite bs s).symOut = s.symOut := rfl
@[simp] theorem tabWrite_host (bs : List Byte) (s : State) : (tabWrite bs s).host = s.host := rfl
@[simp] theorem tabWrite_replies (bs : List Byte) (s : State) : (tabWrite bs s).replies = s.replies := rfl

@[simp] theorem symWrite_mode (v : Nat) (s : State) : (symWrite v s).mode = s.mode := rfl
@[simp] theorem symWrite_tv (v : Nat) (s : State) : (symWrite v s).tv = s.tv := rfl
@[simp] theorem symWrite_eos (v : Nat) (s : State) : (symWrite v s).eos = s.eos := rfl
@[simp] theorem symWrite_src (v : Nat) (s : State) : (symWrite v s).src = s.src := rfl
@[simp] theorem symWrite_rv (v : Nat) (s : State) : (symWrite v s).rv = s.rv := rfl
@[simp] theorem symWrite_fcause (v : Nat) (s : State) : (symWrite v s).fcause = s.fcause := rfl
@[simp] theorem symWrite_finfo (v : Nat) (s : State) : (symWrite v s).finfo = s.finfo := rfl
@[simp] theorem symWrite_root (v : Nat) (s : State) : (symWrite v s).root = s.root := rfl
@[simp] theorem symWrite_cur (v : Nat) (s : State) : (symWrite v s).cur = s.cur := rfl
@[simp] theorem symWrite_rsym (v : Nat) (s : State) : (symWrite v s).rsym = s.rsym := rfl
@[simp] theorem symWrite_nidx (v : Nat) (s : State) : (symWrite v s).nidx = s.nidx := rfl
@[simp] theorem symWrite_nodes (v : Nat) (s : State) : (symWrite v s).nodes = s.nodes := rfl
@[simp] theorem symWrite_cnt (v : Nat) (s : State) : (symWrite v s).cnt = s.cnt := rfl
@[simp] theorem symWrite_pq (v : Nat) (s : State) : (symWrite v s).pq = s.pq := rfl
@[simp] theorem symWrite_cfg (v : Nat) (s : State) : (symWrite v s).cfg = s.cfg := rfl
@[simp] theorem symWrite_tabIn (v : Nat) (s : State) : (symWrite v s).tabIn = s.tabIn := rfl
@[simp] theorem symWrite_tabOut (v : Nat) (s : State) : (symWrite v s).tabOut = s.tabOut := rfl
@[simp] theorem symWrite_bitIn (v : Nat) (s : State) : (symWrite v s).bitIn = s.bitIn := rfl
@[simp] theorem symWrite_symOut (v : Nat) (s : State) : (symWrite v s).symOut = s.symOut ++ [v] := rfl
@[simp] theorem symWrite_host (v : Nat) (s : State) : (symWrite v s).host = s.host := rfl
@[simp] theorem symWrite_replies (v : Nat) (s : State) : (symWrite v s).replies = s.replies := rfl

@[simp] theorem answer_mode (r : Reply) (s : State) : (answer r s).mode = s.mode := rfl
@[simp] theorem answer_tv (r : Reply) (s : State) : (answer r s).tv = s.tv := rfl
@[simp] theorem answer_eos (r : Reply) (s : State) : (answer r s).eos = s.eos := rfl
@[simp] theorem answer_src (r : Reply) (s : State) : (answer r s).src = s.src := rfl
@[simp] theorem answer_rv (r : Reply) (s : State) : (answer r s).rv = s.rv := rfl
@[simp] theorem answer_fcause (r : Reply) (s : State) : (answer r s).fcause = s.fcause := rfl
@[simp] theorem answer_finfo (r : Reply) (s : State) : (answer r s).finfo = s.finfo := rfl
@[simp] theorem answer_root (r : Reply) (s : State) : (answer r s).root = s.root := rfl
@[simp] theorem answer_cur (r : Reply) (s : State) : (answer r s).cur = s.cur := rfl
@[simp] theorem answer_rsym (r : Reply) (s : State) : (answer r s).rsym = s.rsym := rfl
@[simp] theorem answer_nidx (r : Reply) (s : State) : (answer r s).nidx = s.nidx := rfl
@[simp] theorem answer_nodes (r : Reply) (s : State) : (answer r s).nodes = s.nodes := rfl
@[simp] theorem answer_cnt (r : Reply) (s : State) : (answer r s).cnt = s.cnt := rfl
@[simp] theorem answer_pq (r : Reply) (s : State) : (answer r s).pq = s.pq := rfl
@[simp] theorem answer_cfg (r : Reply) (s : State) : (answer r s).cfg = s.cfg := rfl
@[simp] theorem answer_tabIn (r : Reply) (s : State) : (answer r s).tabIn = s.tabIn := rfl
@[simp] theorem answer_tabOut (r : Reply) (s : State) : (answer r s).tabOut = s.tabOut := rfl
@[simp] theorem answer_bitIn (r : Reply) (s : State) : (answer r s).bitIn = s.bitIn := rfl
@[simp] theorem answer_symOut (r : Reply) (s : State) : (answer r s).symOut = s.symOut := rfl
@[simp] theorem answer_host (r : Reply) (s : State) : (answer r s).host = s.host := rfl
@[simp] theorem answer_replies (r : Reply) (s : State) : (answer r s).replies = s.replies ++ [r] := rfl

@[simp] theorem setNidx_mode (v : Word) (s : State) : (setNidx v s).mode = s.mode := rfl
@[simp] theorem setNidx_tv (v : Word) (s : State) : (setNidx v s).tv = s.tv := rfl
@[simp] theorem setNidx_eos (v : Word) (s : State) : (setNidx v s).eos = s.eos := rfl
@[simp] theorem setNidx_src (v : Word) (s : State) : (setNidx v s).src = s.src := rfl
@[simp] theorem setNidx_rv (v : Word) (s : State) : (setNidx v s).rv = s.rv := rfl
@[simp] theorem setNidx_fcause (v : Word) (s : State) : (setNidx v s).fcause = s.fcause := rfl
@[simp] theorem setNidx_finfo (v : Word) (s : State) : (setNidx v s).finfo = s.finfo := rfl
@[simp] theorem setNidx_root (v : Word) (s : State) : (setNidx v s).root = s.root := rfl
@[simp] theorem setNidx_cur (v : Word) (s : State) : (setNidx v s).cur = s.cur := rfl
@[simp] theorem setNidx_rsym (v : Word) (s : State) : (setNidx v s).rsym = s.rsym := rfl
@[simp] theorem setNidx_nidx (v : Word) (s : State) : (setNidx v s).nidx = v := rfl
@[simp] theorem setNidx_nodes (v : Word) (s : State) : (setNidx v s).nodes = s.nodes := rfl
@[simp] theorem setNidx_cnt (v : Word) (s : State) : (setNidx v s).cnt = s.cnt := rfl
@[simp] theorem setNidx_pq (v : Word) (s : State) : (setNidx v s).pq = s.pq := rfl
@[simp] theorem setNidx_cfg (v : Word) (s : State) : (setNidx v s).cfg = s.cfg := rfl
@[simp] theorem setNidx_tabIn (v : Word) (s : State) : (setNidx v s).tabIn = s.tabIn := rfl
@[simp] theorem setNidx_tabOut (v : Word) (s : State) : (setNidx v s).tabOut = s.tabOut := rfl
@[simp] theorem setNidx_bitIn (v : Word) (s : State) : (setNidx v s).bitIn = s.bitIn := rfl
@[simp] theorem setNidx_symOut (v : Word) (s : State) : (setNidx v s).symOut = s.symOut := rfl
@[simp] theorem setNidx_host (v : Word) (s : State) : (setNidx v s).host = s.host := rfl
@[simp] theorem setNidx_replies (v : Word) (s : State) : (setNidx v s).replies = s.replies := rfl

@[simp] theorem setCount_mode (i v : Nat) (s : State) : (setCount i v s).mode = s.mode := rfl
@[simp] theorem setCount_tv (i v : Nat) (s : State) : (setCount i v s).tv = s.tv := rfl
@[simp] theorem setCount_eos (i v : Nat) (s : State) : (setCount i v s).eos = s.eos := rfl
@[simp] theorem setCount_src (i v : Nat) (s : State) : (setCount i v s).src = s.src := rfl
@[simp] theorem setCount_rv (i v : Nat) (s : State) : (setCount i v s).rv = s.rv := rfl
@[simp] theorem setCount_fcause (i v : Nat) (s : State) : (setCount i v s).fcause = s.fcause := rfl
@[simp] theorem setCount_finfo (i v : Nat) (s : State) : (setCount i v s).finfo = s.finfo := rfl
@[simp] theorem setCount_root (i v : Nat) (s : State) : (setCount i v s).root = s.root := rfl
@[simp] theorem setCount_cur (i v : Nat) (s : State) : (setCount i v s).cur = s.cur := rfl
@[simp] theorem setCount_rsym (i v : Nat) (s : State) : (setCount i v s).rsym = s.rsym := rfl
@[simp] theorem setCount_nidx (i v : Nat) (s : State) : (setCount i v s).nidx = s.nidx := rfl
@[simp] theorem setCount_nodes (i v : Nat) (s : State) : (setCount i v s).nodes = s.nodes := rfl
@[simp] theorem setCount_cnt (i v : Nat) (s : State) : (setCount i v s).cnt = s.cnt.write i v := rfl
@[simp] theorem setCount_pq (i v : Nat) (s : State) : (setCount i v s).pq = s.pq := rfl
@[simp] theorem setCount_cfg (i v : Nat) (s : State) : (setCount i v s).cfg = s.cfg := rfl
@[simp] theorem setCount_tabIn (i v : Nat) (s : State) : (setCount i v s).tabIn = s.tabIn := rfl
@[simp] theorem setCount_tabOut (i v : Nat) (s : State) : (setCount i v s).tabOut = s.tabOut := rfl
@[simp] theorem setCount_bitIn (i v : Nat) (s : State) : (setCount i v s).bitIn = s.bitIn := rfl
@[simp] theorem setCount_symOut (i v : Nat) (s : State) : (setCount i v s).symOut = s.symOut := rfl
@[simp] theorem setCount_host (i v : Nat) (s : State) : (setCount i v s).host = s.host := rfl
@[simp] theorem setCount_replies (i v : Nat) (s : State) : (setCount i v s).replies = s.replies := rfl

@[simp] theorem setHost_mode (es : List HostEvent) (s : State) : (setHost es s).mode = s.mode := rfl
@[simp] theorem setHost_tv (es : List HostEvent) (s : State) : (setHost es s).tv = s.tv := rfl
@[simp] theorem setHost_eos (es : List HostEvent) (s : State) : (setHost es s).eos = s.eos := rfl
@[simp] theorem setHost_src (es : List HostEvent) (s : State) : (setHost es s).src = s.src := rfl
@[simp] theorem setHost_rv (es : List HostEvent) (s : State) : (setHost es s).rv = s.rv := rfl
@[simp] theorem setHost_fcause (es : List HostEvent) (s : State) : (setHost es s).fcause = s.fcause := rfl
@[simp] theorem setHost_finfo (es : List HostEvent) (s : State) : (setHost es s).finfo = s.finfo := rfl
@[simp] theorem setHost_root (es : List HostEvent) (s : State) : (setHost es s).root = s.root := rfl
@[simp] theorem setHost_cur (es : List HostEvent) (s : State) : (setHost es s).cur = s.cur := rfl
@[simp] theorem setHost_rsym (es : List HostEvent) (s : State) : (setHost es s).rsym = s.rsym := rfl
@[simp] theorem setHost_nidx (es : List HostEvent) (s : State) : (setHost es s).nidx = s.nidx := rfl
@[simp] theorem setHost_nodes (es : List HostEvent) (s : State) : (setHost es s).nodes = s.nodes := rfl
@[simp] theorem setHost_cnt (es : List HostEvent) (s : State) : (setHost es s).cnt = s.cnt := rfl
@[simp] theorem setHost_pq (es : List HostEvent) (s : State) : (setHost es s).pq = s.pq := rfl
@[simp] theorem setHost_cfg (es : List HostEvent) (s : State) : (setHost es s).cfg = s.cfg := rfl
@[simp] theorem setHost_tabIn (es : List HostEvent) (s : State) : (setHost es s).tabIn = s.tabIn := rfl
@[simp] theorem setHost_tabOut (es : List HostEvent) (s : State) : (setHost es s).tabOut = s.tabOut := rfl
@[simp] theorem setHost_bitIn (es : List HostEvent) (s : State) : (setHost es s).bitIn = s.bitIn := rfl
@[simp] theorem setHost_symOut (es : List HostEvent) (s : State) : (setHost es s).symOut = s.symOut := rfl
@[simp] theorem setHost_host (es : List HostEvent) (s : State) : (setHost es s).host = es := rfl
@[simp] theorem setHost_replies (es : List HostEvent) (s : State) : (setHost es s).replies = s.replies := rfl

@[simp] theorem offerEvent_mode (e : HostEvent) (s : State) : (offerEvent e s).mode = s.mode := rfl
@[simp] theorem offerEvent_tv (e : HostEvent) (s : State) : (offerEvent e s).tv = s.tv := rfl
@[simp] theorem offerEvent_eos (e : HostEvent) (s : State) : (offerEvent e s).eos = s.eos := rfl
@[simp] theorem offerEvent_src (e : HostEvent) (s : State) : (offerEvent e s).src = s.src := rfl
@[simp] theorem offerEvent_rv (e : HostEvent) (s : State) : (offerEvent e s).rv = s.rv := rfl
@[simp] theorem offerEvent_fcause (e : HostEvent) (s : State) : (offerEvent e s).fcause = s.fcause := rfl
@[simp] theorem offerEvent_finfo (e : HostEvent) (s : State) : (offerEvent e s).finfo = s.finfo := rfl
@[simp] theorem offerEvent_root (e : HostEvent) (s : State) : (offerEvent e s).root = s.root := rfl
@[simp] theorem offerEvent_cur (e : HostEvent) (s : State) : (offerEvent e s).cur = s.cur := rfl
@[simp] theorem offerEvent_rsym (e : HostEvent) (s : State) : (offerEvent e s).rsym = s.rsym := rfl
@[simp] theorem offerEvent_nidx (e : HostEvent) (s : State) : (offerEvent e s).nidx = s.nidx := rfl
@[simp] theorem offerEvent_nodes (e : HostEvent) (s : State) : (offerEvent e s).nodes = s.nodes := rfl
@[simp] theorem offerEvent_cnt (e : HostEvent) (s : State) : (offerEvent e s).cnt = s.cnt := rfl
@[simp] theorem offerEvent_pq (e : HostEvent) (s : State) : (offerEvent e s).pq = s.pq := rfl
@[simp] theorem offerEvent_cfg (e : HostEvent) (s : State) : (offerEvent e s).cfg = s.cfg := rfl
@[simp] theorem offerEvent_tabIn (e : HostEvent) (s : State) : (offerEvent e s).tabIn = s.tabIn := rfl
@[simp] theorem offerEvent_tabOut (e : HostEvent) (s : State) : (offerEvent e s).tabOut = s.tabOut := rfl
@[simp] theorem offerEvent_bitIn (e : HostEvent) (s : State) : (offerEvent e s).bitIn = s.bitIn := rfl
@[simp] theorem offerEvent_symOut (e : HostEvent) (s : State) : (offerEvent e s).symOut = s.symOut := rfl
@[simp] theorem offerEvent_host (e : HostEvent) (s : State) : (offerEvent e s).host = e :: s.host := rfl
@[simp] theorem offerEvent_replies (e : HostEvent) (s : State) : (offerEvent e s).replies = s.replies := rfl

end Sys2Proof.Machine
end

