-- ==== Sys2Proof/Laws/Run.lean ====
section
/-! SUPPORT. What running a command, a transaction and a step can do: each operation said once. -/

namespace Sys2Proof.Machine

/-- Everything an accepted-in-`IDLE` command can do when it answers a next state: ignored in `FAULTED`,
completed in `IDLE`, or faulted. -/
theorem runCommand_next {body : State → Flow} {s t : State} (h : runCommand body s = .next t) :
    (s.mode = .faulted ∧ t = s) ∨
    (s.mode = .idle ∧ ∃ u, body (setMode .run s) = .done u ∧ t = setMode .idle u) ∨
    (s.mode = .idle ∧ body (setMode .run s) = .raised t) := by
  unfold runCommand at h
  split at h
  · cases h
  · exact .inl ⟨‹_›, by cases h; rfl⟩
  · split at h
    · exact .inr (.inl ⟨‹_›, _, ‹_›, by cases h; rfl⟩)
    · exact .inr (.inr ⟨‹_›, by cases h; assumption⟩)
    · cases h

theorem runCommand_done {body : State → Flow} {s u : State} (hm : s.mode = .idle)
    (h : body (setMode .run s) = .done u) :
    runCommand body s = .next (setMode .idle u) := by
  simp [runCommand, hm, h]

theorem runCommand_raised {body : State → Flow} {s u : State} (hm : s.mode = .idle)
    (h : body (setMode .run s) = .raised u) : runCommand body s = .next u := by
  simp [runCommand, hm, h]

theorem runCommand_faulted {body : State → Flow} {s : State} (hm : s.mode = .faulted) :
    runCommand body s = .next s := by
  simp [runCommand, hm]

/-- `Flow.andThen` completes exactly when both parts do. -/
theorem Flow.andThen_done {f : Flow} {k : State → Flow} {t : State} :
    f.andThen k = .done t ↔ ∃ u, f = .done u ∧ k u = .done t := by
  cases f <;> simp [Flow.andThen]

/-- `Flow.andThen` raises when either part does. -/
theorem Flow.andThen_raised {f : Flow} {k : State → Flow} {t : State} :
    f.andThen k = .raised t ↔ f = .raised t ∨ ∃ u, f = .done u ∧ k u = .raised t := by
  cases f <;> simp [Flow.andThen]

@[simp] theorem Flow.done_andThen (s : State) (k : State → Flow) : (Flow.done s).andThen k = k s := rfl
@[simp] theorem Flow.raised_andThen (s : State) (k : State → Flow) :
    (Flow.raised s).andThen k = .raised s := rfl

@[simp] theorem raise_eq (c : Cause) (i : Word) (s : State) : raise c i s = .raised (enterFault c i s) := rfl

theorem step_nil {s : State} (h : s.host = []) : step s = .next s := by simp [step, nextEvent, h]

theorem step_cons {s : State} {e : HostEvent} {rest : List HostEvent} (h : s.host = e :: rest) :
    step s = transact e (setHost rest s) := by simp [step, nextEvent, h]

theorem transact_of_not_run {e : HostEvent} {s : State} (h : s.mode ≠ .run) : transact e s = serve e s := by
  unfold transact
  split <;> simp_all

theorem transact_of_run {e : HostEvent} {s : State} (h : s.mode = .run) :
    transact e s = .fault .busStalled := by simp [transact, h]

/-- Everything a transaction can do: reset, a read or a bus error that only answers, a store to `NIDX` or a
count, a write that is ignored, a command, or an illegal word. -/
theorem serve_cases (e : HostEvent) (s : State) :
    (e = .reset ∧ serve e s = .next (clearBlock s)) ∨
    (∃ r, serve e s = .next (answer r s)) ∨
    (∃ v, serve e s = .next (setNidx v (answer .done s))) ∨
    (∃ i v, i < s.cfg.asize ∧
      serve e s = .next (setCount i (narrowCount s.cfg v) (answer .done s))) ∨
    (∃ w, e = .wr 0x000#32 4 w ∧ serve e s = writeCmd w (answer .done s)) := by
  cases e with
  | reset => exact .inl ⟨rfl, rfl⟩
  | rd o b =>
    refine .inr (.inl ?_)
    simp only [serve]
    split <;> exact ⟨_, rfl⟩
  | wr o b v =>
    simp only [serve]
    split
    · exact .inr (.inl ⟨_, rfl⟩)
    · rename_i l hl
      have hreg : ∀ r, l = .reg r → b = 4 ∧ regOffset r = o := by
        rintro r rfl
        unfold locate at hl
        split at hl
        · cases hl
        · rename_i hb
          split at hl
          · rename_i r' hf
            cases hl
            have := List.find?_some hf
            simp at this
            exact ⟨by omega, this⟩
          · split at hl <;> cases hl
      have hcnt : ∀ i, l = .count i → i < s.cfg.asize := by
        rintro i rfl
        unfold locate at hl
        split at hl
        · cases hl
        · split at hl
          · cases hl
          · split at hl
            · rename_i hr
              cases hl
              unfold countBase at hr ⊢
              omega
            · cases hl
      cases l with
      | count i => exact .inr (.inr (.inr (.inl ⟨i, v, hcnt i rfl, rfl⟩)))
      | reg r =>
        obtain ⟨rfl, rfl⟩ := hreg r rfl
        cases r
        case cmd => exact .inr (.inr (.inr (.inr ⟨v, rfl, rfl⟩)))
        case nidx => exact .inr (.inr (.inl ⟨v, rfl⟩))
        all_goals exact .inr (.inl ⟨_, rfl⟩)

/-- Each register is found at its offset (R66). -/
theorem locate_reg (c : Config) (r : Reg) : locate c (regOffset r) 4 = some (.reg r) := by
  cases r <;> rfl

/-- A step whose event reads a register returns its value and changes nothing else (R69, R245). -/
theorem step_read {s : State} {rest : List HostEvent} (r : Reg) (hm : s.mode ≠ .run)
    (hh : s.host = .rd (regOffset r) 4 :: rest) :
    step s = .next { s with host := rest, replies := s.replies ++ [.data (readReg r s)] } := by
  rw [step_cons hh, transact_of_not_run (s := setHost rest s) hm]
  simp only [serve, locate_reg]
  cases r <;> rfl

/-- A step whose event writes `CMD` decodes the word (R240). -/
theorem step_cmd {s : State} {rest : List HostEvent} {w : Word} (hm : s.mode ≠ .run)
    (hh : s.host = .wr 0x000#32 4 w :: rest) :
    step s = writeCmd w { s with host := rest, replies := s.replies ++ [.done] } := by
  rw [step_cons hh, transact_of_not_run (s := setHost rest s) hm]
  rfl

/-- A step whose event writes `NIDX` stores it (R41, R245). -/
theorem step_nidx {s : State} {rest : List HostEvent} {v : Word} (hm : s.mode ≠ .run)
    (hh : s.host = .wr 0x02C#32 4 v :: rest) :
    step s = .next { s with host := rest, replies := s.replies ++ [.done], nidx := v } := by
  rw [step_cons hh, transact_of_not_run (s := setHost rest s) hm]
  rfl

end Sys2Proof.Machine
end

