-- ==== Sys2Proof/Laws/Decoder.lean ====
section
/-! SUPPORT. The walk of the decoder against the paths of the tree, and everything a decoded symbol and the
stream loop can do. -/

namespace Sys2Proof.Machine

theorem isLeaf_iff {nd : Node} : isLeaf nd = true ↔ nd.left = none ∧ nd.right = none := by
  simp [isLeaf, Option.isNone_iff_eq_none]

/-- A leaf has no child. -/
theorem child_of_isLeaf {nd : Node} (h : isLeaf nd = true) (b : Bool) : child nd b = none := by
  obtain ⟨hl, hr⟩ := isLeaf_iff.1 h
  cases b <;> simp [child, hl, hr]

/-- A node with a child is no leaf. -/
theorem isLeaf_of_child {nd : Node} {b : Bool} {c : Nat} (h : child nd b = some c) : isLeaf nd = false := by
  by_contra hc
  rw [child_of_isLeaf (by simpa using hc)] at h
  cases h

theorem follow_append {nodes : List Node} {n m : Nat} {p q : List Bool} (h : follow nodes n p = some m) :
    follow nodes n (p ++ q) = follow nodes m q := by
  induction p generalizing n with
  | nil => cases h; rfl
  | cons b p ih =>
    simp only [follow, List.cons_append] at h ⊢
    cases hn : nodes[n]? with
    | none => rw [hn] at h; cases h
    | some nd =>
      simp only [hn] at h ⊢
      cases hc : child nd b with
      | none => rw [hc] at h; cases h
      | some c => rw [hc] at h; exact ih h

/-- Along a path of the tree the walk takes exactly the bits of the path (R212). -/
theorem walk_append {nodes : List Node} {n m : Nat} {p bits : List Bool} (h : follow nodes n p = some m) :
    walk nodes n (p ++ bits) = walk nodes m bits := by
  induction p generalizing n with
  | nil => cases h; rfl
  | cons b p ih =>
    simp only [follow] at h
    cases hn : nodes[n]? with
    | none => rw [hn] at h; cases h
    | some nd =>
      simp only [hn] at h
      cases hc : child nd b with
      | none => rw [hc] at h; cases h
      | some c =>
        rw [hc] at h
        simp only [List.cons_append, walk, hn, isLeaf_of_child hc, hc]
        exact ih h

theorem walk_leaf {nodes : List Node} {n : Nat} {nd : Node} (hn : nodes[n]? = some nd)
    (hl : isLeaf nd = true) (bits : List Bool) : walk nodes n bits = .leaf n nd.sym bits := by
  cases bits <;> simp [walk, hn, hl]

theorem walk_truncated {nodes : List Node} {n : Nat} {nd : Node} (hn : nodes[n]? = some nd)
    (hl : isLeaf nd = false) : walk nodes n [] = .truncated n := by
  simp [walk, hn, hl]

theorem walk_missing {nodes : List Node} {n : Nat} {nd : Node} (hn : nodes[n]? = some nd)
    (hl : isLeaf nd = false) {b : Bool} (hb : child nd b = none) (bits : List Bool) :
    walk nodes n (b :: bits) = .missing n bits := by
  simp [walk, hn, hl, hb]

/-- Everything a walk can do. -/
theorem walk_cases (nodes : List Node) (n : Nat) (bits : List Bool) :
    (∃ p rest m nd, bits = p ++ rest ∧ follow nodes n p = some m ∧ nodes[m]? = some nd ∧
      isLeaf nd = true ∧ walk nodes n bits = .leaf m nd.sym rest) ∨
    (∃ m nd, follow nodes n bits = some m ∧ nodes[m]? = some nd ∧ isLeaf nd = false ∧
      walk nodes n bits = .truncated m) ∨
    (∃ p b rest m nd, bits = p ++ b :: rest ∧ follow nodes n p = some m ∧ nodes[m]? = some nd ∧
      isLeaf nd = false ∧ child nd b = none ∧ walk nodes n bits = .missing m rest) ∨
    (∃ p m, p <+: bits ∧ follow nodes n p = some m ∧ nodes[m]? = none ∧
      walk nodes n bits = .dangling) := by
  induction bits generalizing n with
  | nil =>
    cases hn : nodes[n]? with
    | none => exact .inr (.inr (.inr ⟨[], n, List.nil_prefix, rfl, hn, by simp [walk, hn]⟩))
    | some nd =>
      cases hl : isLeaf nd with
      | true => exact .inl ⟨[], [], n, nd, rfl, rfl, hn, hl, walk_leaf hn hl _⟩
      | false => exact .inr (.inl ⟨n, nd, rfl, hn, hl, walk_truncated hn hl⟩)
  | cons b bits ih =>
    cases hn : nodes[n]? with
    | none => exact .inr (.inr (.inr ⟨[], n, List.nil_prefix, rfl, hn, by simp [walk, hn]⟩))
    | some nd =>
      cases hl : isLeaf nd with
      | true => exact .inl ⟨[], b :: bits, n, nd, rfl, rfl, hn, hl, walk_leaf hn hl _⟩
      | false =>
        cases hc : child nd b with
        | none =>
          exact .inr (.inr (.inl ⟨[], b, bits, n, nd, rfl, rfl, hn, hl, hc, walk_missing hn hl hc _⟩))
        | some c =>
          have hw : walk nodes n (b :: bits) = walk nodes c bits := by simp [walk, hn, hl, hc]
          have hf : ∀ p, follow nodes n (b :: p) = follow nodes c p := fun p => by simp [follow, hn, hc]
          rw [hw]
          rcases ih c with ⟨p, rest, m, nd', rfl, h⟩ | ⟨m, nd', h⟩ | ⟨p, b', rest, m, nd', rfl, h⟩ |
            ⟨p, m, hp, h⟩
          · exact .inl ⟨b :: p, rest, m, nd', rfl, by rw [hf]; exact h⟩
          · exact .inr (.inl ⟨m, nd', by rw [hf]; exact h⟩)
          · exact .inr (.inr (.inl ⟨b :: p, b', rest, m, nd', rfl, by rw [hf]; exact h⟩))
          · exact .inr (.inr (.inr ⟨b :: p, m, by simpa using hp, by rw [hf]; exact h⟩))

/-! ## One symbol -/

/-- A symbol decoded along a path to a leaf (R210, R213). -/
theorem decodeSymbol_leaf {s : State} {r n : Nat} {nd : Node} {p rest : List Bool}
    (hr : s.root = some r) (hf : follow s.nodes r p = some n) (hn : s.nodes[n]? = some nd)
    (hl : isLeaf nd = true) (hb : s.bitIn = p ++ rest) :
    decodeSymbol s = .done (setResult nd.sym (setCursor n rest s)) := by
  simp [decodeSymbol, hr, hb, walk_append hf, walk_leaf hn hl]

theorem decodeSymbol_truncated {s : State} {r n : Nat} {nd : Node}
    (hr : s.root = some r) (hf : follow s.nodes r s.bitIn = some n) (hn : s.nodes[n]? = some nd)
    (hl : isLeaf nd = false) :
    decodeSymbol s =
      .raised (enterFault .truncatedStream (word n) (setCursor n [] s)) := by
  have := walk_append (bits := []) hf
  rw [List.append_nil] at this
  simp [decodeSymbol, hr, this, walk_truncated hn hl]

theorem decodeSymbol_missing {s : State} {r n : Nat} {nd : Node} {p rest : List Bool} {b : Bool}
    (hr : s.root = some r) (hf : follow s.nodes r p = some n) (hn : s.nodes[n]? = some nd)
    (hl : isLeaf nd = false) (hc : child nd b = none) (hb : s.bitIn = p ++ b :: rest) :
    decodeSymbol s =
      .raised (enterFault .missingChild (word n) (setCursor n rest s)) := by
  simp [decodeSymbol, hr, hb, walk_append hf, walk_missing hn hl hc]

/-- Everything decoding one symbol can do. -/
theorem decodeSymbol_cases (s : State) :
    (∃ r p rest n nd, s.root = some r ∧ s.bitIn = p ++ rest ∧ follow s.nodes r p = some n ∧
      s.nodes[n]? = some nd ∧ isLeaf nd = true ∧
      decodeSymbol s = .done (setResult nd.sym (setCursor n rest s))) ∨
    (∃ r n nd, s.root = some r ∧ follow s.nodes r s.bitIn = some n ∧ s.nodes[n]? = some nd ∧
      isLeaf nd = false ∧ decodeSymbol s =
        .raised (enterFault .truncatedStream (word n) (setCursor n [] s))) ∨
    (∃ r p b rest n nd, s.root = some r ∧ s.bitIn = p ++ b :: rest ∧ follow s.nodes r p = some n ∧
      s.nodes[n]? = some nd ∧ isLeaf nd = false ∧ child nd b = none ∧ decodeSymbol s =
        .raised (enterFault .missingChild (word n) (setCursor n rest s))) ∨
    ((s.root = none ∨ ∃ r p m, s.root = some r ∧ follow s.nodes r p = some m ∧ s.nodes[m]? = none) ∧
      decodeSymbol s = .stuck .danglingPointer) := by
  rcases Option.eq_none_or_eq_some s.root with hr | ⟨r, hr⟩
  · exact .inr (.inr (.inr ⟨.inl hr, by simp [decodeSymbol, hr]⟩))
  · rcases walk_cases s.nodes r s.bitIn with ⟨p, rest, m, nd, hb, hf, hn, hl, -⟩ | ⟨m, nd, hf, hn, hl, -⟩ |
      ⟨p, b, rest, m, nd, hb, hf, hn, hl, hc, -⟩ | ⟨p, m, -, hf, hn, hw⟩
    · exact .inl ⟨r, p, rest, m, nd, hr, hb, hf, hn, hl, decodeSymbol_leaf hr hf hn hl hb⟩
    · exact .inr (.inl ⟨r, m, nd, hr, hf, hn, hl, decodeSymbol_truncated hr hf hn hl⟩)
    · exact .inr (.inr (.inl ⟨r, p, b, rest, m, nd, hr, hb, hf, hn, hl, hc,
        decodeSymbol_missing hr hf hn hl hc hb⟩))
    · exact .inr (.inr (.inr ⟨.inr ⟨r, p, m, hr, hf, hn⟩, by simp [decodeSymbol, hr, hw]⟩))

/-- With a tree `DECSYM` decodes one symbol (R210). -/
theorem decsymBody_of_tree {s : State} (ht : s.tv = true) : decsymBody s = decodeSymbol s := by
  simp [decsymBody, ht]

/-- With a tree whose root passes the pre-check `DECSTR` runs its loop (R215). -/
theorem decstrBody_of_tree {s : State} {r : Nat} (ht : s.tv = true) (hr : s.root = some r)
    (hz : zeroLengthRoot s r = false) : decstrBody s = decodeLoop (s.bitIn.length + 1) s := by
  simp [decstrBody, ht, hr, hz]

/-- On a one-node tree without the sentinel `DECSTR` raises `ZERO_LENGTH_LOOP` (R219). -/
theorem decstrBody_zeroLength {s : State} {r : Nat} (ht : s.tv = true) (hr : s.root = some r)
    (hz : zeroLengthRoot s r = true) :
    decstrBody s = .raised (enterFault .zeroLengthLoop (word r) s) := by
  simp [decstrBody, ht, hr, hz]

/-! ## The frame of the decoders -/

/-- What a decoder may have changed between two states (R222): `CUR`, the result registers, the fault
registers, `MODE`, `SO`, and bits taken from the front of `BI`; the sentinel is never written to `SO`. -/
def DecodeFrame (s t : State) : Prop :=
  t = { s with
    cur := t.cur, rsym := t.rsym, rv := t.rv, eos := t.eos, mode := t.mode,
    fcause := t.fcause, finfo := t.finfo, bitIn := t.bitIn, symOut := t.symOut } ∧
  (∃ taken, s.bitIn = taken ++ t.bitIn) ∧
  ∃ written, t.symOut = s.symOut ++ written ∧ s.cfg.asize ∉ written

theorem DecodeFrame.refl (s : State) : DecodeFrame s s := ⟨rfl, ⟨[], rfl⟩, [], by simp, by simp⟩

theorem DecodeFrame.trans {s t u : State} (h : DecodeFrame s t) (k : DecodeFrame t u) : DecodeFrame s u := by
  obtain ⟨h1, ⟨x, hx⟩, w, hw, hn⟩ := h
  obtain ⟨k1, ⟨y, hy⟩, z, hz, kn⟩ := k
  refine ⟨?_, ⟨x ++ y, by rw [hx, hy, List.append_assoc]⟩, w ++ z, by rw [hz, hw, List.append_assoc], ?_⟩
  · rw [h1] at k1; exact k1
  · have : t.cfg = s.cfg := by rw [h1]
    rw [this] at kn
    simp [hn, kn]

theorem decodeSymbol_frame {s u : State} (h : decodeSymbol s = .done u ∨ decodeSymbol s = .raised u) :
    DecodeFrame s u ∧ u.symOut = s.symOut := by
  rcases decodeSymbol_cases s with ⟨r, p, rest, n, nd, -, hb, -, -, -, hd⟩ | ⟨r, n, nd, -, -, -, -, hd⟩ |
    ⟨r, p, b, rest, n, nd, -, hb, -, -, -, -, hd⟩ | ⟨-, hd⟩ <;> rw [hd] at h <;> simp at h <;> subst h
  · exact ⟨⟨rfl, ⟨p, hb⟩, [], by simp, by simp⟩, rfl⟩
  · exact ⟨⟨rfl, ⟨s.bitIn, by simp⟩, [], by simp, by simp⟩, rfl⟩
  · exact ⟨⟨rfl, ⟨p ++ [b], by simp [hb]⟩, [], by simp, by simp⟩, rfl⟩

theorem decodeLoop_frame {k : Nat} {s u : State}
    (h : decodeLoop k s = .done u ∨ decodeLoop k s = .raised u) : DecodeFrame s u := by
  induction k generalizing s with
  | zero => simp [decodeLoop] at h
  | succ k ih =>
    simp only [decodeLoop, Flow.andThen_done, Flow.andThen_raised] at h
    rcases h with ⟨v, hv, h⟩ | h | ⟨v, hv, h⟩
    · have hf := (decodeSymbol_frame (.inl hv)).1
      split at h
      · cases h; exact hf
      · rename_i hne
        refine hf.trans (DecodeFrame.trans (t := symWrite v.rsym v) ⟨rfl, ⟨[], rfl⟩, [v.rsym], rfl, ?_⟩ (ih (.inl h)))
        simpa using Ne.symm hne
    · exact (decodeSymbol_frame (.inr h)).1
    · have hf := (decodeSymbol_frame (.inl hv)).1
      split at h
      · cases h
      · rename_i hne
        refine hf.trans (DecodeFrame.trans (t := symWrite v.rsym v) ⟨rfl, ⟨[], rfl⟩, [v.rsym], rfl, ?_⟩ (ih (.inr h)))
        simpa using Ne.symm hne

/-- One turn of the stream loop over a code other than the sentinel's (R216). -/
theorem decodeLoop_code {k : Nat} {s : State} {r n : Nat} {nd : Node} {p rest : List Bool}
    (hr : s.root = some r) (hf : follow s.nodes r p = some n) (hn : s.nodes[n]? = some nd)
    (hl : isLeaf nd = true) (hb : s.bitIn = p ++ rest) (hv : nd.sym ≠ s.cfg.asize) :
    decodeLoop (k + 1) s =
      decodeLoop k (symWrite nd.sym (setResult nd.sym (setCursor n rest s))) := by
  simp [decodeLoop, decodeSymbol_leaf hr hf hn hl hb, hv]

/-- The turn of the stream loop that decodes the sentinel (R218). -/
theorem decodeLoop_sentinel {k : Nat} {s : State} {r n : Nat} {nd : Node} {p rest : List Bool}
    (hr : s.root = some r) (hf : follow s.nodes r p = some n) (hn : s.nodes[n]? = some nd)
    (hl : isLeaf nd = true) (hb : s.bitIn = p ++ rest) (hv : nd.sym = s.cfg.asize) :
    decodeLoop (k + 1) s = .done (setResult nd.sym (setCursor n rest s)) := by
  simp [decodeLoop, decodeSymbol_leaf hr hf hn hl hb, hv]

/-- Where the tree has more than one node, the pre-check of `DECSTR` passes (R219). -/
theorem zeroLengthRoot_eq {s : State} {r : Nat} {nd : Node} (hn : s.nodes[r]? = some nd) :
    zeroLengthRoot s r = (isLeaf nd && decide (nd.sym ≠ s.cfg.asize)) := by
  simp [zeroLengthRoot, hn]

/-! ## Codes of the tree -/

/-- Every code of the tree an arena holds leads to a leaf with its symbol (R104). -/
theorem follow_of_mem_codes {nodes : List Node} {T : CodeTree} {n : Nat} (h : Holds nodes n T)
    {c : Nat × List Bool} (hc : c ∈ T.codes) :
    ∃ m leaf, follow nodes n c.2 = some m ∧ nodes[m]? = some leaf ∧ isLeaf leaf = true ∧ leaf.sym = c.1 := by
  induction T generalizing n c with
  | leaf v =>
    obtain ⟨nd, h1, h2, h3⟩ := h
    simp [CodeTree.codes] at hc
    subst hc
    exact ⟨n, nd, rfl, h1, h2, h3⟩
  | fork l r ihl ihr =>
    obtain ⟨nd, a, b, h1, h2, h3, hl, hr⟩ := h
    simp only [CodeTree.codes, List.mem_append, List.mem_map] at hc
    rcases hc with ⟨d, hd, rfl⟩ | ⟨d, hd, rfl⟩
    · obtain ⟨m, leaf, h⟩ := ihl hl hd
      exact ⟨m, leaf, by simp [follow, h1, child, h2, h]⟩
    · obtain ⟨m, leaf, h⟩ := ihr hr hd
      exact ⟨m, leaf, by simp [follow, h1, child, h3, h]⟩

/-- The root of a fork is no leaf. -/
theorem isLeaf_of_holds_fork {nodes : List Node} {n : Nat} {l r : CodeTree} (h : Holds nodes n (.fork l r)) :
    ∃ nd, nodes[n]? = some nd ∧ isLeaf nd = false := by
  obtain ⟨nd, a, b, h1, h2, -⟩ := h
  exact ⟨nd, h1, isLeaf_of_child (b := false) (by simpa [child] using h2)⟩

/-- An arena holds one tree at a slot. -/
theorem holds_unique {nodes : List Node} {T U : CodeTree} {n : Nat} (h : Holds nodes n T)
    (h' : Holds nodes n U) : T = U := by
  induction T generalizing n U with
  | leaf v =>
    obtain ⟨nd, h1, h2, h3⟩ := h
    cases U with
    | leaf u =>
      obtain ⟨nd', k1, k2, k3⟩ := h'
      rw [h1] at k1
      cases k1
      rw [← h3, k3]
    | fork l r =>
      obtain ⟨nd', k1, k2⟩ := isLeaf_of_holds_fork h'
      rw [h1] at k1
      cases k1
      rw [h2] at k2
      cases k2
  | fork l r ihl ihr =>
    cases U with
    | leaf u =>
      obtain ⟨nd', k1, k2⟩ := isLeaf_of_holds_fork h
      obtain ⟨nd, h1, h2, h3⟩ := h'
      rw [h1] at k1
      cases k1
      rw [h2] at k2
      cases k2
    | fork l' r' =>
      obtain ⟨nd, a, b, h1, h2, h3, h4, h5⟩ := h
      obtain ⟨nd', a', b', k1, k2, k3, k4, k5⟩ := h'
      rw [h1] at k1
      cases k1
      rw [h2] at k2
      cases k2
      rw [h3] at k3
      cases k3
      rw [ihl h4 k4, ihr h5 k5]

/-- A path to a leaf from an internal node is not empty. -/
theorem ne_nil_of_follow {nodes : List Node} {n m : Nat} {nd leaf : Node} {p : List Bool}
    (hn : nodes[n]? = some nd) (hl : isLeaf nd = false) (hf : follow nodes n p = some m)
    (hm : nodes[m]? = some leaf) (h : isLeaf leaf = true) : p ≠ [] := by
  rintro rfl
  cases hf
  rw [hn] at hm
  cases hm
  rw [hl] at h
  cases h

/-- The node a path starts from is allocated, and is internal if the node the path leads to is. -/
theorem isLeaf_of_follow {nodes : List Node} {n m : Nat} {nd : Node} {p : List Bool}
    (hf : follow nodes n p = some m) (hm : nodes[m]? = some nd) (hl : isLeaf nd = false) :
    ∃ rn, nodes[n]? = some rn ∧ isLeaf rn = false := by
  cases p with
  | nil => cases hf; exact ⟨nd, hm, hl⟩
  | cons b p =>
    simp only [follow] at hf
    cases h : nodes[n]? with
    | none => rw [h] at hf; cases hf
    | some rn =>
      simp only [h] at hf
      cases h' : child rn b with
      | none => rw [h'] at hf; cases hf
      | some c => exact ⟨rn, rfl, isLeaf_of_child h'⟩

/-- The state of the stream loop after it decoded these codes, none of them the sentinel's (R216). -/
def afterCodes (codes : List (Nat × List Bool)) (cur : Ptr) (bits : List Bool) (s : State) : State :=
  { s with
    cur := cur, bitIn := bits, symOut := s.symOut ++ codes.map Prod.fst,
    rsym := ((codes.map Prod.fst).getLast?).getD s.rsym,
    rv := s.rv || !codes.isEmpty, eos := s.eos && codes.isEmpty }

/-- The stream loop over a run of codes (R216). -/
theorem decodeLoop_codes {r : Nat} {codes : List (Nat × List Bool)} {s : State} {rest : List Bool}
    (hr : s.root = some r)
    (hc : ∀ c ∈ codes, c.1 ≠ s.cfg.asize ∧ ∃ m leaf, follow s.nodes r c.2 = some m ∧
      s.nodes[m]? = some leaf ∧ isLeaf leaf = true ∧ leaf.sym = c.1)
    (hb : s.bitIn = codes.flatMap Prod.snd ++ rest) (k : Nat) :
    ∃ cur, decodeLoop (codes.length + k) s = decodeLoop k (afterCodes codes cur rest s) := by
  induction codes generalizing s with
  | nil =>
    simp only [List.flatMap_nil, List.nil_append] at hb
    subst hb
    exact ⟨s.cur, by simp [afterCodes]⟩
  | cons c codes ih =>
    obtain ⟨hv, m, leaf, hf, hn, hl, hs⟩ := hc c (by simp)
    have hb' : s.bitIn = c.2 ++ (codes.flatMap Prod.snd ++ rest) := by rw [hb]; simp
    obtain ⟨cur, h⟩ := ih (s := symWrite leaf.sym (setResult leaf.sym
      (setCursor m (codes.flatMap Prod.snd ++ rest) s))) hr (fun d hd => hc d (by simp [hd])) rfl
    refine ⟨cur, ?_⟩
    rw [List.length_cons, show codes.length + 1 + k = (codes.length + k) + 1 by omega,
      decodeLoop_code hr hf hn hl hb' (by rw [hs]; exact hv), h]
    congr 1
    simp [afterCodes, setResult, symWrite, setCursor, hs, hv, List.getLast?_cons]

/-- Codes that are not empty take at least a bit each. -/
theorem length_le_of_codes {codes : List (Nat × List Bool)} (h : ∀ c ∈ codes, c.2 ≠ []) :
    codes.length ≤ (codes.flatMap Prod.snd).length := by
  induction codes with
  | nil => simp
  | cons c cs ih =>
    have := ih fun d hd => h d (by simp [hd])
    have h2 := List.length_pos_iff.2 (h c (by simp))
    simp only [List.flatMap_cons, List.length_append, List.length_cons]
    omega

/-! ## The decoders over a tree -/

/-- The walk of R212 over a tree: the symbol and the bits left, or none where the bits run out. -/
def treeWalk : CodeTree → List Bool → Option (Nat × List Bool)
  | .leaf v, bits => some (v, bits)
  | .fork l r, bits =>
    match bits with
    | [] => none
    | false :: bits => treeWalk l bits
    | true :: bits => treeWalk r bits

/-- Over an arena that holds the tree the walk is the tree's. -/
theorem walk_of_holds {nodes : List Node} {T : CodeTree} {n : Nat} (h : Holds nodes n T) (bits : List Bool) :
    (∃ m v rest, treeWalk T bits = some (v, rest) ∧ walk nodes n bits = .leaf m v rest) ∨
    (∃ m, treeWalk T bits = none ∧ walk nodes n bits = .truncated m) := by
  induction T generalizing n bits with
  | leaf v =>
    obtain ⟨nd, h1, h2, h3⟩ := h
    exact .inl ⟨n, v, bits, rfl, by rw [walk_leaf h1 h2, h3]⟩
  | fork l r ihl ihr =>
    obtain ⟨nd, h1, h2⟩ := isLeaf_of_holds_fork h
    obtain ⟨nd', a, c, h3, h4, h5, hl, hr⟩ := h
    rw [h1] at h3
    cases h3
    cases bits with
    | nil => exact .inr ⟨n, rfl, walk_truncated h1 h2⟩
    | cons b bits =>
      cases b
      · have : walk nodes n (false :: bits) = walk nodes a bits := by simp [walk, h1, h2, child, h4]
        rw [this]; exact ihl hl bits
      · have : walk nodes n (true :: bits) = walk nodes c bits := by simp [walk, h1, h2, child, h5]
        rw [this]; exact ihr hr bits

/-- A decoded symbol takes no bit only where the root is a leaf (R217). -/
theorem treeWalk_length {T : CodeTree} {bits rest : List Bool} {v : Nat} (h : treeWalk T bits = some (v, rest)) :
    rest.length ≤ bits.length ∧ ((∀ u, T ≠ .leaf u) → rest.length < bits.length) := by
  induction T generalizing bits with
  | leaf u => cases h; exact ⟨le_refl _, fun h => absurd rfl (h _)⟩
  | fork l r ihl ihr =>
    cases bits with
    | nil => cases h
    | cons b bits =>
      cases b
      · have := (ihl h).1
        simp only [List.length_cons]
        exact ⟨by omega, fun _ => by omega⟩
      · have := (ihr h).1
        simp only [List.length_cons]
        exact ⟨by omega, fun _ => by omega⟩

/-- Two blocks that hold one tree decode a stream alike (R222). -/
theorem decodeLoop_alike {T : CodeTree} (k : Nat) {a b : State} {n m : Nat} (ha : a.root = some n)
    (hb : b.root = some m) (hTa : Holds a.nodes n T) (hTb : Holds b.nodes m T) (hc : a.cfg.asize = b.cfg.asize)
    (hbits : a.bitIn = b.bitIn) (hout : a.symOut = b.symOut) (hk : a.bitIn.length < k)
    (hz : ∀ u, T = .leaf u → u = a.cfg.asize) :
    (∃ x y, decodeLoop k a = .done x ∧ decodeLoop k b = .done y ∧ x.symOut = y.symOut ∧ x.bitIn = y.bitIn) ∨
    (∃ x y, decodeLoop k a = .raised x ∧ decodeLoop k b = .raised y ∧ x.symOut = y.symOut ∧
      x.bitIn = y.bitIn ∧ x.mode = .faulted ∧ y.mode = .faulted ∧ x.fcause = some .truncatedStream ∧
      y.fcause = some .truncatedStream) := by
  induction k generalizing a b with
  | zero => omega
  | succ k ih =>
    rcases walk_of_holds hTa a.bitIn with ⟨i, v, rest, h1, h2⟩ | ⟨i, h1, h2⟩ <;>
      rcases walk_of_holds hTb a.bitIn with ⟨j, v', rest', h3, h4⟩ | ⟨j, h3, h4⟩
    · rw [h1] at h3
      cases h3
      have da : decodeSymbol a = .done (setResult v (setCursor i rest a)) := by simp [decodeSymbol, ha, h2]
      have db : decodeSymbol b = .done (setResult v (setCursor j rest b)) := by
        simp [decodeSymbol, hb, ← hbits, h4]
      simp only [decodeLoop, da, db, Flow.done_andThen]
      by_cases hv : v = a.cfg.asize
      · have hv' : v = b.cfg.asize := hv.trans hc
        refine .inl ⟨_, _, if_pos (by simpa [setResult, setCursor] using hv),
          if_pos (by simpa [setResult, setCursor] using hv'), by simpa [setResult, setCursor] using hout, rfl⟩
      · have hv' : v ≠ b.cfg.asize := by rw [← hc]; exact hv
        rw [if_neg (by simpa [setResult, setCursor] using hv), if_neg (by simpa [setResult, setCursor] using hv')]
        have hlt := (treeWalk_length h1).2 (by
          rintro u rfl
          cases h1
          exact hv (hz _ rfl))
        exact ih (a := symWrite v (setResult v (setCursor i rest a)))
          (b := symWrite v (setResult v (setCursor j rest b))) ha hb hTa hTb hc rfl
          (by simp [symWrite, setResult, setCursor, hout])
          (by simp only [symWrite, setResult, setCursor]; omega) hz
    · rw [h1] at h3; cases h3
    · rw [h1] at h3; cases h3
    · have da : decodeSymbol a = .raised (enterFault .truncatedStream (word i) (setCursor i [] a)) := by
        simp [decodeSymbol, ha, h2]
      have db : decodeSymbol b = .raised (enterFault .truncatedStream (word j) (setCursor j [] b)) := by
        simp [decodeSymbol, hb, ← hbits, h4]
      simp only [decodeLoop, da, db, Flow.raised_andThen]
      exact .inr ⟨_, _, rfl, rfl, by simpa [enterFault, setCursor] using hout, rfl, rfl, rfl, rfl, rfl⟩

/-! ## Ends -/

/-- Where every child pointer names an allocated slot, a path leads to allocated slots only. -/
theorem follow_within {nodes : List Node} (hi : ∀ (i : Nat) (nd : Node) (b : Bool) (c : Nat),
    nodes[i]? = some nd → child nd b = some c → c < nodes.length) {n m : Nat} {p : List Bool}
    (hn : n < nodes.length) (h : follow nodes n p = some m) : m < nodes.length := by
  induction p generalizing n with
  | nil => cases h; exact hn
  | cons b p ih =>
    simp only [follow] at h
    cases hn' : nodes[n]? with
    | none => rw [hn'] at h; cases h
    | some nd =>
      simp only [hn'] at h
      cases hc : child nd b with
      | none => rw [hc] at h; cases h
      | some c => rw [hc] at h; exact ih (hi n nd b c hn' hc) h

/-- What decoding one symbol can do in an arena without dangling pointers: it always ends. -/
theorem decodeSymbol_within {s : State} (hi : ∀ (i : Nat) (nd : Node) (b : Bool) (c : Nat),
    s.nodes[i]? = some nd → child nd b = some c → c < s.nodes.length) {r : Nat} (hr : s.root = some r)
    (hn : r < s.nodes.length) :
    (∃ p rest n nd, s.bitIn = p ++ rest ∧ follow s.nodes r p = some n ∧
      s.nodes[n]? = some nd ∧ isLeaf nd = true ∧
      decodeSymbol s = .done (setResult nd.sym (setCursor n rest s))) ∨
    (∃ n c rest, n < s.nodes.length ∧ (c = .truncatedStream ∨ c = .missingChild) ∧
      decodeSymbol s = .raised (enterFault c (word n) (setCursor n rest s))) := by
  rcases decodeSymbol_cases s with ⟨r', p, rest, n, nd, hr', h⟩ | ⟨r', n, nd, hr', hf, hn', -, h⟩ |
    ⟨r', p, b, rest, n, nd, hr', -, hf, hn', -, -, h⟩ | ⟨h, -⟩
  · rw [hr] at hr'; cases hr'
    exact .inl ⟨p, rest, n, nd, h⟩
  · exact .inr ⟨n, _, _, (List.getElem?_eq_some_iff.1 hn').1, .inl rfl, h⟩
  · exact .inr ⟨n, _, _, (List.getElem?_eq_some_iff.1 hn').1, .inr rfl, h⟩
  · exfalso
    rcases h with h | ⟨r', p, m, hr', hf, hm⟩
    · rw [hr] at h; cases h
    · rw [hr] at hr'; cases hr'
      have := follow_within hi hn hf
      rw [List.getElem?_eq_getElem this] at hm
      cases hm

/-- The stream loop always ends, unless the root is a leaf of a symbol other than the sentinel (R217, R219). -/
theorem decodeLoop_ends (k : Nat) {s : State} (hi : ∀ (i : Nat) (nd : Node) (b : Bool) (c : Nat),
    s.nodes[i]? = some nd → child nd b = some c → c < s.nodes.length) {r : Nat} (hr : s.root = some r)
    (hn : r < s.nodes.length) (hz : zeroLengthRoot s r = false) (hk : s.bitIn.length < k) :
    (∃ t, decodeLoop k s = .done t) ∨ (∃ t c, decodeLoop k s = .raised t ∧ t.mode = .faulted ∧
      t.fcause = some c ∧ (c = .truncatedStream ∨ c = .missingChild)) := by
  induction k generalizing s with
  | zero => omega
  | succ k ih =>
    rcases decodeSymbol_within hi hr hn with ⟨p, rest, n, nd, hb, hf, hn', hl, h⟩ | ⟨n, c, rest, -, hc, h⟩
    · simp only [decodeLoop, h, Flow.done_andThen]
      by_cases hv : nd.sym = s.cfg.asize
      · exact .inl ⟨_, if_pos (by simpa [setResult, setCursor] using hv)⟩
      · rw [if_neg (by simpa [setResult, setCursor] using hv)]
        have hp : p ≠ [] := by
          rintro rfl
          cases hf
          rw [zeroLengthRoot_eq hn', hl] at hz
          simp [hv] at hz
        have hp := List.length_pos_iff.2 hp
        have := congrArg List.length hb
        simp only [List.length_append] at this
        exact ih (s := symWrite nd.sym (setResult nd.sym (setCursor n rest s))) hi hr hn hz
          (by simp only [symWrite, setResult, setCursor]; omega)
    · simp only [decodeLoop, h, Flow.raised_andThen]
      exact .inr ⟨_, c, rfl, rfl, rfl, hc⟩

end Sys2Proof.Machine
end

