-- ==== Sys2Proof/Laws/Serialize.lean ====
section
/-! SUPPORT. The traversal of `WRITE` over the tree an arena holds, everything it can do, and the decimal
digits it prints. -/

namespace Sys2Proof.Machine

/-! ## The table of a tree under a path -/

/-- The codes of the leaves, each path preceded by `p`. -/
def codesUnder (p : List Bool) (T : CodeTree) : List (Nat × List Bool) :=
  T.codes.map (fun c => (c.1, p ++ c.2))

@[simp] theorem codesUnder_nil (T : CodeTree) : codesUnder [] T = T.codes := by simp [codesUnder]

theorem codesUnder_fork (p : List Bool) (l r : CodeTree) :
    codesUnder p (.fork l r) = codesUnder (p ++ [false]) l ++ codesUnder (p ++ [true]) r := by
  simp [codesUnder, CodeTree.codes, Function.comp_def]

@[simp] theorem tableText_append (c d : List (Nat × List Bool)) :
    tableText (c ++ d) = tableText c ++ tableText d := by simp [tableText]

/-! ## The traversal -/

/-- A measure that falls along every child pointer: what excludes a cycle (R48). -/
def Falls (nodes : List Node) (f : Nat → Nat) : Prop :=
  ∀ (i : Nat) (nd : Node) (b : Bool) (c : Nat), nodes[i]? = some nd → child nd b = some c → f c < f i

/-- Every child pointer names an allocated slot (R43). -/
def ChildrenIn (nodes : List Node) : Prop :=
  ∀ (i : Nat) (nd : Node) (b : Bool) (c : Nat), nodes[i]? = some nd → child nd b = some c → c < nodes.length

/-- Over the tree the arena holds the traversal finishes with the pairs of its leaves, left-first (R160,
R162, R163). -/
theorem emit_holds {nodes : List Node} {f : Nat → Nat} (hf : Falls nodes f) {T : CodeTree} {n k : Nat}
    (h : Holds nodes n T) (hk : f n < k) (p : List Bool) :
    emit nodes k n p = { bytes := tableText (codesUnder p T), stop := .finished } := by
  induction T generalizing n k p with
  | leaf v =>
    obtain ⟨nd, hn, hl, hv⟩ := h
    obtain ⟨hl, hr⟩ := isLeaf_iff.1 hl
    obtain ⟨k, rfl⟩ := Nat.exists_eq_succ_of_ne_zero (by omega : k ≠ 0)
    simp [emit, hn, hl, hr, hv, codesUnder, CodeTree.codes, tableText]
  | fork l r ihl ihr =>
    obtain ⟨nd, a, b, hn, ha, hb, hl, hr⟩ := h
    obtain ⟨k, rfl⟩ := Nat.exists_eq_succ_of_ne_zero (by omega : k ≠ 0)
    have h1 := hf n nd false a hn ha
    have h2 := hf n nd true b hn hb
    simp [emit, hn, ha, hb, ihl hl (show f a < k by omega), ihr hr (show f b < k by omega),
      Emitted.andThen, codesUnder_fork]

/-- A path of the tree an arena holds leads to a node of it, which has no child or two. -/
theorem holds_of_follow {nodes : List Node} {T : CodeTree} {n m : Nat} {p : List Bool}
    (h : Holds nodes n T) (hf : follow nodes n p = some m) : ∃ U, Holds nodes m U := by
  induction p generalizing n T with
  | nil => cases hf; exact ⟨T, h⟩
  | cons b p ih =>
    cases T with
    | leaf v =>
      obtain ⟨nd, hn, hl, -⟩ := h
      simp [follow, hn, child_of_isLeaf hl] at hf
    | fork l r =>
      obtain ⟨nd, a, c, hn, ha, hc, hl, hr⟩ := h
      cases b
      · exact ih hl (by simpa [follow, hn, child, ha] using hf)
      · exact ih hr (by simpa [follow, hn, child, hc] using hf)

theorem children_of_holds {nodes : List Node} {T : CodeTree} {n : Nat} {nd : Node} (h : Holds nodes n T)
    (hn : nodes[n]? = some nd) : nd.left.isNone = nd.right.isNone := by
  cases T with
  | leaf v =>
    obtain ⟨nd', hn', hl, -⟩ := h
    rw [hn] at hn'; cases hn'
    obtain ⟨hl, hr⟩ := isLeaf_iff.1 hl
    simp [hl, hr]
  | fork l r =>
    obtain ⟨nd', a, b, hn', ha, hb, -⟩ := h
    rw [hn] at hn'; cases hn'
    simp [ha, hb]

/-- The paths of a tree's leaves, left-first, ascend (R162). -/
theorem codes_ascend (T : CodeTree) : T.codes.Pairwise (fun c d => c.2 < d.2) := by
  induction T with
  | leaf v => simp [CodeTree.codes]
  | fork l r ihl ihr =>
    simp only [CodeTree.codes, List.pairwise_append, List.pairwise_map, List.mem_map]
    refine ⟨ihl.imp fun h => by simpa using h, ihr.imp fun h => by simpa using h, ?_⟩
    rintro _ ⟨c, -, rfl⟩ _ ⟨d, -, rfl⟩
    exact List.cons_lt_cons_iff.2 (.inl (by decide))

/-- The path `q` leads from node `n` to a leaf that holds `v`. -/
def LeafAt (nodes : List Node) (n v : Nat) (q : List Bool) : Prop :=
  ∃ m leaf, follow nodes n q = some m ∧ nodes[m]? = some leaf ∧ isLeaf leaf = true ∧ leaf.sym = v

/-- The codes of the tree an arena holds are the paths to its leaves (R104). -/
theorem mem_codes_iff {nodes : List Node} {T : CodeTree} {n : Nat} (h : Holds nodes n T) (v : Nat)
    (q : List Bool) : (v, q) ∈ T.codes ↔ LeafAt nodes n v q := by
  refine ⟨follow_of_mem_codes h, ?_⟩
  rintro ⟨m, leaf, hf, hm, hl, rfl⟩
  induction T generalizing n q with
  | leaf v =>
    obtain ⟨nd, hn, hnl, rfl⟩ := h
    cases q with
    | nil => cases hf; rw [hm] at hn; cases hn; simp [CodeTree.codes]
    | cons b q => simp [follow, hn, child_of_isLeaf hnl] at hf
  | fork l r ihl ihr =>
    obtain ⟨nd, hn, hnl⟩ := isLeaf_of_holds_fork h
    obtain ⟨nd', a, b, hn', ha, hb, hL, hR⟩ := h
    rw [hn] at hn'; cases hn'
    rcases q with _ | ⟨_ | _, q⟩
    · cases hf; rw [hm] at hn; cases hn; rw [hl] at hnl; cases hnl
    · simpa [CodeTree.codes] using ihl hL q (by simpa [follow, hn, child, ha] using hf)
    · simpa [CodeTree.codes] using ihr hR q (by simpa [follow, hn, child, hb] using hf)

/-- Below node `n`, `path` leads to `m`, the first node with exactly one child in left-first pre-order, which is the
ascending order of paths, and `before` lists the leaves before it in that order (R166, R274). -/
structure FirstOneChild (nodes : List Node) (n : Nat) (path : List Bool) (m : Nat)
    (before : List (Nat × List Bool)) : Prop where
  reached : follow nodes n path = some m
  oneChild : ∃ nd, nodes[m]? = some nd ∧ nd.left.isNone ≠ nd.right.isNone
  first : ∀ q i x, q < path → follow nodes n q = some i → nodes[i]? = some x → x.left.isNone = x.right.isNone
  ascend : before.Pairwise (fun c d => c.2 < d.2)
  leaves : ∀ v q, (v, q) ∈ before ↔ q < path ∧ LeafAt nodes n v q

theorem FirstOneChild.here {nodes : List Node} {n : Nat} {nd : Node} (hn : nodes[n]? = some nd)
    (h : nd.left.isNone ≠ nd.right.isNone) : FirstOneChild nodes n [] n [] where
  reached := rfl
  oneChild := ⟨nd, hn, h⟩
  first q _ _ hq := absurd hq (List.not_lt_nil q)
  ascend := .nil
  leaves v q := by simp

/-- Following a child first. -/
theorem follow_child {nodes : List Node} {n a : Nat} {nd : Node} {b : Bool} (hn : nodes[n]? = some nd)
    (hc : child nd b = some a) (q : List Bool) : follow nodes n (b :: q) = follow nodes a q := by
  simp [follow, hn, hc]

theorem leafAt_child {nodes : List Node} {n a : Nat} {nd : Node} {b : Bool} (hn : nodes[n]? = some nd)
    (hc : child nd b = some a) (v : Nat) (q : List Bool) :
    LeafAt nodes n v (b :: q) ↔ LeafAt nodes a v q := by
  simp only [LeafAt, follow_child hn hc]

/-- The first one-child node lies below the left child. -/
theorem FirstOneChild.left {nodes : List Node} {n a b m : Nat} {nd : Node} {path : List Bool}
    {before : List (Nat × List Bool)} (hn : nodes[n]? = some nd) (ha : nd.left = some a) (hb : nd.right = some b)
    (h : FirstOneChild nodes a path m before) :
    FirstOneChild nodes n (false :: path) m (before.map (fun c => (c.1, false :: c.2))) where
  reached := (follow_child hn (by simpa [child] using ha) path).trans h.reached
  oneChild := h.oneChild
  first q i x hq hf hx := by
    rcases q with _ | ⟨_ | _, q⟩
    · cases hf; rw [hn] at hx; cases hx; simp [ha, hb]
    · rw [follow_child hn (by simpa [child] using ha)] at hf
      exact h.first q i x (by simpa using hq) hf hx
    · exact absurd (show true < false by simpa [List.cons_lt_cons_iff] using hq) (by decide)
  ascend := List.pairwise_map.2 (h.ascend.imp fun h => by simpa using h)
  leaves v q := by
    rcases q with _ | ⟨_ | _, q⟩
    · have : isLeaf nd = false := isLeaf_of_child (b := false) (c := a) (by simpa [child] using ha)
      simp [LeafAt, follow, hn, this]
    · rw [leafAt_child hn (by simpa [child] using ha)]
      simpa using h.leaves v q
    · simp [List.cons_lt_cons_iff]

/-- The left subtree is a tree, and the first one-child node lies below the right child. -/
theorem FirstOneChild.right {nodes : List Node} {n a b m : Nat} {nd : Node} {path : List Bool} {L : CodeTree}
    {before : List (Nat × List Bool)} (hn : nodes[n]? = some nd) (ha : nd.left = some a) (hb : nd.right = some b)
    (hL : Holds nodes a L) (h : FirstOneChild nodes b path m before) :
    FirstOneChild nodes n (true :: path) m
      (L.codes.map (fun c => (c.1, false :: c.2)) ++ before.map (fun c => (c.1, true :: c.2))) where
  reached := (follow_child hn (by simpa [child] using hb) path).trans h.reached
  oneChild := h.oneChild
  first q i x hq hf hx := by
    rcases q with _ | ⟨_ | _, q⟩
    · cases hf; rw [hn] at hx; cases hx; simp [ha, hb]
    · rw [follow_child hn (by simpa [child] using ha)] at hf
      obtain ⟨U, hU⟩ := holds_of_follow hL hf
      exact children_of_holds hU hx
    · rw [follow_child hn (by simpa [child] using hb)] at hf
      exact h.first q i x (by simpa using hq) hf hx
  ascend := by
    simp only [List.pairwise_append, List.pairwise_map, List.mem_map]
    refine ⟨(codes_ascend L).imp fun h => by simpa using h, h.ascend.imp fun h => by simpa using h, ?_⟩
    rintro _ ⟨c, -, rfl⟩ _ ⟨d, -, rfl⟩
    exact List.cons_lt_cons_iff.2 (.inl (by decide))
  leaves v q := by
    rcases q with _ | ⟨_ | _, q⟩
    · have : isLeaf nd = false := isLeaf_of_child (b := false) (c := a) (by simpa [child] using ha)
      simp [LeafAt, follow, hn, this]
    · rw [leafAt_child hn (by simpa [child] using ha), ← mem_codes_iff hL]
      simp [List.cons_lt_cons_iff]
    · rw [leafAt_child hn (by simpa [child] using hb)]
      simpa using h.leaves v q

/-- Everything the traversal can do in an arena without cycles: finish over the tree it holds, or stop at the first
node with exactly one child, after the pairs of the leaves before it (R166). -/
theorem emit_cases {nodes : List Node} {f : Nat → Nat} (hf : Falls nodes f) (hi : ChildrenIn nodes)
    {n k : Nat} (hn : n < nodes.length) (hk : f n < k) (p : List Bool) :
    (∃ T, Holds nodes n T) ∨
    (∃ path m before, FirstOneChild nodes n path m before ∧ emit nodes k n p =
      { bytes := tableText (before.map (fun c => (c.1, p ++ c.2))), stop := .missing m }) := by
  induction k generalizing n p with
  | zero => omega
  | succ k ih =>
    have hnd : nodes[n]? = some nodes[n] := List.getElem?_eq_getElem hn
    generalize nodes[n] = nd at hnd
    rcases hl : nd.left with _ | a <;> rcases hr : nd.right with _ | b
    · exact .inl ⟨.leaf nd.sym, nd, hnd, isLeaf_iff.2 ⟨hl, hr⟩, rfl⟩
    · exact .inr ⟨[], n, [], .here hnd (by simp [hl, hr]), by simp [emit, hnd, hl, hr, tableText]⟩
    · exact .inr ⟨[], n, [], .here hnd (by simp [hl, hr]), by simp [emit, hnd, hl, hr, tableText]⟩
    · have ha := hi n nd false a hnd hl
      have hb := hi n nd true b hnd hr
      have fa := hf n nd false a hnd hl
      have fb := hf n nd true b hnd hr
      rcases ih ha (show f a < k by omega) (p ++ [false]) with ⟨L, hL⟩ | ⟨q, m, bf, h1, h2⟩
      · rcases ih hb (show f b < k by omega) (p ++ [true]) with ⟨R, hR⟩ | ⟨q, m, bf, h1, h2⟩
        · exact .inl ⟨.fork L R, nd, a, b, hnd, hl, hr, hL, hR⟩
        · refine .inr ⟨_, m, _, .right hnd hl hr hL h1, ?_⟩
          simp [emit, hnd, hl, hr, emit_holds hf hL (show f a < k by omega), h2, Emitted.andThen, codesUnder,
            Function.comp_def]
      · refine .inr ⟨_, m, _, .left hnd hl hr h1, ?_⟩
        simp [emit, hnd, hl, hr, h2, Emitted.andThen, Function.comp_def]

/-! ## The body of `WRITE` -/

/-- `WRITE` over a tree the arena holds (R160). -/
theorem writeBody_holds {s : State} {f : Nat → Nat} (hf : Falls s.nodes f) {T : CodeTree} {r : Nat}
    (ht : s.tv = true) (hr : s.root = some r) (h : Holds s.nodes r T) (hk : f r < s.nodes.length) :
    writeBody s = .done (tabWrite (tableText T.codes) s) := by
  simp [writeBody, ht, hr, emit_holds hf h hk]

/-- `WRITE` stops at a one-child node, with what it appended before (R166). -/
theorem writeBody_missing {s : State} {r m : Nat} {bytes : List Byte} (ht : s.tv = true)
    (hr : s.root = some r) (h : emit s.nodes s.nodes.length r [] = { bytes := bytes, stop := .missing m }) :
    writeBody s = .raised (enterFault .missingChild (word m) (tabWrite bytes s)) := by
  simp [writeBody, ht, hr, h]

/-- Everything the body of `WRITE` can do: it only appends to `TO`, and may raise. -/
theorem writeBody_cases (s : State) :
    (∃ bytes, writeBody s = .done (tabWrite bytes s)) ∨
    (∃ bytes n, writeBody s = .raised (enterFault .missingChild (word n) (tabWrite bytes s))) ∨
    (s.tv = false ∧ writeBody s = .raised (enterFault .noTree 0x2#32 s)) ∨
    (∃ e, writeBody s = .stuck e) := by
  unfold writeBody
  split
  · exact .inr (.inr (.inl ⟨‹_›, rfl⟩))
  · split
    · exact .inr (.inr (.inr ⟨_, rfl⟩))
    · simp only
      split
      · exact .inl ⟨_, rfl⟩
      · exact .inr (.inl ⟨_, _, rfl⟩)
      · exact .inr (.inr (.inr ⟨_, rfl⟩))

/-! ## Decimal digits -/

theorem decDigits_add {k n : Nat} (h : n < k) (j : Nat) : decDigits (k + j) n = decDigits k n := by
  induction k generalizing n with
  | zero => omega
  | succ k ih =>
    rw [show k + 1 + j = (k + j) + 1 by omega]
    simp only [decDigits]
    split
    · rfl
    · rw [ih (by omega)]

/-- `dec` of a number with more than one digit (R100). -/
theorem dec_of_ge {n : Nat} (h : 10 ≤ n) : dec n = dec (n / 10) ++ [digit (n % 10)] := by
  unfold dec
  rw [decDigits, if_neg (by omega)]
  obtain ⟨j, hj⟩ : ∃ j, n = (n / 10 + 1) + j := ⟨n - (n / 10 + 1), by omega⟩
  conv_lhs => rw [hj, decDigits_add (by omega), ← hj]

theorem dec_of_lt {n : Nat} (h : n < 10) : dec n = [digit n] := by
  simp [dec, decDigits, h]

theorem digit_toNat {d : Nat} (h : d < 10) : (digit d).toNat = 0x30 + d := by
  simp only [digit, BitVec.toNat_ofNat]
  omega

theorem isDigit_digit {d : Nat} (h : d < 10) : isDigit (digit d) = true := by
  simp [isDigit, digit_toNat h]
  omega

theorem isDigit_lineFeed : isDigit lineFeed = false := by decide

end Sys2Proof.Machine
end

