-- ==== Sys2Proof/Laws/Table.lean ====
section
/-! SUPPORT. The table loader: what reading a pair gives, the shape of the tree it grows (each slot named by
its path), and everything inserting a pair and loading a table can do. -/

namespace Sys2Proof.Machine

/-! ## Reading the table text -/

theorem digitsValue_append (ds : List Byte) (d : Byte) :
    digitsValue (ds ++ [d]) = 10 * digitsValue ds + (d.toNat - 0x30) := by
  induction ds with
  | nil => simp [digitsValue]
  | cons x xs ih => simp [digitsValue, ih, Nat.pow_succ]; ring

/-- Reading digits accumulates their value (R101). -/
theorem symbolLine_append {ds : List Byte} (hd : ∀ d ∈ ds, isDigit d = true) (v n : Nat) (rest : List Byte) :
    symbolLine v n (ds ++ rest) = symbolLine (v * 10 ^ ds.length + digitsValue ds) (n + ds.length) rest := by
  induction ds generalizing v n with
  | nil => simp [digitsValue]
  | cons d ds ih =>
    have h1 := hd d (by simp)
    have : d ≠ lineFeed := by rintro rfl; rw [isDigit_lineFeed] at h1; cases h1
    simp only [List.cons_append, symbolLine]
    rw [if_neg this, if_pos h1, ih (fun x hx => hd x (by simp [hx]))]
    congr 1
    · simp [digitsValue, Nat.pow_succ]; ring
    · simp; omega

/-- A line of one or more digits has their value (R101). -/
theorem symbolLine_digits {ds : List Byte} (h : IsDigits ds) (rest : List Byte) :
    symbolLine 0 0 (ds ++ lineFeed :: rest) = .ok (digitsValue ds) rest := by
  have : ds.length ≠ 0 := by simpa using h.1
  rw [symbolLine_append h.2]
  simp [symbolLine, this]

theorem isDigits_dec (n : Nat) : IsDigits (dec n) ∧ digitsValue (dec n) = n := by
  induction n using Nat.strong_induction_on with
  | _ n ih =>
    by_cases h : n < 10
    · rw [dec_of_lt h]
      exact ⟨⟨by simp, by simp [isDigit_digit h]⟩, by simp [digitsValue, digit_toNat h]⟩
    · rw [dec_of_ge (by omega)]
      obtain ⟨⟨-, h2⟩, h3⟩ := ih (n / 10) (by omega)
      refine ⟨⟨by simp, fun d hd => ?_⟩, ?_⟩
      · rcases List.mem_append.1 hd with hd | hd
        · exact h2 d hd
        · simp at hd; subst hd; exact isDigit_digit (by omega)
      · rw [digitsValue_append, h3, digit_toNat (by omega)]; omega

/-- Reading path characters accumulates the path (R103). -/
theorem pathLine_append (path p : List Bool) (rest : List Byte) :
    pathLine p (path.map bitChar ++ rest) = pathLine (p ++ path) rest := by
  induction path generalizing p with
  | nil => simp
  | cons b path ih =>
    cases b <;> simp [pathLine, bitChar, lineFeed] <;> exact (ih _).trans (by simp)

/-- A spelled pair in the characters the loader tests for (R96, R103). -/
theorem spelledPair_append (ds : List Byte) (path : List Bool) (rest : List Byte) :
    spelledPair ds path ++ rest = ds ++ lineFeed :: (path.map bitChar ++ lineFeed :: rest) := by
  simp only [spelledPair, lineFeed, List.append_assoc, List.singleton_append]
  rfl

/-- `WRITE` prints a pair with canonical digits (R163). -/
theorem pairText_eq (v : Nat) (path : List Bool) : pairText v path = spelledPair (dec v) path := by
  have := spelledPair_append (dec v) path []
  simpa [pairText] using this.symm

theorem tableText_eq (codes : List (Nat × List Bool)) :
    tableText codes = spelledText (codes.map (fun c => (dec c.1, c.2))) := by
  simp [tableText, spelledText, pairText_eq, List.flatMap_map]

theorem pairValues_dec (codes : List (Nat × List Bool)) :
    pairValues (codes.map (fun c => (dec c.1, c.2))) = codes := by
  simp [pairValues, Function.comp_def, (isDigits_dec _).2]

/-- What reading a spelled pair gives: its value and path, or `BAD_SYMBOL` at the end of its symbol line (R101, R183,
R185). -/
theorem readPair_spelled {ds : List Byte} (hd : IsDigits ds) (asize : Nat) (path : List Bool) (rest : List Byte) :
    readPair asize (spelledPair ds path ++ rest) =
      if asize < digitsValue ds then .bad .badSymbol (path.map bitChar ++ lineFeed :: rest)
      else .ok (digitsValue ds, path) rest := by
  rw [spelledPair_append, readPair, symbolLine_digits hd]
  simp only
  split
  · rfl
  · rw [pathLine_append]
    simp [pathLine]

theorem readPair_spelled_ok {ds : List Byte} {asize : Nat} (hd : IsDigits ds) (hv : digitsValue ds ≤ asize)
    (path : List Bool) (rest : List Byte) :
    readPair asize (spelledPair ds path ++ rest) = .ok (digitsValue ds, path) rest := by
  rw [readPair_spelled hd, if_neg (by omega)]

/-- What the reading of a symbol line leaves is a proper end of what it was given, if that was not empty. -/
theorem symbolLine_rest (v n : Nat) (bytes : List Byte) :
    ∃ taken rest, bytes = taken ++ rest ∧ (bytes ≠ [] → taken ≠ []) ∧
      ((∃ x, symbolLine v n bytes = .ok x rest) ∨ ∃ c ∈ mayRaise .buildt, symbolLine v n bytes = .bad c rest) := by
  induction bytes generalizing v n with
  | nil => exact ⟨[], [], rfl, by simp, .inr ⟨_, by simp [mayRaise], rfl⟩⟩
  | cons c bytes ih =>
    simp only [symbolLine]
    split
    · refine ⟨[c], bytes, rfl, by simp, ?_⟩
      split
      · exact .inr ⟨_, by simp [mayRaise], rfl⟩
      · exact .inl ⟨_, rfl⟩
    · split
      · obtain ⟨taken, rest, h1, -, h2⟩ := ih (10 * v + (c.toNat - 0x30)) (n + 1)
        exact ⟨c :: taken, rest, by simp [← h1], by simp, h2⟩
      · exact ⟨[c], bytes, rfl, by simp, .inr ⟨_, by simp [mayRaise], rfl⟩⟩

theorem pathLine_rest (p : List Bool) (bytes : List Byte) :
    ∃ taken rest, bytes = taken ++ rest ∧
      ((∃ x, pathLine p bytes = .ok x rest) ∨ ∃ c ∈ mayRaise .buildt, pathLine p bytes = .bad c rest) := by
  induction bytes generalizing p with
  | nil => exact ⟨[], [], rfl, .inr ⟨_, by simp [mayRaise], rfl⟩⟩
  | cons c bytes ih =>
    simp only [pathLine]
    split
    · exact ⟨[c], bytes, rfl, .inl ⟨_, rfl⟩⟩
    · split
      · obtain ⟨taken, rest, h1, h2⟩ := ih (p ++ [false])
        exact ⟨c :: taken, rest, by simp [← h1], h2⟩
      · split
        · obtain ⟨taken, rest, h1, h2⟩ := ih (p ++ [true])
          exact ⟨c :: taken, rest, by simp [← h1], h2⟩
        · exact ⟨[c], bytes, rfl, .inr ⟨_, by simp [mayRaise], rfl⟩⟩

/-- Everything reading a pair can do: it takes bytes from the front, and gives a symbol in range and a path, or a
fault. -/
theorem readPair_cases (asize : Nat) (bytes : List Byte) :
    ∃ taken rest, bytes = taken ++ rest ∧ (bytes ≠ [] → taken ≠ []) ∧
      ((∃ v path, v ≤ asize ∧ readPair asize bytes = .ok (v, path) rest) ∨
        ∃ c ∈ mayRaise .buildt, readPair asize bytes = .bad c rest) := by
  obtain ⟨t1, r1, h1, hne, ⟨v, h⟩ | ⟨c, hc, h⟩⟩ := symbolLine_rest 0 0 bytes
  · by_cases hv : asize < v
    · exact ⟨t1, r1, h1, hne, .inr ⟨.badSymbol, by simp [mayRaise], by simp [readPair, h, hv]⟩⟩
    · obtain ⟨t2, r2, h2, ⟨path, h'⟩ | ⟨c, hc, h'⟩⟩ := pathLine_rest [] r1
      · exact ⟨t1 ++ t2, r2, by simp [h1, h2], fun hb => by simp [hne hb],
          .inl ⟨v, path, by omega, by simp [readPair, h, hv, h']⟩⟩
      · exact ⟨t1 ++ t2, r2, by simp [h1, h2], fun hb => by simp [hne hb],
          .inr ⟨c, hc, by simp [readPair, h, hv, h']⟩⟩
  · exact ⟨t1, r1, h1, hne, .inr ⟨c, hc, by simp [readPair, h]⟩⟩

/-! ## The shape of a grown tree -/

/-- The slots of a grown tree in order of allocation, each with its path from the root and, for a completed
leaf, its symbol. -/
abbrev Labels := List (List Bool × Option Nat)

/-- The arena of `g` is the tree these labels describe. -/
structure Shaped (g : Grown) (Q : Labels) : Prop where
  len : Q.length = g.nodes.length
  nodup : (Q.map Prod.fst).Nodup
  root : g.root = if Q = [] then none else some 0
  head : ∀ q : List Bool × Option Nat, Q[0]? = some q → q.1 = []
  data : ∀ (i : Nat) (q : List Bool × Option Nat) (nd : Node), Q[i]? = some q → g.nodes[i]? = some nd →
    nd.sym = q.2.getD 0 ∧ nd.symv = q.2.isSome ∧ nd.weight = 0
  kids : ∀ (i : Nat) (q : List Bool × Option Nat) (nd : Node) (b : Bool) (c : Nat), Q[i]? = some q → g.nodes[i]? = some nd →
    (child nd b = some c ↔ ∃ l, Q[c]? = some (q.1 ++ [b], l))
  closed : ∀ (c : Nat) (p : List Bool) (b : Bool) (l : Option Nat), Q[c]? = some (p ++ [b], l) → ∃ i, i < c ∧ Q[i]? = some (p, none)

/-- The path a slot stands for. -/
def SlotAt (Q : Labels) : Slot → List Bool → Prop
  | .root, p => p = []
  | .child n b, p => ∃ p0, Q[n]? = some (p0, none) ∧ p = p0 ++ [b]

theorem shaped_nil : Shaped { root := none, nodes := [] } [] := by
  constructor <;> simp

/-- Two slots with one path are one. -/
theorem Shaped.inj {g : Grown} {Q : Labels} (h : Shaped g Q) {i j : Nat} {q r : List Bool × Option Nat}
    (hi : Q[i]? = some q) (hj : Q[j]? = some r) (hp : q.1 = r.1) : i = j ∧ q = r := by
  have h1 : (Q.map Prod.fst)[i]? = some q.1 := by simp [hi]
  have h2 : (Q.map Prod.fst)[j]? = some q.1 := by simp [hj, hp]
  have : i = j := by
    have hil := (List.getElem?_eq_some_iff.1 h1).1
    exact h.nodup.getElem_inj_iff.1 (by
      rw [← Option.some_inj, ← List.getElem?_eq_getElem hil,
        ← List.getElem?_eq_getElem (List.getElem?_eq_some_iff.1 h2).1, h1, h2])
  subst this
  exact ⟨rfl, by rw [hi] at hj; exact Option.some_inj.1 hj⟩

theorem Shaped.node {g : Grown} {Q : Labels} (h : Shaped g Q) {i : Nat} {q : List Bool × Option Nat}
    (hi : Q[i]? = some q) : ∃ nd, g.nodes[i]? = some nd := by
  have := (List.getElem?_eq_some_iff.1 hi).1
  rw [h.len] at this
  exact ⟨_, List.getElem?_eq_getElem this⟩

theorem Shaped.label {g : Grown} {Q : Labels} (h : Shaped g Q) {i : Nat} {nd : Node}
    (hi : g.nodes[i]? = some nd) : ∃ q, Q[i]? = some q := by
  have := (List.getElem?_eq_some_iff.1 hi).1
  rw [← h.len] at this
  exact ⟨_, List.getElem?_eq_getElem this⟩

/-- Every proper prefix of a path is the path of a placeholder. -/
theorem Shaped.prefix_mem {g : Grown} {Q : Labels} (h : Shaped g Q) {p s : List Bool} {l : Option Nat}
    (hq : (p ++ s, l) ∈ Q) (hs : s ≠ []) : (p, none) ∈ Q := by
  induction s using List.reverseRecOn generalizing l with
  | nil => exact absurd rfl hs
  | append_singleton s b ih =>
    obtain ⟨c, hc⟩ := List.mem_iff_getElem?.1 hq
    rw [← List.append_assoc] at hc
    obtain ⟨i, -, hi⟩ := h.closed _ _ _ _ hc
    by_cases hs' : s = []
    · subst hs'
      rw [List.append_nil] at hi
      exact List.mem_iff_getElem?.2 ⟨i, hi⟩
    · exact ih (List.mem_iff_getElem?.2 ⟨i, hi⟩) hs'

/-- What a slot holds is the node with its path. -/
theorem Shaped.content_iff {g : Grown} {Q : Labels} (h : Shaped g Q) {slot : Slot} {p : List Bool}
    (hs : SlotAt Q slot p) (n : Nat) : content g slot = some n ↔ ∃ l, Q[n]? = some (p, l) := by
  cases slot with
  | root =>
    cases hs
    simp only [content, h.root]
    cases Q with
    | nil => simp
    | cons q Q =>
      have hq := h.head q rfl
      simp only [reduceCtorEq, if_false, Option.some_inj]
      constructor
      · rintro rfl
        exact ⟨q.2, by simp [← hq]⟩
      · rintro ⟨l, hl⟩
        exact (h.inj (i := 0) rfl hl hq).1
  | child m b =>
    obtain ⟨p0, hm, rfl⟩ := hs
    obtain ⟨nd, hnd⟩ := h.node hm
    simp only [content, hnd, Option.bind_some]
    exact h.kids m _ nd b n hm hnd

theorem child_setChild (b b' : Bool) (p : Nat) (nd : Node) :
    child (setChild b p nd) b' = if b' = b then some p else child nd b' := by
  cases b <;> cases b' <;> simp [child, setChild]

theorem setChild_data (b : Bool) (p : Nat) (nd : Node) : (setChild b p nd).sym = nd.sym ∧
    (setChild b p nd).symv = nd.symv ∧ (setChild b p nd).weight = nd.weight := by
  cases b <;> simp [setChild]

/-- Placing a childless node in an empty slot adds its label (R188). -/
theorem Shaped.place {g : Grown} {Q : Labels} (h : Shaped g Q) {slot : Slot} {p : List Bool}
    (hs : SlotAt Q slot p) (hp : p ∉ Q.map Prod.fst) {nd : Node} {l : Option Nat}
    (hc : ∀ b, child nd b = none) (hd : nd.sym = l.getD 0 ∧ nd.symv = l.isSome ∧ nd.weight = 0) :
    Shaped (place g slot nd) (Q ++ [(p, l)]) := by
  have hnodup : ((Q ++ [(p, l)]).map Prod.fst).Nodup := by
    simp only [List.map_append, List.map_cons, List.map_nil]
    exact List.Nodup.append h.nodup (by simp) (by simpa using hp)
  have hnot : ∀ (i : Nat) (l' : Option Nat), Q[i]? ≠ some (p, l') := fun i l' hi =>
    hp (List.mem_map.2 ⟨_, List.mem_iff_getElem?.2 ⟨i, hi⟩, rfl⟩)
  have hlab : ∀ (i : Nat) (q : List Bool × Option Nat), (Q ++ [(p, l)])[i]? = some q ↔
      Q[i]? = some q ∨ (i = g.nodes.length ∧ q = (p, l)) := by
    intro i q
    rw [← h.len]
    rcases lt_trichotomy i Q.length with hi | hi | hi
    · rw [List.getElem?_append_left hi]
      constructor
      · exact .inl
      · rintro (h | ⟨h, -⟩)
        · exact h
        · omega
    · subst hi
      simp [eq_comm]
    · rw [List.getElem?_eq_none (by simp; omega), List.getElem?_eq_none (by omega)]
      simp; omega
  cases slot with
  | root =>
    have hQ : Q = [] := by
      cases Q with
      | nil => rfl
      | cons q Q =>
        cases hs
        exact absurd (List.mem_map.2 ⟨q, List.mem_cons_self, h.head q rfl⟩) hp
    subst hQ
    cases hs
    have hn : g.nodes = [] := List.length_eq_zero_iff.1 h.len.symm
    constructor
    · simp [Machine.place, link, alloc, hn]
    · exact hnodup
    · simp [Machine.place, link, alloc, hn]
    · simp
    · intro i q nd' hi hn'
      rw [hlab] at hi
      simp at hi
      obtain ⟨rfl, rfl⟩ := hi
      simp [Machine.place, link, alloc, hn] at hn'
      subst hn'
      exact hd
    · intro i q nd' b c hi hn'
      rw [hlab] at hi
      simp at hi
      obtain ⟨rfl, rfl⟩ := hi
      simp [Machine.place, link, alloc, hn] at hn'
      subst hn'
      cases c <;> simp [hc]
    · intro c p b l' hc'
      cases c <;> simp at hc'
  | child n b =>
    obtain ⟨p0, hn, rfl⟩ := hs
    have hnl : n < g.nodes.length := by rw [← h.len]; exact (List.getElem?_eq_some_iff.1 hn).1
    have hget : ∀ i nd', (Machine.place g (.child n b) nd).nodes[i]? = some nd' ↔
        (∃ x, g.nodes[i]? = some x ∧ nd' = if i = n then setChild b g.nodes.length x else x) ∨
        (i = g.nodes.length ∧ nd' = nd) := by
      intro i nd'
      simp only [Machine.place, link, alloc, List.getElem?_modify]
      rcases lt_trichotomy i g.nodes.length with hi | hi | hi
      · rw [List.getElem?_append_left hi, List.getElem?_eq_getElem hi]
        simp [eq_comm (a := n), show i ≠ g.nodes.length by omega, eq_comm (a := nd')]
      · subst hi
        simp [show n ≠ g.nodes.length by omega, eq_comm (a := nd')]
      · rw [List.getElem?_eq_none (by simp; omega), List.getElem?_eq_none (by omega)]
        simp; omega
    constructor
    · simp [Machine.place, link, alloc, h.len]
    · exact hnodup
    · have : Q ≠ [] := by rintro rfl; simp at hn
      simp [Machine.place, link, h.root, this]
    · intro q hq
      rcases (hlab _ _).1 hq with hq | ⟨h0, -⟩
      · exact h.head q hq
      · omega
    · intro i q nd' hi hn'
      rcases (hlab _ _).1 hi with hi | ⟨rfl, rfl⟩
      · rcases (hget _ _).1 hn' with ⟨x, hx, rfl⟩ | ⟨rfl, rfl⟩
        · have := h.data i q x hi hx
          split
          · rw [(setChild_data _ _ _).1, (setChild_data _ _ _).2.1, (setChild_data _ _ _).2.2]; exact this
          · exact this
        · rw [← h.len] at hi; simp at hi
      · rcases (hget _ _).1 hn' with ⟨x, hx, rfl⟩ | ⟨-, rfl⟩
        · simp at hx
        · exact hd
    · intro i q nd' b' c hi hn'
      rcases (hlab _ _).1 hi with hi | ⟨rfl, rfl⟩
      · rcases (hget _ _).1 hn' with ⟨x, hx, rfl⟩ | ⟨rfl, rfl⟩
        · have hk := h.kids i q x b' c hi hx
          by_cases hin : i = n
          · subst hin
            have hq : q = (p0, none) := by rw [hn] at hi; exact (Option.some_inj.1 hi).symm
            subst hq
            rw [if_pos rfl, child_setChild]
            by_cases hb : b' = b
            · subst hb
              rw [if_pos rfl]
              constructor
              · intro hcn
                cases hcn
                exact ⟨l, (hlab _ _).2 (.inr ⟨rfl, rfl⟩)⟩
              · rintro ⟨l', hl'⟩
                rcases (hlab _ _).1 hl' with hl' | ⟨rfl, -⟩
                · exact absurd hl' (hnot _ _)
                · rfl
            · rw [if_neg hb, hk]
              refine exists_congr fun l' => ?_
              rw [hlab]
              simp [hb]
          · rw [if_neg hin, hk]
            refine exists_congr fun l' => ?_
            rw [hlab]
            simp only [Prod.mk.injEq]
            constructor
            · exact .inl
            · rintro (h' | ⟨-, h', -⟩)
              · exact h'
              · have := List.append_inj' h' rfl
                exact absurd (h.inj hi hn this.1).1 hin
        · rw [← h.len] at hi; simp at hi
      · rcases (hget _ _).1 hn' with ⟨x, hx, rfl⟩ | ⟨-, rfl⟩
        · simp at hx
        · rw [hc]
          simp only [reduceCtorEq, false_iff, not_exists]
          intro l' hl'
          rcases (hlab _ _).1 hl' with hl' | ⟨-, hl'⟩
          · obtain ⟨j, -, hj⟩ := h.closed _ _ _ _ hl'
            exact hnot _ _ hj
          · have := congrArg (fun x : List Bool × Option Nat => x.1.length) hl'
            simp at this
    · intro c q b' l' hc'
      rcases (hlab _ _).1 hc' with hc' | ⟨rfl, hq⟩
      · obtain ⟨i, hi, hq⟩ := h.closed _ _ _ _ hc'
        exact ⟨i, hi, (hlab _ _).2 (.inl hq)⟩
      · simp only [Prod.mk.injEq] at hq
        have := (List.append_inj' hq.1 rfl).1
        subst this
        exact ⟨n, hnl, (hlab _ _).2 (.inl hn)⟩

/-- The labels a new pair adds, from the first path that is not in the tree (R188). -/
def newLabels (v : Nat) : List Bool → List Bool → Labels
  | p, [] => [(p, some v)]
  | p, b :: path => (p, none) :: newLabels v (p ++ [b]) path

theorem newLabels_length (v : Nat) (p todo : List Bool) : (newLabels v p todo).length = todo.length + 1 := by
  induction todo generalizing p with
  | nil => rfl
  | cons b todo ih => simp [newLabels, ih]

/-- Growing adds exactly the labels of the new pair. -/
theorem Shaped.grow {g : Grown} {Q : Labels} (h : Shaped g Q) {slot : Slot} {p : List Bool}
    (hs : SlotAt Q slot p) (hp : p ∉ Q.map Prod.fst) (v : Nat) (todo : List Bool) :
    Shaped (grow v g slot todo) (Q ++ newLabels v p todo) := by
  induction todo generalizing g Q slot p with
  | nil => exact h.place hs hp (by intro b; cases b <;> rfl) ⟨rfl, rfl, rfl⟩
  | cons b todo ih =>
    have h' := h.place hs hp (nd := placeholder) (l := none) (by intro b; cases b <;> rfl) ⟨rfl, rfl, rfl⟩
    have hs' : SlotAt (Q ++ [(p, none)]) (.child g.nodes.length b) (p ++ [b]) :=
      ⟨p, by rw [← h.len]; simp, rfl⟩
    have hp' : p ++ [b] ∉ (Q ++ [(p, none)]).map Prod.fst := by
      simp only [List.map_append, List.map_cons, List.map_nil, List.mem_append, List.mem_singleton, not_or]
      refine ⟨fun hm => ?_, by simp⟩
      obtain ⟨⟨q, l⟩, hq, rfl⟩ := List.mem_map.1 hm
      exact hp (List.mem_map.2 ⟨_, h.prefix_mem hq (by simp), rfl⟩)
    have := ih h' hs' hp'
    rwa [List.append_assoc] at this

/-- Everything the walk through the existing nodes can do (R187). -/
theorem Shaped.findSlot_cases {g : Grown} {Q : Labels} (h : Shaped g Q) {slot : Slot} {p : List Bool}
    (hs : SlotAt Q slot p) (todo : List Bool) :
    (findSlot g slot todo = .conflict ∧
      ((∃ t v, t <+: todo ∧ (p ++ t, some v) ∈ Q) ∨ p ++ todo ∈ Q.map Prod.fst)) ∨
    (∃ slot' p' todo', findSlot g slot todo = .free slot' todo' ∧ SlotAt Q slot' p' ∧
      p' ∉ Q.map Prod.fst ∧ p ++ todo = p' ++ todo') := by
  induction todo generalizing slot p with
  | nil =>
    rcases hc : content g slot with _ | n
    · refine .inr ⟨slot, p, [], by simp [findSlot, hc], hs, fun hm => ?_, rfl⟩
      obtain ⟨⟨q, l⟩, hq, rfl⟩ := List.mem_map.1 hm
      obtain ⟨i, hi⟩ := List.mem_iff_getElem?.1 hq
      rw [(h.content_iff hs i).2 ⟨l, hi⟩] at hc
      cases hc
    · obtain ⟨l, hl⟩ := (h.content_iff hs n).1 hc
      have : n < g.nodes.length := by rw [← h.len]; exact (List.getElem?_eq_some_iff.1 hl).1
      refine .inl ⟨by simp [findSlot, hc, this], .inr ?_⟩
      rw [List.append_nil]
      exact List.mem_map.2 ⟨_, List.mem_iff_getElem?.2 ⟨n, hl⟩, rfl⟩
  | cons b todo ih =>
    rcases hc : content g slot with _ | n
    · refine .inr ⟨slot, p, b :: todo, by simp [findSlot, hc], hs, fun hm => ?_, rfl⟩
      obtain ⟨⟨q, l⟩, hq, rfl⟩ := List.mem_map.1 hm
      obtain ⟨i, hi⟩ := List.mem_iff_getElem?.1 hq
      rw [(h.content_iff hs i).2 ⟨l, hi⟩] at hc
      cases hc
    · obtain ⟨l, hl⟩ := (h.content_iff hs n).1 hc
      obtain ⟨nd, hnd⟩ := h.node hl
      have hsv := (h.data n _ nd hl hnd).2.1
      cases l with
      | some v =>
        exact .inl ⟨by simp [findSlot, hc, hnd, hsv],
          .inl ⟨[], v, List.nil_prefix, by simpa using List.mem_iff_getElem?.2 ⟨n, hl⟩⟩⟩
      | none =>
        have hf : findSlot g slot (b :: todo) = findSlot g (.child n b) todo := by
          simp [findSlot, hc, hnd, hsv]
        rw [hf]
        rcases ih (slot := .child n b) (p := p ++ [b]) ⟨p, hl, rfl⟩ with ⟨h1, ⟨t, v, ht, hv⟩ | h2⟩ |
          ⟨s', p', t', h1, h2, h3, h4⟩
        · exact .inl ⟨h1, .inl ⟨b :: t, v, by simpa using ht, by simpa using hv⟩⟩
        · exact .inl ⟨h1, .inr (by simpa using h2)⟩
        · exact .inr ⟨s', p', t', h1, h2, h3, by rw [← h4]; simp⟩

/-! ## The pairs a tree holds -/

/-- The completed leaves, in order of creation. -/
def leaves (Q : Labels) : List (Nat × List Bool) := Q.filterMap (fun q => q.2.map (fun v => (v, q.1)))

theorem leaves_append (Q R : Labels) : leaves (Q ++ R) = leaves Q ++ leaves R := by simp [leaves]

theorem leaves_newLabels (v : Nat) (p todo : List Bool) : leaves (newLabels v p todo) = [(v, p ++ todo)] := by
  induction todo generalizing p with
  | nil => simp [leaves, newLabels]
  | cons b todo ih =>
    have : leaves (newLabels v p (b :: todo)) = leaves (newLabels v (p ++ [b]) todo) := by
      simp [leaves, newLabels]
    rw [this, ih]
    simp

theorem mem_leaves {Q : Labels} {v : Nat} {p : List Bool} : (v, p) ∈ leaves Q ↔ (p, some v) ∈ Q := by
  simp only [leaves, List.mem_filterMap, Option.map_eq_some_iff, Prod.mk.injEq]
  constructor
  · rintro ⟨⟨q, l⟩, hq, w, rfl, rfl, rfl⟩
    exact hq
  · intro h
    exact ⟨_, h, v, rfl, rfl, rfl⟩

theorem mem_newLabels {v : Nat} {p todo : List Bool} {q : List Bool × Option Nat}
    (h : q ∈ newLabels v p todo) : q.1 <+: p ++ todo := by
  induction todo generalizing p with
  | nil => simp [newLabels] at h; simp [h]
  | cons b todo ih =>
    simp only [newLabels, List.mem_cons] at h
    rcases h with rfl | h
    · exact List.prefix_append _ _
    · simpa using ih h

/-- The loader's tree after these pairs, and no others, were inserted. -/
def Loads (g : Grown) (codes : List (Nat × List Bool)) : Prop :=
  ∃ Q, Shaped g Q ∧ leaves Q = codes ∧ ∀ q ∈ Q, ∃ c ∈ codes, q.1 <+: c.2

theorem loads_nil : Loads { root := none, nodes := [] } [] := ⟨[], shaped_nil, rfl, by simp⟩

/-- The number of nodes of the tree that holds these paths (R188). -/
theorem pathNodes_eq {g : Grown} {Q : Labels} (h : Shaped g Q)
    (hq : ∀ q ∈ Q, ∃ c ∈ leaves Q, q.1 <+: c.2) : pathNodes ((leaves Q).map Prod.snd) = g.nodes.length := by
  have hperm : (((leaves Q).map Prod.snd).flatMap List.inits).dedup.Perm (Q.map Prod.fst) := by
    refine (List.perm_ext_iff_of_nodup (List.nodup_dedup _) h.nodup).2 fun p => ?_
    simp only [List.mem_dedup, List.mem_flatMap, List.mem_map, List.mem_inits]
    constructor
    · rintro ⟨_, ⟨⟨v, c⟩, hc, rfl⟩, s, rfl⟩
      rw [mem_leaves] at hc
      by_cases hs : s = []
      · subst hs
        exact ⟨_, hc, by simp⟩
      · exact ⟨_, h.prefix_mem hc hs, rfl⟩
    · rintro ⟨q, hq', rfl⟩
      obtain ⟨c, hc, hp⟩ := hq q hq'
      exact ⟨c.2, ⟨c, hc, rfl⟩, hp⟩
  rw [pathNodes, hperm.length_eq, List.length_map, h.len]

theorem Loads.pathNodes {g : Grown} {codes : List (Nat × List Bool)} (h : Loads g codes) :
    pathNodes (codes.map Prod.snd) = g.nodes.length := by
  obtain ⟨Q, hs, rfl, hq⟩ := h
  exact pathNodes_eq hs hq

/-- Everything inserting a pair can do (R187 to R190): it conflicts exactly when its path clashes with an
earlier one, it does not fit exactly when the paths have more nodes than the arena, and else it is inserted. -/
theorem insertPair_cases {g : Grown} {codes : List (Nat × List Bool)} (h : Loads g codes) (ncap v : Nat)
    (path : List Bool) :
    ((∃ c ∈ codes, Clash c.2 path) ∧
      insertPair ncap g v path = .error (.fault .conflictingCodePath)) ∨
    ((∀ c ∈ codes, ¬ Clash c.2 path) ∧ ncap < Sys2Proof.pathNodes (codes.map Prod.snd ++ [path]) ∧
      insertPair ncap g v path = .error (.fault .arenaFull)) ∨
    ((∀ c ∈ codes, ¬ Clash c.2 path) ∧ Sys2Proof.pathNodes (codes.map Prod.snd ++ [path]) ≤ ncap ∧
      ∃ g', insertPair ncap g v path = .ok g' ∧ Loads g' (codes ++ [(v, path)])) := by
  obtain ⟨Q, hs, rfl, hq⟩ := h
  rcases hs.findSlot_cases (slot := .root) (p := []) rfl path with ⟨h1, h2⟩ | ⟨slot, p, todo, h1, h2, h3, h4⟩
  · refine .inl ⟨?_, by simp [insertPair, h1]⟩
    rcases h2 with ⟨t, w, ht, hw⟩ | h2
    · exact ⟨(w, t), mem_leaves.2 hw, .inl ht⟩
    · obtain ⟨q, hq', hqp⟩ := List.mem_map.1 h2
      obtain ⟨c, hc, hp⟩ := hq q hq'
      refine ⟨c, hc, .inr ?_⟩
      rw [hqp] at hp
      exact hp
  · rw [List.nil_append] at h4
    subst h4
    have hno : ∀ c ∈ leaves Q, ¬ Clash c.2 (p ++ todo) := by
      rintro ⟨w, c⟩ hc hcl
      rw [mem_leaves] at hc
      have hpc : ¬ p <+: c := by
        rintro ⟨s, rfl⟩
        by_cases hs' : s = []
        · subst hs'
          rw [List.append_nil] at hc
          exact h3 (List.mem_map.2 ⟨_, hc, rfl⟩)
        · exact h3 (List.mem_map.2 ⟨_, hs.prefix_mem hc hs', rfl⟩)
      rcases hcl with hcl | hcl
      · rcases List.prefix_or_prefix_of_prefix hcl (List.prefix_append p todo) with hh | hh
        · simp only at hh
          cases slot with
          | root => cases h2; exact hpc List.nil_prefix
          | child n b =>
            obtain ⟨p0, hn, rfl⟩ := h2
            rcases List.prefix_concat_iff.1 hh with rfl | ⟨s, rfl⟩
            · exact hpc (List.prefix_refl _)
            · by_cases hs' : s = []
              · subst hs'
                rw [List.append_nil] at hn
                obtain ⟨i, hi⟩ := List.mem_iff_getElem?.1 hc
                have := (hs.inj hi hn rfl).2
                simp at this
              · have hm := hs.prefix_mem (List.mem_iff_getElem?.2 ⟨n, hn⟩) hs'
                obtain ⟨i, hi⟩ := List.mem_iff_getElem?.1 hc
                obtain ⟨j, hj⟩ := List.mem_iff_getElem?.1 hm
                have := (hs.inj hi hj rfl).2
                simp at this
        · exact hpc hh
      · exact hpc ((List.prefix_append p todo).trans hcl)
    have hg := hs.grow h2 h3 v todo
    have hl : leaves (Q ++ newLabels v p todo) = leaves Q ++ [(v, p ++ todo)] := by
      rw [leaves_append, leaves_newLabels]
    have hq' : ∀ q ∈ Q ++ newLabels v p todo, ∃ c ∈ leaves Q ++ [(v, p ++ todo)], q.1 <+: c.2 := by
      intro q hqm
      rcases List.mem_append.1 hqm with hqm | hqm
      · obtain ⟨c, hc, hp⟩ := hq q hqm
        exact ⟨c, by simp [hc], hp⟩
      · exact ⟨(v, p ++ todo), by simp, mem_newLabels hqm⟩
    have hn : Sys2Proof.pathNodes ((leaves Q).map Prod.snd ++ [p ++ todo]) =
        g.nodes.length + (todo.length + 1) := by
      have h5 := pathNodes_eq hg (by rw [hl]; exact hq')
      rw [hl, ← hg.len] at h5
      simpa [newLabels_length, hs.len, add_assoc] using h5
    by_cases hfit : ncap < g.nodes.length + (todo.length + 1)
    · exact .inr (.inl ⟨hno, by rw [hn]; exact hfit, by simp [insertPair, h1, hfit]⟩)
    · exact .inr (.inr ⟨hno, by rw [hn]; omega, _, by simp [insertPair, h1, hfit], _, hg, hl, hq'⟩)

end Sys2Proof.Machine
end

