-- ==== Sys2Proof/Laws/Loader.lean ====
section
/-! SUPPORT. The loop of `BUILDT` over the pairs of a table: what it does on text of pairs, and everything it
can do on any text. -/

namespace Sys2Proof.Machine

/-! ## The loop -/

/-- Fuel beyond the number of bytes changes nothing (R196). -/
theorem loadPairs_fuel (c : Config) {k : Nat} (j pair : Nat) (g : Grown) {bytes : List Byte}
    (h : bytes.length ≤ k) : loadPairs c (k + j) pair g bytes = loadPairs c k pair g bytes := by
  induction k generalizing pair g bytes with
  | zero =>
    have : bytes = [] := List.length_eq_zero_iff.1 (by omega)
    subst this
    simp [loadPairs]
  | succ k ih =>
    cases bytes with
    | nil => simp [loadPairs]
    | cons b bytes =>
      rw [show k + 1 + j = (k + j) + 1 by omega]
      simp only [loadPairs]
      obtain ⟨taken, rest, h1, h2, ⟨v, path, -, h3⟩ | ⟨cause, -, h3⟩⟩ := readPair_cases c.asize (b :: bytes)
      · simp only [h3]
        cases insertPair c.ncap g v path with
        | error stop => rfl
        | ok g' =>
          have ht : 0 < taken.length := List.length_pos_iff.2 (h2 (by simp))
          have hl := congrArg List.length h1
          simp only [List.length_cons, List.length_append] at hl h
          exact ih _ _ (by omega)
      · simp only [h3]

/-- The loop with as much fuel as there are bytes. -/
theorem loadPairs_eq (c : Config) {k : Nat} (pair : Nat) (g : Grown) {bytes : List Byte}
    (h : bytes.length ≤ k) : loadPairs c k pair g bytes = loadPairs c bytes.length pair g bytes := by
  obtain ⟨j, rfl⟩ := Nat.exists_eq_add_of_le h
  exact loadPairs_fuel c j pair g (le_refl _)

theorem spelledPair_ne_nil (ds : List Byte) (path : List Bool) : spelledPair ds path ≠ [] := by simp [spelledPair]

/-- A pair that reads and inserts: the loop goes on with the next. -/
theorem loadPairs_step (c : Config) {pair v : Nat} {g g' : Grown} {path : List Bool} {bytes rest : List Byte}
    (hb : bytes ≠ []) (h1 : readPair c.asize bytes = .ok (v, path) rest)
    (h2 : insertPair c.ncap g v path = .ok g') :
    loadPairs c bytes.length pair g bytes = loadPairs c rest.length (pair + 1) g' rest := by
  cases bytes with
  | nil => exact absurd rfl hb
  | cons b bytes =>
    simp only [List.length_cons, loadPairs, h1, h2]
    refine loadPairs_eq c _ _ ?_
    obtain ⟨taken, rest', h3, h4, ⟨v', path', -, h5⟩ | ⟨cause, -, h5⟩⟩ := readPair_cases c.asize (b :: bytes)
    · rw [h1] at h5
      cases h5
      have ht : 0 < taken.length := List.length_pos_iff.2 (h4 (by simp))
      have hl := congrArg List.length h3
      simp only [List.length_cons, List.length_append] at hl
      omega
    · rw [h1] at h5; cases h5

/-- A pair that does not insert: the loop stops behind it (R189). -/
theorem loadPairs_rejected (c : Config) {pair v : Nat} {g : Grown} {path : List Bool} {bytes rest : List Byte}
    {stop : LoadStop} (hb : bytes ≠ []) (h1 : readPair c.asize bytes = .ok (v, path) rest)
    (h2 : insertPair c.ncap g v path = .error stop) :
    loadPairs c bytes.length pair g bytes = { tree := g, pair := pair, rest := rest, stop := stop } := by
  cases bytes with
  | nil => exact absurd rfl hb
  | cons b bytes => simp only [List.length_cons, loadPairs, h1, h2]

/-- Text that is no pair: the loop stops in it (R184 to R186). -/
theorem loadPairs_bad (c : Config) {pair : Nat} {g : Grown} {bytes rest : List Byte} {cause : Cause}
    (hb : bytes ≠ []) (h1 : readPair c.asize bytes = .bad cause rest) :
    loadPairs c bytes.length pair g bytes =
      { tree := g, pair := pair, rest := rest, stop := .fault cause } := by
  cases bytes with
  | nil => exact absurd rfl hb
  | cons b bytes => simp only [List.length_cons, loadPairs, h1]

/-! ## Tables of pairs -/

/-- The node count of a table grows with it. -/
theorem pathNodes_mono (ps qs : List (List Bool)) : pathNodes ps ≤ pathNodes (ps ++ qs) := by
  unfold pathNodes
  refine List.Subperm.length_le (List.subperm_of_subset (List.nodup_dedup _) fun x hx => ?_)
  rw [List.mem_dedup] at hx ⊢
  simp only [List.flatMap_append, List.mem_append]
  exact .inl hx

/-- The pairs a block with these parameters can hold together (R185, R187, R189, R194). -/
structure Admissible (c : Config) (codes : List (Nat × List Bool)) : Prop where
  ids : ∀ p ∈ codes, p.1 ≤ c.asize
  apart : codes.Pairwise (fun p q => ¬ Clash p.2 q.2)
  fits : pathNodes (codes.map Prod.snd) ≤ c.ncap

theorem admissible_nil (c : Config) : Admissible c [] :=
  ⟨by simp, by simp, by simp [pathNodes]⟩

theorem Admissible.left {c : Config} {ps qs : List (Nat × List Bool)} (h : Admissible c (ps ++ qs)) :
    Admissible c ps := by
  refine ⟨fun p hp => h.ids p (by simp [hp]), (List.pairwise_append.1 h.apart).1, ?_⟩
  have := h.fits
  rw [List.map_append] at this
  exact (pathNodes_mono _ _).trans this

theorem Admissible.snoc {c : Config} {old : List (Nat × List Bool)} {v : Nat} {path : List Bool}
    (ho : Admissible c old) (hv : v ≤ c.asize) (hno : ∀ p ∈ old, ¬ Clash p.2 path)
    (hle : pathNodes (old.map Prod.snd ++ [path]) ≤ c.ncap) : Admissible c (old ++ [(v, path)]) := by
  refine ⟨fun p hp => ?_, ?_, by simpa using hle⟩
  · rcases List.mem_append.1 hp with hp | hp
    · exact ho.ids p hp
    · simp at hp; subst hp; exact hv
  · refine List.pairwise_append.2 ⟨ho.apart, by simp, fun a ha b hb => ?_⟩
    simp at hb; subst hb; exact hno a ha

/-- Everything the loop can do on the text of a list of pairs, their symbols spelled anyhow: load them all and go on
behind them, or stop with a fault in one of them; it loads them all exactly when the block can hold them. -/
theorem loadPairs_spelled (c : Config) {g : Grown} {old : List (Nat × List Bool)} (hg : Loads g old)
    (ho : Admissible c old) (pairs : List (List Byte × List Bool)) (hd : ∀ p ∈ pairs, IsDigits p.1) (pair : Nat) :
    (Admissible c (old ++ pairValues pairs) ∧ ∃ g', Loads g' (old ++ pairValues pairs) ∧ ∀ rest,
      loadPairs c (spelledText pairs ++ rest).length pair g (spelledText pairs ++ rest) =
        loadPairs c rest.length (pair + pairs.length) g' rest) ∨
    (¬ Admissible c (old ++ pairValues pairs) ∧ ∀ rest, ∃ cause,
      (loadPairs c (spelledText pairs ++ rest).length pair g (spelledText pairs ++ rest)).stop = .fault cause) := by
  induction pairs generalizing g old pair with
  | nil =>
    exact .inl ⟨by simpa [pairValues] using ho, g, by simpa [pairValues] using hg,
      fun rest => by simp [spelledText]⟩
  | cons p pairs ih =>
    obtain ⟨ds, path⟩ := p
    have hds : IsDigits ds := hd (ds, path) (by simp)
    have htext : ∀ rest, spelledText ((ds, path) :: pairs) ++ rest =
        spelledPair ds path ++ (spelledText pairs ++ rest) := by simp [spelledText]
    have hne : ∀ rest, spelledPair ds path ++ (spelledText pairs ++ rest) ≠ [] := by
      intro rest; simp [spelledPair_ne_nil]
    have happ : old ++ pairValues ((ds, path) :: pairs) = (old ++ [(digitsValue ds, path)]) ++ pairValues pairs := by
      simp [pairValues]
    rw [happ]
    by_cases hv : digitsValue ds ≤ c.asize
    · have hread : ∀ rest, readPair c.asize (spelledPair ds path ++ (spelledText pairs ++ rest)) =
          .ok (digitsValue ds, path) (spelledText pairs ++ rest) := fun rest => readPair_spelled_ok hds hv _ _
      rcases insertPair_cases hg c.ncap (digitsValue ds) path with
        ⟨⟨q, hq, hcl⟩, hi⟩ | ⟨-, hlt, hi⟩ | ⟨hno, hle, g', hi, hg'⟩
      · refine .inr ⟨fun ha => ?_, fun rest => ⟨.conflictingCodePath, ?_⟩⟩
        · exact (List.pairwise_append.1 ha.left.apart).2.2 q hq _ (List.mem_singleton_self _) hcl
        · rw [htext, loadPairs_rejected c (hne rest) (hread rest) hi]
      · refine .inr ⟨fun ha => ?_, fun rest => ⟨.arenaFull, ?_⟩⟩
        · have := ha.left.fits
          simp only [List.map_append, List.map_cons, List.map_nil] at this
          omega
        · rw [htext, loadPairs_rejected c (hne rest) (hread rest) hi]
      · have hstep : ∀ rest, loadPairs c (spelledPair ds path ++ (spelledText pairs ++ rest)).length pair g
            (spelledPair ds path ++ (spelledText pairs ++ rest)) =
              loadPairs c (spelledText pairs ++ rest).length (pair + 1) g' (spelledText pairs ++ rest) :=
          fun rest => loadPairs_step c (hne rest) (hread rest) hi
        rcases ih hg' (ho.snoc hv hno hle) (fun p hp => hd p (by simp [hp])) (pair + 1) with
          ⟨h1, g'', h2, h3⟩ | ⟨h1, h2⟩
        · refine .inl ⟨h1, g'', h2, fun rest => ?_⟩
          rw [htext, hstep, h3, List.length_cons]
          congr 1
          omega
        · refine .inr ⟨h1, fun rest => ?_⟩
          rw [htext, hstep]
          exact h2 rest
    · refine .inr ⟨fun ha => hv (ha.ids (digitsValue ds, path) (by simp)), fun rest => ⟨.badSymbol, ?_⟩⟩
      rw [htext, loadPairs_bad c (hne rest) ((readPair_spelled hds _ _ _).trans (if_pos (by omega)))]

/-- The same on a table as `WRITE` prints it. -/
theorem loadPairs_codes (c : Config) {g : Grown} {old : List (Nat × List Bool)} (hg : Loads g old)
    (ho : Admissible c old) (codes : List (Nat × List Bool)) (pair : Nat) :
    (Admissible c (old ++ codes) ∧ ∃ g', Loads g' (old ++ codes) ∧ ∀ rest,
      loadPairs c (tableText codes ++ rest).length pair g (tableText codes ++ rest) =
        loadPairs c rest.length (pair + codes.length) g' rest) ∨
    (¬ Admissible c (old ++ codes) ∧ ∀ rest, ∃ cause,
      (loadPairs c (tableText codes ++ rest).length pair g (tableText codes ++ rest)).stop = .fault cause) := by
  have := loadPairs_spelled c hg ho (codes.map (fun c => (dec c.1, c.2))) (fun p hp => by
    obtain ⟨q, -, rfl⟩ := List.mem_map.1 hp
    exact (isDigits_dec q.1).1) pair
  rwa [← tableText_eq, pairValues_dec, List.length_map] at this

/-- Everything the loop can do on any text: it takes bytes from the front, its tree holds pairs the block can
hold, and it ends complete or with a fault (R196). -/
theorem loadPairs_cases (c : Config) {k pair : Nat} {g : Grown} {old : List (Nat × List Bool)}
    (hg : Loads g old) (ho : Admissible c old) {bytes : List Byte} (hk : bytes.length ≤ k) :
    (∃ taken, bytes = taken ++ (loadPairs c k pair g bytes).rest) ∧
    (∃ codes, Loads (loadPairs c k pair g bytes).tree codes ∧ Admissible c codes) ∧
    ((loadPairs c k pair g bytes).stop = .complete ∨ ∃ cause,
      (loadPairs c k pair g bytes).stop = .fault cause ∧ cause ∈ mayRaise .buildt) := by
  induction k generalizing pair g old bytes with
  | zero =>
    have : bytes = [] := List.length_eq_zero_iff.1 (by omega)
    subst this
    exact ⟨⟨[], rfl⟩, ⟨old, hg, ho⟩, .inl rfl⟩
  | succ k ih =>
    cases bytes with
    | nil => exact ⟨⟨[], rfl⟩, ⟨old, hg, ho⟩, .inl rfl⟩
    | cons b bytes =>
      simp only [loadPairs]
      obtain ⟨taken, rest, h1, h2, ⟨v, path, hv, h3⟩ | ⟨cause, hc, h3⟩⟩ := readPair_cases c.asize (b :: bytes)
      · simp only [h3]
        rcases insertPair_cases hg c.ncap v path with ⟨-, hi⟩ | ⟨-, -, hi⟩ | ⟨hno, hle, g', hi, hg'⟩
        · simp only [hi]
          exact ⟨⟨taken, h1⟩, ⟨old, hg, ho⟩, .inr ⟨_, rfl, by simp [mayRaise]⟩⟩
        · simp only [hi]
          exact ⟨⟨taken, h1⟩, ⟨old, hg, ho⟩, .inr ⟨_, rfl, by simp [mayRaise]⟩⟩
        · simp only [hi]
          have ht : 0 < taken.length := List.length_pos_iff.2 (h2 (by simp))
          have hl := congrArg List.length h1
          simp only [List.length_cons, List.length_append] at hl hk
          obtain ⟨⟨t', h4⟩, h5⟩ := ih (pair := pair + 1) hg' (ho.snoc hv hno hle) (bytes := rest) (by omega)
          exact ⟨⟨taken ++ t', by rw [h1, List.append_assoc, ← h4]⟩, h5⟩
      · simp only [h3]
        exact ⟨⟨taken, h1⟩, ⟨old, hg, ho⟩, .inr ⟨_, rfl, hc⟩⟩

/-! ## Text that is no pair, and the whole command -/

/-- Reading text that is no pair takes it up to the offending byte (R184, R185, R190). -/
theorem readPair_bad {asize : Nat} {bad : List Byte} {cause : Cause} (h : BadPair asize bad cause) (rest : List Byte) :
    readPair asize (bad ++ rest) = .bad cause rest ∧ bad ≠ [] := by
  cases h with
  | emptySymbol => simp [readPair, symbolLine]
  | symbolByte ds c hd hc hl =>
    refine ⟨?_, by simp⟩
    rw [readPair, List.append_assoc, symbolLine_append hd]
    simp [symbolLine, hc, hl]
  | symbolRange ds hd hv =>
    refine ⟨?_, by simp⟩
    rw [readPair, List.append_assoc]
    rw [show [lineFeed] ++ rest = lineFeed :: rest from rfl, symbolLine_digits hd]
    simp [hv]
  | pathByte ds bs c hd hv hb h0 h1 hl =>
    refine ⟨?_, by simp⟩
    rw [readPair, show ds ++ lineFeed :: bs ++ [c] ++ rest = ds ++ lineFeed :: (bs ++ c :: rest) by simp, symbolLine_digits hd]
    simp only [show ¬ asize < digitsValue ds by omega, if_false]
    have : ∀ (bs : List Byte), IsBits bs → ∀ p, pathLine p (bs ++ c :: rest) = .bad .badTableSyntax rest := by
      intro bs hb
      induction bs with
      | nil => intro p; simp [pathLine, hl, bitChar, h0, h1]
      | cons b bs ih =>
        intro p
        rcases hb b (by simp) with rfl | rfl <;> simp [pathLine, lineFeed, bitChar, ih (fun x hx => hb x (by simp [hx]))]
    rw [this bs hb]

/-- Reading text cut off by the end of input takes all of it (R186). -/
theorem readPair_cut {asize : Nat} {cut : List Byte} (h : CutPair asize cut) :
    readPair asize cut = .bad .tableTruncated [] ∧ cut ≠ [] := by
  cases h with
  | inSymbol ds hd =>
    refine ⟨?_, hd.1⟩
    have := symbolLine_append hd.2 0 0 []
    rw [List.append_nil] at this
    simp [readPair, this, symbolLine]
  | inPath ds bs hd hv hb =>
    refine ⟨?_, by simp⟩
    rw [readPair, symbolLine_digits hd]
    simp only [show ¬ asize < digitsValue ds by omega, if_false]
    have : ∀ (bs : List Byte), IsBits bs → ∀ p, pathLine p bs = .bad .tableTruncated [] := by
      intro bs hb
      induction bs with
      | nil => intro p; simp [pathLine]
      | cons b bs ih =>
        intro p
        rcases hb b (by simp) with rfl | rfl <;> simp [pathLine, lineFeed, bitChar, ih (fun x hx => hb x (by simp [hx]))]
    rw [this bs hb]

/-- What `BUILDT` answers, from how its loop ends (R180, R191). -/
theorem exec_buildt {s : State} (h : s.mode = .idle) {l : Loaded}
    (hl : loadPairs s.cfg s.tabIn.length 0 { root := none, nodes := [] } s.tabIn = l) :
    (l.stop = .complete → exec .buildt s = .next { s with
        tv := l.tree.root.isSome, src := true, eos := false, rv := false, rsym := 0, cur := none, pq := [],
        root := l.tree.root, nodes := l.tree.nodes, tabIn := l.rest }) ∧
    (∀ c, l.stop = .fault c → exec .buildt s = .next { s with
        mode := .faulted, fcause := some c, finfo := word l.pair,
        tv := false, src := true, eos := false, rv := false, rsym := 0, cur := none, pq := [],
        root := l.tree.root, nodes := l.tree.nodes, tabIn := l.rest }) := by
  have hl' : loadPairs (setMode .run s).cfg (setMode .run s).tabIn.length 0 { root := none, nodes := [] } (setMode .run s).tabIn = l := hl
  constructor
  · intro hs
    simp only [exec, execBuildt, runCommand, h, buildtBody, hl', hs]
    rw [← h]
    rfl
  · intro c hs
    simp only [exec, execBuildt, runCommand, h, buildtBody, hl', hs]
    rfl

end Sys2Proof.Machine
end

