-- ==== Sys2Proof/Laws/Grown.lean ====
section
/-! SUPPORT. What a tree grown from a table is: its leaves, its order, who points to whom, and, for the table of a
tree, that tree. -/

namespace Sys2Proof.Machine

/-! ## Code trees and their paths -/

/-- The paths of all nodes of a tree, forks and leaves. -/
def treePaths : CodeTree → List (List Bool)
  | .leaf _ => [[]]
  | .fork l r => [] :: ((treePaths l).map (false :: ·) ++ (treePaths r).map (true :: ·))

theorem treePaths_length (T : CodeTree) : (treePaths T).length = T.size := by
  induction T with
  | leaf v => rfl
  | fork l r ihl ihr => simp [treePaths, CodeTree.size, ihl, ihr]

theorem treePaths_nodup (T : CodeTree) : (treePaths T).Nodup := by
  induction T with
  | leaf v => simp [treePaths]
  | fork l r ihl ihr =>
    refine List.nodup_cons.2 ⟨by simp, List.Nodup.append (ihl.map ?_) (ihr.map ?_) ?_⟩
    · intro a b h; simpa using h
    · intro a b h; simpa using h
    · intro x h1 h2
      obtain ⟨a, -, rfl⟩ := List.mem_map.1 h1
      obtain ⟨b, -, h⟩ := List.mem_map.1 h2
      cases h

theorem CodeTree.codes_ne_nil (T : CodeTree) : T.codes ≠ [] := by
  induction T with
  | leaf v => simp [CodeTree.codes]
  | fork l r ihl ihr => simp [CodeTree.codes, ihl]

/-- The nodes of a tree are the prefixes of its codes. -/
theorem mem_treePaths {T : CodeTree} {p : List Bool} : p ∈ treePaths T ↔ ∃ c ∈ T.codes, p <+: c.2 := by
  induction T generalizing p with
  | leaf v => simp [treePaths, CodeTree.codes]
  | fork l r ihl ihr =>
    simp only [treePaths, CodeTree.codes, List.mem_cons, List.mem_append, List.mem_map]
    constructor
    · rintro (rfl | ⟨q, hq, rfl⟩ | ⟨q, hq, rfl⟩)
      · obtain ⟨c, hc⟩ := List.exists_mem_of_ne_nil _ (CodeTree.codes_ne_nil l)
        exact ⟨_, .inl ⟨c, hc, rfl⟩, List.nil_prefix⟩
      · obtain ⟨c, hc, hp⟩ := ihl.1 hq
        exact ⟨_, .inl ⟨c, hc, rfl⟩, by simpa using hp⟩
      · obtain ⟨c, hc, hp⟩ := ihr.1 hq
        exact ⟨_, .inr ⟨c, hc, rfl⟩, by simpa using hp⟩
    · rintro ⟨_, ⟨c, hc, rfl⟩ | ⟨c, hc, rfl⟩, hp⟩
      · cases p with
        | nil => exact .inl rfl
        | cons b p =>
          obtain ⟨rfl, hp'⟩ := List.cons_prefix_cons.1 hp
          exact .inr (.inl ⟨p, ihl.2 ⟨c, hc, hp'⟩, rfl⟩)
      · cases p with
        | nil => exact .inl rfl
        | cons b p =>
          obtain ⟨rfl, hp'⟩ := List.cons_prefix_cons.1 hp
          exact .inr (.inr ⟨p, ihr.2 ⟨c, hc, hp'⟩, rfl⟩)

/-- The table of a tree has as many nodes as the tree. -/
theorem pathNodes_codes (T : CodeTree) : pathNodes (T.codes.map Prod.snd) = T.size := by
  have : ((T.codes.map Prod.snd).flatMap List.inits).dedup.Perm (treePaths T) := by
    refine (List.perm_ext_iff_of_nodup (List.nodup_dedup _) (treePaths_nodup T)).2 fun p => ?_
    simp only [List.mem_dedup, List.mem_flatMap, List.mem_map, List.mem_inits, mem_treePaths]
    constructor
    · rintro ⟨_, ⟨c, hc, rfl⟩, hp⟩; exact ⟨c, hc, hp⟩
    · rintro ⟨c, hc, hp⟩; exact ⟨_, ⟨c, hc, rfl⟩, hp⟩
  rw [pathNodes, this.length_eq, treePaths_length]

theorem not_clash_cons {b c : Bool} {p q : List Bool} :
    ¬ Clash (b :: p) (c :: q) ↔ b ≠ c ∨ ¬ Clash p q := by
  simp only [Clash, List.cons_prefix_cons]
  by_cases h : b = c
  · subst h; simp
  · simp [h, Ne.symm h]

/-- The codes of a tree do not clash (R104). -/
theorem codes_apart (T : CodeTree) : T.codes.Pairwise (fun c d => ¬ Clash c.2 d.2) := by
  induction T with
  | leaf v => simp [CodeTree.codes]
  | fork l r ihl ihr =>
    simp only [CodeTree.codes, List.pairwise_append, List.pairwise_map, List.mem_map]
    refine ⟨ihl.imp fun h => not_clash_cons.2 (.inr h), ihr.imp fun h => not_clash_cons.2 (.inr h), ?_⟩
    rintro _ ⟨c, -, rfl⟩ _ ⟨d, -, rfl⟩
    exact not_clash_cons.2 (.inl (by simp))

/-- The table of a tree is one the block can hold. -/
theorem admissible_codes {c : Config} {T : CodeTree} (h1 : ∀ p ∈ T.codes, p.1 ≤ c.asize)
    (h2 : T.size ≤ c.ncap) : Admissible c T.codes :=
  ⟨h1, codes_apart T, by rw [pathNodes_codes]; exact h2⟩

/-! ## Nodes of a grown tree -/

/-- A node of a completed leaf has no child. -/
theorem Shaped.leaf_child {g : Grown} {Q : Labels} (h : Shaped g Q) {i v : Nat} {p : List Bool} {nd : Node}
    (hi : Q[i]? = some (p, some v)) (hn : g.nodes[i]? = some nd) (b : Bool) : child nd b = none := by
  rcases hc : child nd b with _ | c
  · rfl
  · obtain ⟨l, hl⟩ := (h.kids _ _ _ _ _ hi hn).1 hc
    obtain ⟨j, -, hj⟩ := h.closed _ _ _ _ hl
    have := (h.inj hi hj rfl).2
    simp at this

theorem isLeaf_of_child_none {nd : Node} (h : ∀ b, child nd b = none) : isLeaf nd = true :=
  isLeaf_iff.2 ⟨h false, h true⟩

/-- A node of a placeholder has a child, once every pair is complete. -/
theorem Shaped.placeholder_child {g : Grown} {Q : Labels} (h : Shaped g Q)
    (hq : ∀ q ∈ Q, ∃ c ∈ leaves Q, q.1 <+: c.2) {i : Nat} {p : List Bool} {nd : Node}
    (hi : Q[i]? = some (p, none)) (hn : g.nodes[i]? = some nd) : ∃ b c, child nd b = some c := by
  obtain ⟨⟨v, c⟩, hc, s, hs⟩ := hq _ (List.mem_iff_getElem?.2 ⟨i, hi⟩)
  simp only at hs
  subst hs
  rw [mem_leaves] at hc
  cases s with
  | nil =>
    rw [List.append_nil] at hc
    obtain ⟨j, hj⟩ := List.mem_iff_getElem?.1 hc
    have := (h.inj hi hj rfl).2
    simp at this
  | cons b s =>
    have : ∃ l, (p ++ [b], l) ∈ Q := by
      rw [show p ++ b :: s = (p ++ [b]) ++ s by simp] at hc
      by_cases hs : s = []
      · subst hs; rw [List.append_nil] at hc; exact ⟨_, hc⟩
      · exact ⟨_, h.prefix_mem hc hs⟩
    obtain ⟨l, hl⟩ := this
    obtain ⟨j, hj⟩ := List.mem_iff_getElem?.1 hl
    exact ⟨b, j, (h.kids _ _ _ _ _ hi hn).2 ⟨l, hj⟩⟩

/-- The two leaf notions agree in a grown tree (R46). -/
theorem Shaped.leafAgree {g : Grown} {Q : Labels} (h : Shaped g Q)
    (hq : ∀ q ∈ Q, ∃ c ∈ leaves Q, q.1 <+: c.2) {i : Nat} {nd : Node} (hn : g.nodes[i]? = some nd) :
    nd.symv = isLeaf nd := by
  obtain ⟨⟨p, l⟩, hi⟩ := h.label hn
  rw [(h.data _ _ _ hi hn).2.1]
  cases l with
  | some v => simp [isLeaf_of_child_none (h.leaf_child hi hn)]
  | none =>
    obtain ⟨b, c, hc⟩ := h.placeholder_child hq hi hn
    simp [isLeaf_of_child hc]

/-- The path of the node a path leads to. -/
theorem Shaped.follow_iff {g : Grown} {Q : Labels} (h : Shaped g Q) {i j : Nat} {p s : List Bool}
    {l : Option Nat} (hi : Q[i]? = some (p, l)) :
    follow g.nodes i s = some j ↔ ∃ l', Q[j]? = some (p ++ s, l') := by
  induction s generalizing i p l with
  | nil =>
    simp only [follow, List.append_nil, Option.some_inj]
    constructor
    · rintro rfl; exact ⟨l, hi⟩
    · rintro ⟨l', hj⟩; exact (h.inj hi hj rfl).1
  | cons b s ih =>
    obtain ⟨nd, hn⟩ := h.node hi
    have hk := fun c => h.kids i _ nd b c hi hn
    simp only [follow, hn]
    rcases hc : child nd b with _ | c
    · simp only [reduceCtorEq, false_iff, not_exists]
      intro l' hj
      have hmem := List.mem_iff_getElem?.2 ⟨j, hj⟩
      rw [show p ++ b :: s = (p ++ [b]) ++ s by simp] at hmem
      have : ∃ l, (p ++ [b], l) ∈ Q := by
        by_cases hs : s = []
        · subst hs; rw [List.append_nil] at hmem; exact ⟨_, hmem⟩
        · exact ⟨_, h.prefix_mem hmem hs⟩
      obtain ⟨l2, hl2⟩ := this
      obtain ⟨c, hc'⟩ := List.mem_iff_getElem?.1 hl2
      have := (hk c).2 ⟨_, hc'⟩
      rw [hc] at this; cases this
    · obtain ⟨l2, hl2⟩ := (hk c).1 hc
      simp only
      rw [ih hl2]
      simp

/-- The leaves of a loaded tree are the pairs (R194). -/
theorem Loads.follow_iff {g : Grown} {codes : List (Nat × List Bool)} (h : Loads g codes) (v : Nat)
    (path : List Bool) : (v, path) ∈ codes ↔ ∃ n nd, follow g.nodes 0 path = some n ∧
      g.nodes[n]? = some nd ∧ isLeaf nd = true ∧ nd.sym = v := by
  obtain ⟨Q, hs, rfl, hq⟩ := h
  cases hQ : Q with
  | nil =>
    subst hQ
    have : g.nodes = [] := List.length_eq_zero_iff.1 hs.len.symm
    simp [leaves, this]
  | cons q0 Q0 =>
    rw [← hQ]
    obtain ⟨p0, l0⟩ := q0
    have h0 : Q[0]? = some (p0, l0) := by simp [hQ]
    have hp0 : p0 = [] := hs.head _ h0
    subst hp0
    rw [mem_leaves]
    constructor
    · intro hm
      obtain ⟨n, hn⟩ := List.mem_iff_getElem?.1 hm
      obtain ⟨nd, hnd⟩ := hs.node hn
      exact ⟨n, nd, (hs.follow_iff h0).2 ⟨_, by simpa using hn⟩, hnd,
        isLeaf_of_child_none (hs.leaf_child hn hnd), by simpa using (hs.data _ _ _ hn hnd).1⟩
    · rintro ⟨n, nd, hf, hnd, hl, rfl⟩
      obtain ⟨l, hn⟩ := (hs.follow_iff h0).1 hf
      rw [List.nil_append] at hn
      have hd := hs.data _ _ _ hn hnd
      have hag := hs.leafAgree hq hnd
      rw [hd.2.1, hl] at hag
      obtain ⟨w, hw⟩ := Option.isSome_iff_exists.1 hag
      simp only at hw
      subst hw
      rw [hd.1]
      exact List.mem_iff_getElem?.2 ⟨n, hn⟩

/-- A grown tree that has all codes of a tree under a node holds that tree there. -/
theorem Shaped.holds {g : Grown} {Q : Labels} (h : Shaped g Q) {T : CodeTree} {i : Nat} {p : List Bool}
    {l : Option Nat} (hi : Q[i]? = some (p, l)) (hT : ∀ c ∈ T.codes, (c.1, p ++ c.2) ∈ leaves Q) :
    Holds g.nodes i T := by
  induction T generalizing i p l with
  | leaf v =>
    have hm := hT (v, []) (by simp [CodeTree.codes])
    rw [List.append_nil, mem_leaves] at hm
    obtain ⟨j, hj⟩ := List.mem_iff_getElem?.1 hm
    obtain ⟨rfl, hl⟩ := h.inj hi hj rfl
    rw [hl] at hi
    obtain ⟨nd, hn⟩ := h.node hi
    exact ⟨nd, hn, isLeaf_of_child_none (h.leaf_child hi hn), by simpa using (h.data _ _ _ hi hn).1⟩
  | fork L R ihl ihr =>
    obtain ⟨nd, hn⟩ := h.node hi
    have hkid : ∀ b (U : CodeTree), (∀ c ∈ U.codes, (c.1, (p ++ [b]) ++ c.2) ∈ leaves Q) →
        ∃ a l, child nd b = some a ∧ Q[a]? = some (p ++ [b], l) := by
      intro b U hU
      obtain ⟨c, hc⟩ := List.exists_mem_of_ne_nil _ (CodeTree.codes_ne_nil U)
      have hm := hU c hc
      rw [mem_leaves] at hm
      have : ∃ l, (p ++ [b], l) ∈ Q := by
        by_cases hs : c.2 = []
        · rw [hs, List.append_nil] at hm; exact ⟨_, hm⟩
        · exact ⟨_, h.prefix_mem hm hs⟩
      obtain ⟨l, hl⟩ := this
      obtain ⟨a, ha⟩ := List.mem_iff_getElem?.1 hl
      exact ⟨a, l, (h.kids _ _ _ _ _ hi hn).2 ⟨l, ha⟩, ha⟩
    have hL : ∀ c ∈ L.codes, (c.1, (p ++ [false]) ++ c.2) ∈ leaves Q := fun c hc => by
      have := hT (c.1, false :: c.2) (by simp [CodeTree.codes, hc])
      simpa using this
    have hR : ∀ c ∈ R.codes, (c.1, (p ++ [true]) ++ c.2) ∈ leaves Q := fun c hc => by
      have := hT (c.1, true :: c.2) (by simp [CodeTree.codes, hc])
      simpa using this
    obtain ⟨a, la, ha, hqa⟩ := hkid false L hL
    obtain ⟨b, lb, hb, hqb⟩ := hkid true R hR
    exact ⟨nd, a, b, hn, ha, hb, ihl hqa hL, ihr hqb hR⟩

/-- Loading the table of a tree gives that tree at slot 0 (R168). -/
theorem Loads.holds {g : Grown} {T : CodeTree} (h : Loads g T.codes) : Holds g.nodes 0 T := by
  obtain ⟨Q, hs, hl, hq⟩ := h
  cases hQ : Q with
  | nil =>
    subst hQ
    exact absurd hl.symm (CodeTree.codes_ne_nil T)
  | cons q0 Q0 =>
    obtain ⟨p0, l0⟩ := q0
    have h0 : Q[0]? = some (p0, l0) := by simp [hQ]
    have hp0 : p0 = [] := hs.head _ h0
    subst hp0
    exact hs.holds h0 (by intro c hc; rw [hl]; simpa using hc)

theorem Loads.root {g : Grown} {codes : List (Nat × List Bool)} (h : Loads g codes) :
    g.root = if codes.isEmpty then none else some 0 := by
  obtain ⟨Q, hs, rfl, hq⟩ := h
  rw [hs.root]
  cases Q with
  | nil => simp [leaves]
  | cons q Q =>
    obtain ⟨c, hc, -⟩ := hq q (by simp)
    have : leaves (q :: Q) ≠ [] := List.ne_nil_of_mem hc
    simp [this]

/-- Every node of a loaded tree is as the invariant asks (R42 to R46). -/
theorem Loads.nodeOk {g : Grown} {codes : List (Nat × List Bool)} (h : Loads g codes) {c : Config}
    (hc : Admissible c codes) {i : Nat} {nd : Node} (hn : g.nodes[i]? = some nd) :
    NodeOk c true g.nodes.length i nd := by
  obtain ⟨Q, hs, rfl, hq⟩ := h
  obtain ⟨⟨p, l⟩, hi⟩ := hs.label hn
  obtain ⟨h1, h2, h3⟩ := hs.data _ _ _ hi hn
  refine ⟨fun b j hj => ?_, fun b j hj => ?_, hs.leafAgree hq hn, ?_, fun hsv => ?_, by simp [h3], fun _ => h3,
    by simp⟩
  · obtain ⟨l', hl'⟩ := (hs.kids _ _ _ _ _ hi hn).1 hj
    rw [← hs.len]
    exact (List.getElem?_eq_some_iff.1 hl').1
  · obtain ⟨l', hl'⟩ := (hs.kids _ _ _ _ _ hi hn).1 hj
    obtain ⟨k, hk, hk'⟩ := hs.closed _ _ _ _ hl'
    have := (hs.inj hi hk' rfl).1
    simp only [if_true]
    omega
  · cases l with
    | none => simp [h1]
    | some v =>
      rw [h1]
      exact hc.ids (v, p) (mem_leaves.2 (List.mem_iff_getElem?.2 ⟨i, hi⟩))
  · cases l with
    | none => simpa using h1
    | some v => rw [h2] at hsv; simp at hsv

/-! ## Who points to a node -/

/-- The pointers of a tree: its root's, then each node's (R48). -/
def pointers (root : Ptr) (nodes : List Node) : List Nat :=
  root.toList ++ nodes.flatMap (fun nd => nd.left.toList ++ nd.right.toList)

theorem mem_kids {nd : Node} {c : Nat} : c ∈ nd.left.toList ++ nd.right.toList ↔ ∃ b, child nd b = some c := by
  simp [child, Option.mem_toList]

/-- Every node of a loaded tree is pointed to exactly once (R48). -/
theorem Loads.pointers {g : Grown} {codes : List (Nat × List Bool)} (h : Loads g codes) :
    (Machine.pointers g.root g.nodes).Perm (List.range g.nodes.length) := by
  obtain ⟨Q, hs, rfl, hq⟩ := h
  refine (List.perm_ext_iff_of_nodup ?_ List.nodup_range).2 fun c => ?_
  · refine List.Nodup.append (by cases g.root <;> simp) (List.nodup_flatMap.2 ⟨?_, ?_⟩) ?_
    · intro nd hnd
      obtain ⟨i, hn⟩ := List.mem_iff_getElem?.1 hnd
      obtain ⟨q, hi⟩ := hs.label hn
      refine List.Nodup.append (by cases nd.left <;> simp) (by cases nd.right <;> simp) ?_
      intro c h1 h2
      obtain ⟨l1, h1⟩ := (hs.kids _ _ _ false c hi hn).1 (by simpa [child] using h1)
      obtain ⟨l2, h2⟩ := (hs.kids _ _ _ true c hi hn).1 (by simpa [child] using h2)
      rw [h1] at h2
      simp at h2
    · rw [List.pairwise_iff_getElem]
      intro i j hi hj hij c h1 h2
      obtain ⟨b1, h1⟩ := mem_kids.1 h1
      obtain ⟨b2, h2⟩ := mem_kids.1 h2
      have hni := List.getElem?_eq_getElem hi
      have hnj := List.getElem?_eq_getElem hj
      obtain ⟨q1, hq1⟩ := hs.label hni
      obtain ⟨q2, hq2⟩ := hs.label hnj
      obtain ⟨l1, h1⟩ := (hs.kids _ _ _ _ _ hq1 hni).1 h1
      obtain ⟨l2, h2⟩ := (hs.kids _ _ _ _ _ hq2 hnj).1 h2
      rw [h1] at h2
      simp only [Option.some_inj, Prod.mk.injEq] at h2
      have := (hs.inj hq1 hq2 (List.append_inj' h2.1 rfl).1).1
      omega
    · intro c h1 h2
      obtain ⟨nd, hnd, h2⟩ := List.mem_flatMap.1 h2
      obtain ⟨b, h2⟩ := mem_kids.1 h2
      obtain ⟨i, hn⟩ := List.mem_iff_getElem?.1 hnd
      obtain ⟨q, hi⟩ := hs.label hn
      obtain ⟨l, h2⟩ := (hs.kids _ _ _ _ _ hi hn).1 h2
      obtain ⟨k, hk, -⟩ := hs.closed _ _ _ _ h2
      rw [hs.root] at h1
      split at h1
      · simp at h1
      · simp at h1; omega
  · rw [List.mem_range, ← hs.len]
    constructor
    · intro hc
      rcases List.mem_append.1 hc with hc | hc
      · rw [hs.root] at hc
        cases Q with
        | nil => simp at hc
        | cons q Q => simp at hc; simp [hc]
      · obtain ⟨nd, hnd, hc⟩ := List.mem_flatMap.1 hc
        obtain ⟨b, hc⟩ := mem_kids.1 hc
        obtain ⟨i, hn⟩ := List.mem_iff_getElem?.1 hnd
        obtain ⟨q, hi⟩ := hs.label hn
        obtain ⟨l, hc⟩ := (hs.kids _ _ _ _ _ hi hn).1 hc
        exact (List.getElem?_eq_some_iff.1 hc).1
    · intro hc
      have hqc := List.getElem?_eq_getElem hc
      generalize Q[c] = q at hqc
      obtain ⟨p, l⟩ := q
      rcases List.eq_nil_or_concat p with rfl | ⟨p', b, rfl⟩
      · have h0 : Q[0]? = some Q[0] := List.getElem?_eq_getElem (by omega)
        have := (hs.inj h0 hqc (hs.head _ h0)).1
        subst this
        have : Q ≠ [] := by rintro rfl; simp at hc
        exact List.mem_append_left _ (by simp [hs.root, this])
      · rw [List.concat_eq_append] at hqc
        obtain ⟨i, -, hi⟩ := hs.closed _ _ _ _ hqc
        obtain ⟨nd, hn⟩ := hs.node hi
        exact List.mem_append_right _ (List.mem_flatMap.2
          ⟨nd, List.mem_iff_getElem?.2 ⟨i, hn⟩, mem_kids.2 ⟨b, (hs.kids _ _ _ _ _ hi hn).2 ⟨l, hqc⟩⟩⟩)

end Sys2Proof.Machine
end

