-- ==== Sys2Proof/Laws/Build.lean ====
section
/-! SUPPORT. The tree builder: inserting into the selection structure, adding a node, and what the leaf load and
every merge keep. -/

namespace Sys2Proof.Machine

/-! ## The selection structure -/

/-- Counting a property that holds only at the front cuts a list where the property ends. -/
theorem take_countP {α : Type} (p : α → Bool) {l : List α}
    (h : l.Pairwise (fun a b => p b = true → p a = true)) :
    l.take (l.countP p) = l.filter p ∧ l.drop (l.countP p) = l.filter (fun x => !p x) := by
  induction l with
  | nil => simp
  | cons x l ih =>
    obtain ⟨hx, hl⟩ := List.pairwise_cons.1 h
    by_cases hp : p x = true
    · simp [hp, ih hl]
    · have : ∀ y ∈ l, ¬ p y = true := fun y hy h' => hp (hx y hy h')
      have h0 : l.countP p = 0 := List.countP_eq_zero.2 this
      have h1 : l.filter p = [] := by simpa using this
      have h2 : l.filter (fun x => !p x) = l := List.filter_eq_self.2 (by simpa using this)
      simp [hp, h0, h1, h2]

theorem keyBefore_le {nodes : List Node} {a b : Nat} (h : KeyBefore nodes a b) :
    weightOf nodes a ≤ weightOf nodes b := by
  rcases h with h | ⟨h, -⟩ <;> omega

/-- `pq_insert` cuts the sorted list where its weights pass the new one (R132). -/
theorem pqInsert_eq {nodes : List Node} {pq : List Nat} (h : pq.Pairwise (KeyBefore nodes)) (n : Nat) :
    pqInsert nodes pq n = pq.filter (fun e => decide (weightOf nodes e ≤ weightOf nodes n)) ++
      n :: pq.filter (fun e => decide (weightOf nodes n < weightOf nodes e)) := by
  obtain ⟨h1, h2⟩ := take_countP (fun e => decide (weightOf nodes e ≤ weightOf nodes n)) (l := pq)
    (h.imp fun hab hb => by have := keyBefore_le hab; simp only [decide_eq_true_eq] at hb ⊢; omega)
  have h3 : (fun e => !decide (weightOf nodes e ≤ weightOf nodes n)) =
      fun e => decide (weightOf nodes n < weightOf nodes e) := by
    funext e
    rw [← decide_not, decide_eq_decide]
    omega
  rw [pqInsert, h1, h2, h3]

/-- A node newer than every entry goes behind its equals, and the order stays (R51, R132). -/
theorem pqInsert_sorted {nodes : List Node} {pq : List Nat} {n : Nat} (h : pq.Pairwise (KeyBefore nodes))
    (hn : ∀ e ∈ pq, e < n) : (pqInsert nodes pq n).Pairwise (KeyBefore nodes) := by
  rw [pqInsert_eq h]
  refine List.pairwise_append.2 ⟨h.filter _, List.pairwise_cons.2 ⟨fun b hb => ?_, h.filter _⟩, ?_⟩
  · simp only [List.mem_filter, decide_eq_true_eq] at hb
    exact .inl hb.2
  · intro a ha b hb
    simp only [List.mem_filter, decide_eq_true_eq] at ha
    rcases List.mem_cons.1 hb with rfl | hb
    · rcases Nat.lt_or_eq_of_le ha.2 with h' | h'
      · exact .inl h'
      · exact .inr ⟨h', hn a ha.1⟩
    · simp only [List.mem_filter, decide_eq_true_eq] at hb
      exact .inl (by omega)

theorem pqInsert_perm (nodes : List Node) (pq : List Nat) (n : Nat) : (pqInsert nodes pq n).Perm (n :: pq) := by
  unfold pqInsert
  simp only
  refine List.perm_middle.trans ?_
  rw [List.take_append_drop]

/-! ## A longer arena -/

theorem weightOf_append {nodes : List Node} {i : Nat} (h : i < nodes.length) (more : List Node) :
    weightOf (nodes ++ more) i = weightOf nodes i := by
  simp [weightOf, List.getElem?_append_left h]

theorem weightOf_new (nodes : List Node) (nd : Node) : weightOf (nodes ++ [nd]) nodes.length = nd.weight := by
  simp [weightOf]

theorem weightOf_eq {nodes : List Node} {i : Nat} {nd : Node} (h : nodes[i]? = some nd) :
    weightOf nodes i = nd.weight := by simp [weightOf, h]

theorem keyBefore_append {nodes : List Node} {a b : Nat} (ha : a < nodes.length) (hb : b < nodes.length)
    (more : List Node) : KeyBefore (nodes ++ more) a b ↔ KeyBefore nodes a b := by
  simp [KeyBefore, weightOf_append ha, weightOf_append hb]

theorem getElem?_append_some {α : Type} {l : List α} {i : Nat} {x : α} (h : l[i]? = some x) (m : List α) :
    (l ++ m)[i]? = some x := by
  rw [List.getElem?_append_left (List.getElem?_eq_some_iff.1 h).1, h]

theorem holds_append {nodes : List Node} {T : CodeTree} {n : Nat} (h : Holds nodes n T) (more : List Node) :
    Holds (nodes ++ more) n T := by
  induction T generalizing n with
  | leaf v =>
    obtain ⟨nd, h1, h2⟩ := h
    exact ⟨nd, getElem?_append_some h1 _, h2⟩
  | fork l r ihl ihr =>
    obtain ⟨nd, a, b, h1, h2, h3, h4, h5⟩ := h
    exact ⟨nd, a, b, getElem?_append_some h1 _, h2, h3, ihl h4, ihr h5⟩

/-! ## What the builder keeps -/

/-- The symbols of the leaves of a list of trees. -/
def symbolsOf (Ts : List CodeTree) : List Nat := Ts.flatMap (fun T => T.codes.map Prod.fst)

/-- The fork `nd` at slot `i` joins the two nodes of `PQ` that come first, the first of them on its left (R135, R136). -/
def JoinsLeast (nodes : List Node) (i : Nat) (nd : Node) : Prop :=
  ∃ a b, nd = forkNode (weightOf nodes a + weightOf nodes b) a b ∧ Waiting nodes i a ∧ Waiting nodes i b ∧
    KeyBefore nodes a b ∧ ∀ c, Waiting nodes i c → c ≠ a → c ≠ b → KeyBefore nodes b c

theorem waiting_append {nodes : List Node} {i : Nat} (hi : i ≤ nodes.length) (c : Nat) (more : List Node) :
    Waiting (nodes ++ more) i c ↔ Waiting nodes i c :=
  and_congr_right fun _ => forall_congr' fun j => forall_congr' fun x => imp_congr_right fun hj => by
    rw [List.getElem?_append_left (by omega)]

theorem JoinsLeast.append {nodes : List Node} {i : Nat} {nd : Node} (h : JoinsLeast nodes i nd)
    (hi : i ≤ nodes.length) (more : List Node) : JoinsLeast (nodes ++ more) i nd := by
  obtain ⟨a, b, h1, h2, h3, h4, h5⟩ := h
  have ha := h2.1
  have hb := h3.1
  refine ⟨a, b, ?_, (waiting_append hi a more).2 h2, (waiting_append hi b more).2 h3,
    (keyBefore_append (by omega) (by omega) _).2 h4, fun c hc hca hcb => ?_⟩
  · rw [weightOf_append (by omega), weightOf_append (by omega)]
    exact h1
  · have hc := (waiting_append hi c more).1 hc
    have := hc.1
    exact (keyBefore_append (by omega) (by omega) _).2 (h5 c hc hca hcb)

/-- The forest after the leaves `L` were loaded and some merges done (R133 to R136). -/
structure Woods (L : List Node) (f : Forest) : Prop where
  /-- leaves first, then forks (R44) -/
  shape : ∃ forks, f.nodes = L ++ forks ∧ ∀ nd ∈ forks, isLeaf nd = false ∧ nd.symv = false ∧ nd.sym = 0
  /-- R46 -/
  agree : ∀ nd ∈ f.nodes, nd.symv = isLeaf nd
  /-- R51 -/
  sorted : f.pq.Pairwise (KeyBefore f.nodes)
  /-- R50 -/
  within : ∀ e ∈ f.pq, e < f.nodes.length
  /-- every node is a root of the forest or a child, once (R48) -/
  owned : (f.pq ++ f.nodes.flatMap (fun nd => nd.left.toList ++ nd.right.toList)).Perm
    (List.range f.nodes.length)
  /-- R136 -/
  forked : ∀ (i : Nat) (nd : Node), f.nodes[i]? = some nd → nd.symv = false → JoinsLeast f.nodes i nd
  /-- R140 -/
  total : (f.pq.map (weightOf f.nodes)).sum = (L.map Node.weight).sum
  /-- R139 -/
  count : f.pq.length + f.nodes.length = 2 * L.length
  /-- R47, R142 -/
  trees : ∃ Ts, List.Forall₂ (Holds f.nodes) f.pq Ts ∧ (symbolsOf Ts).Perm (L.map Node.sym)

theorem woods_nil : Woods [] { nodes := [], pq := [] } := by
  refine ⟨⟨[], rfl, by simp⟩, ?_, ?_, ?_, ?_, ?_, rfl, rfl, [], .nil, by simp [symbolsOf]⟩ <;> simp

/-- Trees that stand over a permuted list of roots, permuted alike. -/
theorem forall₂_perm {α β : Type} {R : α → β → Prop} {xs ys : List α} (h : xs.Perm ys) {Ts : List β}
    (hT : List.Forall₂ R xs Ts) : ∃ Us, List.Forall₂ R ys Us ∧ Us.Perm Ts := by
  induction h generalizing Ts with
  | nil => exact ⟨Ts, hT, .refl _⟩
  | cons x _ ih =>
    cases hT with
    | cons h1 h2 =>
      obtain ⟨Us, h3, h4⟩ := ih h2
      exact ⟨_ :: Us, .cons h1 h3, h4.cons _⟩
  | swap x y l =>
    cases hT with
    | cons h1 h2 => cases h2 with
      | cons h3 h4 => exact ⟨_, .cons h3 (.cons h1 h4), .swap _ _ _⟩
  | trans _ _ ih1 ih2 =>
    obtain ⟨Us, h1, h2⟩ := ih1 hT
    obtain ⟨Vs, h3, h4⟩ := ih2 h1
    exact ⟨Vs, h3, h4.trans h2⟩

/-- What adding any node keeps of the order of `PQ`. -/
theorem addNode_sorted {nodes : List Node} {pq : List Nat} (hs : pq.Pairwise (KeyBefore nodes))
    (hw : ∀ e ∈ pq, e < nodes.length) (nd : Node) :
    (addNode nd { nodes := nodes, pq := pq }).pq.Pairwise (KeyBefore (nodes ++ [nd])) :=
  pqInsert_sorted (hs.imp_of_mem fun ha hb h => (keyBefore_append (hw _ ha) (hw _ hb) _).2 h) hw

theorem addNode_perm (nd : Node) (f : Forest) : (addNode nd f).pq.Perm (f.nodes.length :: f.pq) :=
  pqInsert_perm _ _ _

@[simp] theorem addNode_nodes (nd : Node) (f : Forest) : (addNode nd f).nodes = f.nodes ++ [nd] := rfl

theorem symbolsOf_perm {Ts Us : List CodeTree} (h : Ts.Perm Us) : (symbolsOf Ts).Perm (symbolsOf Us) :=
  List.Perm.flatMap_right _ h

theorem weights_append {nodes : List Node} {pq : List Nat} (h : ∀ e ∈ pq, e < nodes.length) (more : List Node) :
    pq.map (weightOf (nodes ++ more)) = pq.map (weightOf nodes) :=
  List.map_congr_left fun e he => weightOf_append (h e he) more

theorem forked_append {nodes : List Node} {nd : Node}
    (h : ∀ (i : Nat) (nd : Node), nodes[i]? = some nd → nd.symv = false → JoinsLeast nodes i nd)
    (hnd : nd.symv = false → JoinsLeast nodes nodes.length nd)
    (i : Nat) (x : Node) (hx : (nodes ++ [nd])[i]? = some x) (hs : x.symv = false) :
    JoinsLeast (nodes ++ [nd]) i x := by
  rcases lt_trichotomy i nodes.length with hi | hi | hi
  · rw [List.getElem?_append_left hi] at hx
    exact (h i x hx hs).append (by omega) _
  · subst hi
    simp at hx
    subst hx
    exact (hnd hs).append (le_refl _) _
  · rw [List.getElem?_eq_none (by simp; omega)] at hx
    cases hx

/-- `PQ` holds the nodes that are no child yet (R48, R136). -/
theorem Woods.mem_pq {L : List Node} {f : Forest} (h : Woods L f) (c : Nat) :
    c ∈ f.pq ↔ Waiting f.nodes f.nodes.length c := by
  have hkid : ∀ {x : Node}, c ∈ x.left.toList ++ x.right.toList ↔ x.left = some c ∨ x.right = some c := by
    simp [Option.mem_toList]
  have hnd := h.owned.nodup_iff.2 List.nodup_range
  constructor
  · intro hc
    refine ⟨h.within c hc, fun j x _ hx => not_or.1 fun hk => ?_⟩
    exact (List.nodup_append.1 hnd).2.2 c hc c (List.mem_flatMap.2
      ⟨x, List.mem_iff_getElem?.2 ⟨j, hx⟩, hkid.2 hk⟩) rfl
  · rintro ⟨hc, hno⟩
    rcases List.mem_append.1 (h.owned.mem_iff.2 (List.mem_range.2 hc)) with h1 | h1
    · exact h1
    · obtain ⟨x, hx, hk⟩ := List.mem_flatMap.1 h1
      obtain ⟨j, hj⟩ := List.mem_iff_getElem?.1 hx
      have := hno j x (List.getElem?_eq_some_iff.1 hj).1 hj
      rcases hkid.1 hk with hk | hk
      · exact absurd hk this.1
      · exact absurd hk this.2

/-- Loading a leaf (R133, R134). -/
theorem Woods.leaf {L : List Node} {f : Forest} (h : Woods L f) (hn : f.nodes = L) (sym weight : Nat) :
    Woods (L ++ [leafNode sym weight]) (addNode (leafNode sym weight) f) ∧
      (addNode (leafNode sym weight) f).nodes = L ++ [leafNode sym weight] := by
  subst hn
  refine ⟨⟨⟨[], by simp, by simp⟩, (fun nd hnd => by
      rcases List.mem_append.1 hnd with hnd | hnd
      · exact h.agree nd hnd
      · simp at hnd; subst hnd; rfl), addNode_sorted h.sorted h.within _, ?_, ?_, ?_, ?_, ?_, ?_⟩, rfl⟩
  · intro e he
    have := (addNode_perm _ _).mem_iff.1 he
    simp only [List.mem_cons] at this
    simp only [addNode_nodes, List.length_append, List.length_singleton]
    rcases this with rfl | this
    · omega
    · have := h.within e this; omega
  · simp only [addNode_nodes, List.flatMap_append, List.length_append, List.length_singleton, List.range_succ]
    refine ((addNode_perm _ _).append_right _).trans ?_
    simp only [leafNode, List.flatMap_cons, List.flatMap_nil, Option.toList_none, List.append_nil,
      List.cons_append]
    refine List.Perm.trans ?_ (List.perm_append_comm (l₁ := [f.nodes.length]))
    exact h.owned.cons _
  · exact forked_append h.forked (by simp [leafNode])
  · have hp := ((addNode_perm (leafNode sym weight) f).map
      (weightOf (addNode (leafNode sym weight) f).nodes)).sum_eq
    rw [hp, addNode_nodes, List.map_cons, List.sum_cons, weights_append h.within, h.total, weightOf_new]
    simp [leafNode]
    omega
  · have := (addNode_perm (leafNode sym weight) f).length_eq
    have := h.count
    simp at *
    omega
  · obtain ⟨Ts, h1, h2⟩ := h.trees
    have : List.Forall₂ (Holds (f.nodes ++ [leafNode sym weight])) (f.nodes.length :: f.pq)
        (.leaf sym :: Ts) :=
      .cons ⟨leafNode sym weight, by simp, rfl, rfl⟩ (h1.imp fun _ _ hh => holds_append hh _)
    obtain ⟨Us, h3, h4⟩ := forall₂_perm (addNode_perm (leafNode sym weight) f).symm this
    refine ⟨Us, h3, (symbolsOf_perm h4).trans ?_⟩
    simp only [List.map_append, List.map_cons, List.map_nil, leafNode]
    exact (h2.cons _).trans (List.perm_append_comm (l₁ := [sym]))

/-- A merge (R135, R136). -/
theorem Woods.merge {L : List Node} {f : Forest} (h : Woods L f) {a b : Nat} {rest : List Nat}
    (hpq : f.pq = a :: b :: rest) : Woods L (mergePair f.nodes a b rest) := by
  have hs := h.sorted
  have hw := h.within
  rw [hpq] at hs hw
  have ha := hw a (by simp)
  have hb := hw b (by simp)
  have hr : ∀ e ∈ rest, e < f.nodes.length := fun e he => hw e (by simp [he])
  have hperm := addNode_perm (forkNode (weightOf f.nodes a + weightOf f.nodes b) a b)
    { nodes := f.nodes, pq := rest }
  unfold mergePair
  obtain ⟨forks, h1, h2⟩ := h.shape
  obtain ⟨h3, h4⟩ := List.pairwise_cons.1 hs
  obtain ⟨-, h5⟩ := List.pairwise_cons.1 h4
  refine ⟨⟨forks ++ [forkNode (weightOf f.nodes a + weightOf f.nodes b) a b], ?_, ?_⟩,
    (fun nd hnd => by
      rcases List.mem_append.1 hnd with hnd | hnd
      · exact h.agree nd hnd
      · simp at hnd; subst hnd; rfl), addNode_sorted h5 hr _, ?_, ?_, ?_, ?_, ?_, ?_⟩
  · rw [addNode_nodes, ← List.append_assoc, ← h1]
  · intro nd hnd
    rcases List.mem_append.1 hnd with hnd | hnd
    · exact h2 nd hnd
    · simp at hnd; subst hnd; exact ⟨rfl, rfl, rfl⟩
  · intro e he
    have := hperm.mem_iff.1 he
    simp only [List.mem_cons] at this
    simp only [addNode_nodes, List.length_append, List.length_singleton]
    rcases this with rfl | this
    · omega
    · have := hr e this; omega
  · simp only [addNode_nodes, List.flatMap_append, List.length_append, List.length_singleton, List.range_succ]
    refine (hperm.append_right _).trans ?_
    simp only [forkNode, List.flatMap_cons, List.flatMap_nil, Option.toList_some, List.append_nil,
      List.cons_append, List.nil_append]
    refine List.Perm.trans ?_ (List.perm_append_comm (l₁ := [f.nodes.length]))
    refine List.Perm.cons _ ?_
    have := h.owned
    rw [hpq] at this
    refine List.Perm.trans ?_ this
    rw [← List.append_assoc]
    exact List.perm_append_comm (l₂ := [a, b])
  · refine forked_append h.forked fun _ => ⟨a, b, rfl, (h.mem_pq a).1 (by simp [hpq]), (h.mem_pq b).1 (by simp [hpq]),
      h3 b (by simp), fun c hc hca hcb => (List.pairwise_cons.1 h4).1 c ?_⟩
    have := (h.mem_pq c).2 hc
    rw [hpq] at this
    simpa [hca, hcb] using this
  · have hp := (hperm.map (weightOf (f.nodes ++ [forkNode (weightOf f.nodes a + weightOf f.nodes b) a b]))).sum_eq
    rw [addNode_nodes, hp, List.map_cons, List.sum_cons, weights_append hr, weightOf_new]
    have := h.total
    rw [hpq] at this
    simp only [List.map_cons, List.sum_cons, forkNode] at this ⊢
    omega
  · have := hperm.length_eq
    have := h.count
    rw [hpq] at this
    simp at *
    omega
  · obtain ⟨Ts, h6, h7⟩ := h.trees
    rw [hpq] at h6
    cases h6 with
    | cons hA h6 => cases h6 with
      | cons hB h6 =>
        rename_i A B Rs
        have : List.Forall₂ (Holds (f.nodes ++ [forkNode (weightOf f.nodes a + weightOf f.nodes b) a b]))
            (f.nodes.length :: rest) (.fork A B :: Rs) :=
          .cons ⟨forkNode (weightOf f.nodes a + weightOf f.nodes b) a b, a, b, by simp, rfl, rfl,
            holds_append hA _, holds_append hB _⟩ (h6.imp fun _ _ hh => holds_append hh _)
        obtain ⟨Us, h8, h9⟩ := forall₂_perm hperm.symm this
        refine ⟨Us, h8, (symbolsOf_perm h9).trans (List.Perm.trans ?_ h7)⟩
        simp [symbolsOf, CodeTree.codes, Function.comp_def]

/-- How the merge phase ends: one root of all the weight, or two roots whose weights pass the limit (R136,
R140). -/
theorem mergeAll_cases {L : List Node} (wmax : Nat) {k : Nat} {f : Forest} (h : Woods L f)
    (hk : f.pq.length ≤ k) :
    (∃ g, mergeAll wmax k f = .ok g ∧ Woods L g ∧ g.pq.length ≤ 1 ∧
      ((∀ nd ∈ f.nodes, nd.symv = false → nd.weight ≤ wmax) →
        ∀ nd ∈ g.nodes, nd.symv = false → nd.weight ≤ wmax)) ∨
    (∃ g a b rest, mergeAll wmax k f = .error g ∧ Woods L g ∧ g.pq = a :: b :: rest ∧
      wmax < weightOf g.nodes a + weightOf g.nodes b ∧
      ((∀ nd ∈ f.nodes, nd.symv = false → nd.weight ≤ wmax) →
        ∀ nd ∈ g.nodes, nd.symv = false → nd.weight ≤ wmax)) := by
  induction k generalizing f with
  | zero => exact .inl ⟨f, rfl, h, by omega, id⟩
  | succ k ih =>
    rcases hpq : f.pq with _ | ⟨a, _ | ⟨b, rest⟩⟩
    · exact .inl ⟨f, by simp [mergeAll, hpq], h, by simp [hpq], id⟩
    · exact .inl ⟨f, by simp [mergeAll, hpq], h, by simp [hpq], id⟩
    · by_cases hlt : wmax < weightOf f.nodes a + weightOf f.nodes b
      · exact .inr ⟨f, a, b, rest, by simp [mergeAll, hpq, hlt], h, hpq, hlt, id⟩
      · have hlen := (addNode_perm (forkNode (weightOf f.nodes a + weightOf f.nodes b) a b)
          { nodes := f.nodes, pq := rest }).length_eq
        rw [hpq] at hk
        simp only [List.length_cons] at hlen hk
        have heq : mergeAll wmax (k + 1) f = mergeAll wmax k (mergePair f.nodes a b rest) := by
          simp [mergeAll, hpq, hlt]
        have hmono : (∀ nd ∈ f.nodes, nd.symv = false → nd.weight ≤ wmax) →
            ∀ nd ∈ (mergePair f.nodes a b rest).nodes, nd.symv = false → nd.weight ≤ wmax := by
          intro hf nd hnd
          simp only [mergePair, addNode_nodes, List.mem_append, List.mem_singleton] at hnd
          rcases hnd with hnd | rfl
          · exact hf nd hnd
          · simp only [forkNode]; omega
        rw [heq]
        have hk' : (mergePair f.nodes a b rest).pq.length ≤ k := by
          unfold mergePair; omega
        rcases ih (h.merge hpq) hk' with ⟨g, h1, h2, h3, h4⟩ | ⟨g, a', b', r', h1, h2, h3, h4, h5⟩
        · exact .inl ⟨g, h1, h2, h3, fun hf => h4 (hmono hf)⟩
        · exact .inr ⟨g, a', b', r', h1, h2, h3, h4, fun hf => h5 (hmono hf)⟩

/-- The root left by the merge phase is the last node (R139). -/
theorem root_last {L : List Node} {g : Forest} {r : Nat} (h : Woods L g) (hp : g.pq = [r]) (hL : 0 < L.length) :
    r = 2 * (L.length - 1) ∧ g.nodes.length = 2 * (L.length - 1) + 1 := by
  have hc := h.count
  rw [hp] at hc; simp at hc
  have hw := h.within r (by simp [hp])
  refine ⟨?_, by omega⟩
  by_contra hne
  have hlast : g.nodes.length - 1 ∈ List.range g.nodes.length := by simp; omega
  rw [← h.owned.mem_iff, hp] at hlast
  simp only [List.singleton_append, List.mem_cons] at hlast
  rcases hlast with hl | hl
  · omega
  · obtain ⟨nd, hnd, hk⟩ := List.mem_flatMap.1 hl
    obtain ⟨i, hi⟩ := List.mem_iff_getElem?.1 hnd
    have hil := (List.getElem?_eq_some_iff.1 hi).1
    obtain ⟨c, hc⟩ := mem_kids.1 hk
    cases hsv : nd.symv with
    | true =>
      rw [h.agree nd hnd] at hsv
      rw [child_of_isLeaf hsv] at hc; cases hc
    | false =>
      obtain ⟨x, y, rfl, ⟨hx, -⟩, ⟨hy, -⟩, -⟩ := h.forked i nd hi hsv
      cases c <;> simp [child, forkNode] at hc <;> omega

/-- The leaves stay the first nodes. -/
theorem take_leaves {L : List Node} {g : Forest} (h : Woods L g) : g.nodes.take L.length = L := by
  obtain ⟨forks, hs, -⟩ := h.shape
  rw [hs]; simp

/-! ## The leaves of a state's counts -/

/-- The leaves the counts give, in order of symbol, without the sentinel (R133). -/
def countLeaves (cnt : Memory) (n : Nat) : List Node :=
  ((List.range n).filter (fun i => decide (0 < cnt.read i))).map (fun i => leafNode i (cnt.read i))

theorem loadLeaf_woods (cnt : Memory) (n : Nat) :
    Woods (countLeaves cnt n) ((List.range n).foldl (loadLeaf cnt) { nodes := [], pq := [] }) ∧
    ((List.range n).foldl (loadLeaf cnt) { nodes := [], pq := [] }).nodes = countLeaves cnt n := by
  induction n with
  | zero => exact ⟨woods_nil, rfl⟩
  | succ n ih =>
    rw [List.range_succ, List.foldl_append, List.foldl_cons, List.foldl_nil]
    have : countLeaves cnt (n + 1) =
        countLeaves cnt n ++ (if 0 < cnt.read n then [leafNode n (cnt.read n)] else []) := by
      simp only [countLeaves, List.range_succ, List.filter_append, List.map_append]
      by_cases h : 0 < cnt.read n <;> simp [h]
    rw [this]
    unfold loadLeaf
    by_cases h : 0 < cnt.read n
    · simp only [h, if_true]
      exact ih.1.leaf ih.2 _ _
    · simp only [h, if_false, List.append_nil]
      exact ih

/-- The leaf load reads only the counts of the symbols it visits (R138). -/
theorem loadLeaf_congr {c c' : Memory} (l : List Nat) (h : ∀ i ∈ l, c.read i = c'.read i) (f : Forest) :
    l.foldl (loadLeaf c) f = l.foldl (loadLeaf c') f := by
  induction l generalizing f with
  | nil => rfl
  | cons x l ih => simp [loadLeaf, h x (by simp), ih (fun i hi => h i (by simp [hi]))]

/-- All leaves `BUILDC` loads: the symbols', then the sentinel's (R133, R134). -/
def allLeaves (s : State) : List Node :=
  (presentSymbols s).map (fun i => leafNode i (s.cnt.read i)) ++ [leafNode s.cfg.asize 1]

theorem loadLeaves_woods (s : State) :
    Woods (allLeaves s) (loadLeaves s.cfg.asize s.cnt) ∧
    (loadLeaves s.cfg.asize s.cnt).nodes = allLeaves s := by
  obtain ⟨h1, h2⟩ := loadLeaf_woods s.cnt s.cfg.asize
  exact h1.leaf h2 _ _

theorem allLeaves_length (s : State) : (allLeaves s).length = (presentSymbols s).length + 1 := by
  simp [allLeaves]

theorem allLeaves_syms (s : State) : (allLeaves s).map Node.sym = presentSymbols s ++ [s.cfg.asize] := by
  simp [allLeaves, leafNode, Function.comp_def]

/-- The leaves weigh `1 + sum of CNT[i]` (R140). -/
theorem allLeaves_weight (s : State) : ((allLeaves s).map Node.weight).sum = totalWeight s := by
  have : ∀ l : List Nat, ((l.filter (fun i => decide (0 < s.cnt.read i))).map s.cnt.read).sum =
      (l.map s.cnt.read).sum := by
    intro l
    induction l with
    | nil => rfl
    | cons x l ih =>
      by_cases h : 0 < s.cnt.read x
      · simp [h, ih]
      · have : s.cnt.read x = 0 := by omega
        simp [this, ih]
  have h := this (List.range s.cfg.asize)
  have h' : ((presentSymbols s).map fun x => s.cnt.read x).sum = _ := h
  simp only [allLeaves, totalWeight, List.map_append, List.map_map, List.sum_append,
    Function.comp_def, leafNode, List.map_cons, List.map_nil, List.sum_cons, List.sum_nil, h']
  omega

/-! ## The whole command -/

/-- Everything `BUILDC` can do in `IDLE`: complete with one root, or raise `WEIGHT_OVERFLOW` with two roots left
whose weights pass the limit (R130, R137, R140). -/
theorem exec_buildc {s : State} (h : s.mode = .idle) :
    (∃ g r, mergeAll (weightMax s.cfg) (loadLeaves s.cfg.asize s.cnt).pq.length
        (loadLeaves s.cfg.asize s.cnt) = .ok g ∧
      Woods (allLeaves s) g ∧ g.pq = [r] ∧ totalWeight s = weightOf g.nodes r ∧
      (∀ nd ∈ g.nodes, nd.symv = false → nd.weight ≤ weightMax s.cfg) ∧
      exec .buildc s = .next { s with
        tv := true, src := false, eos := false, rv := false, rsym := 0, cur := none, pq := [],
        root := some r, nodes := g.nodes }) ∨
    (∃ g a b rest, Woods (allLeaves s) g ∧ g.pq = a :: b :: rest ∧
      weightMax s.cfg < weightOf g.nodes a + weightOf g.nodes b ∧
      (∀ nd ∈ g.nodes, nd.symv = false → nd.weight ≤ weightMax s.cfg) ∧
      exec .buildc s = .next { s with
        mode := .faulted, fcause := some .weightOverflow, finfo := word g.nodes.length,
        tv := false, src := false, eos := false, rv := false, rsym := 0, cur := none, root := none,
        nodes := g.nodes, pq := g.pq }) := by
  obtain ⟨h1, h2⟩ := loadLeaves_woods s
  have h0 : ∀ nd ∈ (loadLeaves s.cfg.asize s.cnt).nodes, nd.symv = false → nd.weight ≤ weightMax s.cfg := by
    rw [h2]
    intro nd hnd hsv
    rcases List.mem_append.1 hnd with hnd | hnd
    · obtain ⟨i, -, rfl⟩ := List.mem_map.1 hnd
      cases hsv
    · simp at hnd; subst hnd; cases hsv
  rcases mergeAll_cases (weightMax s.cfg) h1 (le_refl _) with ⟨g, h3, h4, h5, h6⟩ | ⟨g, a, b, rest, h3, h4, h5, h6, h7⟩
  · replace h6 := h6 h0
    have hne : g.pq ≠ [] := by
      intro h0
      obtain ⟨Ts, h7, h8⟩ := h4.trees
      rw [h0] at h7
      cases h7
      have := h8.length_eq
      simp [symbolsOf, allLeaves] at this
    obtain ⟨r, hr⟩ : ∃ r, g.pq = [r] := by
      match hq : g.pq, hne, h5 with
      | [r], _, _ => exact ⟨r, rfl⟩
      | _ :: _ :: _, _, h5 => simp at h5
    refine .inl ⟨g, r, h3, h4, hr, ?_, h6, ?_⟩
    · rw [← allLeaves_weight, ← h4.total, hr]; simp
    · have h3' : mergeAll (weightMax (setMode .run s).cfg) (loadLeaves (setMode .run s).cfg.asize
        (setMode .run s).cnt).pq.length (loadLeaves (setMode .run s).cfg.asize (setMode .run s).cnt) = .ok g := h3
      simp only [exec, execBuildc, runCommand, h, buildcBody, h3', hr]
      rw [← h]
      rfl
  · replace h7 := h7 h0
    refine .inr ⟨g, a, b, rest, h4, h5, h6, h7, ?_⟩
    have h3' : mergeAll (weightMax (setMode .run s).cfg) (loadLeaves (setMode .run s).cfg.asize
      (setMode .run s).cnt).pq.length (loadLeaves (setMode .run s).cfg.asize (setMode .run s).cnt) = .error g := h3
    simp only [exec, execBuildc, runCommand, h, buildcBody, h3']
    rfl

end Sys2Proof.Machine
end

