-- ==== Sys2Proof/Laws/Decode.lean ====
section
/-! SUPPORT. The two fields of a command word (R90): the word is their concatenation, and each is a quotient or
remainder of its value by 16. -/

namespace Sys2Proof

/-- A command word is its two fields (R90). -/
theorem fields_append (w : Word) : w = zeroField w ++ opField w := by
  unfold zeroField opField
  rw [← BitVec.toNat_inj, BitVec.toNat_append]
  have : w.toNat < 2 ^ 32 := w.isLt
  simp only [BitVec.extractLsb'_toNat, Nat.shiftRight_eq_div_pow]
  rw [Nat.mod_eq_of_lt (a := w.toNat / 2 ^ 4) (by omega),
    ← Nat.shiftLeft_add_eq_or_of_lt (Nat.mod_lt _ (by decide)), Nat.shiftLeft_eq]
  omega

theorem zeroField_eq_zero_iff (w : Word) : zeroField w = 0#28 ↔ w.toNat / 16 = 0 := by
  have : w.toNat < 2 ^ 32 := w.isLt
  unfold zeroField
  rw [← BitVec.toNat_inj]
  simp only [BitVec.extractLsb'_toNat, Nat.shiftRight_eq_div_pow, BitVec.toNat_ofNat]
  omega

theorem opField_toNat (w : Word) : (opField w).toNat = w.toNat % 16 := by simp [opField]

end Sys2Proof
end

