-- ==== Sys2Proof/Laws/Huffman.lean ====
section
/-! SUPPORT. Weight-minimality (R143): joining the two lightest items of a set is part of a cheapest tree over it, so
the merge phase builds a cheapest tree. -/

namespace Sys2Proof.Machine

/-! ## The cost of a tree -/

/-- The symbols of the leaves, left-first. -/
def labels : CodeTree → List Nat
  | .leaf v => [v]
  | .fork l r => labels l ++ labels r

/-- The weight of all leaves. -/
def treeWeight (w : Nat → Nat) : CodeTree → Nat
  | .leaf v => w v
  | .fork l r => treeWeight w l + treeWeight w r

/-- The cost as the sum of the weights of the forks. -/
def treeCost (w : Nat → Nat) : CodeTree → Nat
  | .leaf _ => 0
  | .fork l r => treeCost w l + treeCost w r + (treeWeight w l + treeWeight w r)

theorem labels_eq (T : CodeTree) : T.codes.map Prod.fst = labels T := by
  induction T with
  | leaf v => rfl
  | fork l r ihl ihr => simp [CodeTree.codes, labels, ← ihl, ← ihr, Function.comp_def]

/-- A code is shorter than the tree has leaves (R316). -/
theorem depth_le (T : CodeTree) : ∀ c ∈ T.codes, c.2.length + 1 ≤ (labels T).length := by
  induction T with
  | leaf v => simp [CodeTree.codes, labels]
  | fork l r ihl ihr =>
    have hl : 0 < (labels l).length := by
      rw [← labels_eq, List.length_map]
      exact List.length_pos_iff.2 (CodeTree.codes_ne_nil l)
    have hr : 0 < (labels r).length := by
      rw [← labels_eq, List.length_map]
      exact List.length_pos_iff.2 (CodeTree.codes_ne_nil r)
    simp only [CodeTree.codes, List.mem_append, List.mem_map, labels, List.length_append]
    rintro _ (⟨c, hc, rfl⟩ | ⟨c, hc, rfl⟩)
    · have := ihl c hc; simp; omega
    · have := ihr c hc; simp; omega

theorem treeWeight_eq (w : Nat → Nat) (T : CodeTree) : treeWeight w T = ((labels T).map w).sum := by
  induction T with
  | leaf v => simp [treeWeight, labels]
  | fork l r ihl ihr => simp [treeWeight, labels, ihl, ihr]

theorem codeCost_append (w : Nat → Nat) (c d : List (Nat × List Bool)) :
    codeCost w (c ++ d) = codeCost w c + codeCost w d := by simp [codeCost]

theorem codeCost_under (w : Nat → Nat) (b : Bool) (codes : List (Nat × List Bool)) :
    codeCost w (codes.map (fun c => (c.1, b :: c.2))) =
      codeCost w codes + ((codes.map Prod.fst).map w).sum := by
  induction codes with
  | nil => simp [codeCost]
  | cons c codes ih =>
    simp only [codeCost, List.map_cons, List.sum_cons, List.length_cons] at ih ⊢
    rw [ih, Nat.mul_add]
    omega

theorem codeCost_codes (w : Nat → Nat) (T : CodeTree) : codeCost w T.codes = treeCost w T := by
  induction T with
  | leaf v => simp [codeCost, CodeTree.codes, treeCost]
  | fork l r ihl ihr =>
    rw [CodeTree.codes, codeCost_append, codeCost_under, codeCost_under, ihl, ihr, labels_eq, labels_eq,
      ← treeWeight_eq, ← treeWeight_eq, treeCost]
    omega

theorem codeCost_perm (w : Nat → Nat) {c d : List (Nat × List Bool)} (h : c.Perm d) :
    codeCost w c = codeCost w d := (h.map _).sum_eq

/-! ## Renaming leaves -/

/-- The same tree with its leaves renamed. -/
def relabel (σ : Nat → Nat) : CodeTree → CodeTree
  | .leaf v => .leaf (σ v)
  | .fork l r => .fork (relabel σ l) (relabel σ r)

theorem codes_relabel (σ : Nat → Nat) (T : CodeTree) :
    (relabel σ T).codes = T.codes.map (fun c => (σ c.1, c.2)) := by
  induction T with
  | leaf v => rfl
  | fork l r ihl ihr => simp [relabel, CodeTree.codes, ihl, ihr, Function.comp_def]

theorem labels_relabel (σ : Nat → Nat) (T : CodeTree) : labels (relabel σ T) = (labels T).map σ := by
  rw [← labels_eq, codes_relabel, ← labels_eq]; simp [Function.comp_def]

/-- Exchanging two names. -/
def exchange (a x : Nat) (v : Nat) : Nat := if v = a then x else if v = x then a else v

theorem exchange_self (a v : Nat) : exchange a a v = v := by unfold exchange; split <;> simp_all

/-- Exchanging two leaves of a tree changes its cost by the product of the differences of weight and depth. -/
theorem exchange_cost (w : Nat → Nat) {T : CodeTree} (hn : (labels T).Nodup) {a x : Nat} {pa px : List Bool}
    (ha : (a, pa) ∈ T.codes) (hx : (x, px) ∈ T.codes) :
    (labels (relabel (exchange a x) T)).Perm (labels T) ∧
    treeCost w (relabel (exchange a x) T) + (w a * pa.length + w x * px.length) =
      treeCost w T + (w x * pa.length + w a * px.length) := by
  by_cases hax : a = x
  · subst hax
    have : relabel (exchange a a) T = T := by
      clear hn ha hx
      induction T with
      | leaf v => simp [relabel, exchange_self]
      | fork l r ihl ihr => simp [relabel, ihl, ihr]
    rw [this]
    exact ⟨.refl _, by omega⟩
  · obtain ⟨rest, hr⟩ : ∃ rest, T.codes.Perm ((a, pa) :: (x, px) :: rest) := by
      have h1 := List.perm_cons_erase ha
      have hx' : (x, px) ∈ T.codes.erase (a, pa) := (List.mem_erase_of_ne (by simp [Ne.symm hax])).2 hx
      exact ⟨_, h1.trans ((List.perm_cons_erase hx').cons _)⟩
    have hnr : ∀ c ∈ rest, exchange a x c.1 = c.1 := by
      rw [← labels_eq, (hr.map Prod.fst).nodup_iff] at hn
      simp only [List.map_cons, List.nodup_cons, List.mem_cons, List.mem_map, not_or, not_exists, not_and] at hn
      intro c hc
      have h1 : c.1 ≠ a := hn.1.2 c hc
      have h2 : c.1 ≠ x := hn.2.1 c hc
      simp [exchange, h1, h2]
    have hmap : (rest.map (fun c => (exchange a x c.1, c.2))) = rest := by
      conv_rhs => rw [← List.map_id rest]
      exact List.map_congr_left fun c hc => by simp [hnr c hc]
    have hr' : (relabel (exchange a x) T).codes.Perm ((x, pa) :: (a, px) :: rest) := by
      rw [codes_relabel]
      have := hr.map (fun c => (exchange a x c.1, c.2))
      simp only [List.map_cons, hmap] at this
      rw [show exchange a x a = x by simp [exchange], show exchange a x x = a by
        simp [exchange, Ne.symm hax]] at this
      exact this
    constructor
    · rw [← labels_eq, ← labels_eq]
      refine ((hr'.map Prod.fst).trans ?_).trans (hr.map Prod.fst).symm
      exact .swap _ _ _
    · rw [← codeCost_codes, ← codeCost_codes, codeCost_perm w hr, codeCost_perm w hr']
      simp only [codeCost, List.map_cons, List.sum_cons]
      omega

/-! ## Deepest siblings -/

/-- Two leaves that are the children of one fork at depth `k`. -/
inductive Siblings (x y : Nat) : Nat → CodeTree → Prop where
  | here : Siblings x y 0 (.fork (.leaf x) (.leaf y))
  | left {k : Nat} {l : CodeTree} (r : CodeTree) (h : Siblings x y k l) : Siblings x y (k + 1) (.fork l r)
  | right {k : Nat} (l : CodeTree) {r : CodeTree} (h : Siblings x y k r) : Siblings x y (k + 1) (.fork l r)

theorem Siblings.codes {x y k : Nat} {T : CodeTree} (h : Siblings x y k T) :
    ∃ p, p.length = k ∧ (x, p ++ [false]) ∈ T.codes ∧ (y, p ++ [true]) ∈ T.codes := by
  induction h with
  | here => exact ⟨[], rfl, by simp [CodeTree.codes], by simp [CodeTree.codes]⟩
  | left r _ ih =>
    obtain ⟨p, h1, h2, h3⟩ := ih
    exact ⟨false :: p, by simp [h1], by simp [CodeTree.codes, h2], by simp [CodeTree.codes, h3]⟩
  | right l _ ih =>
    obtain ⟨p, h1, h2, h3⟩ := ih
    exact ⟨true :: p, by simp [h1], by simp [CodeTree.codes, h2], by simp [CodeTree.codes, h3]⟩

theorem Siblings.relabel {x y k : Nat} {T : CodeTree} (h : Siblings x y k T) (σ : Nat → Nat) :
    Siblings (σ x) (σ y) k (relabel σ T) := by
  induction h with
  | here => exact .here
  | left r _ ih => exact .left _ ih
  | right l _ ih => exact .right _ ih

/-- A fork has siblings than which no leaf is deeper. -/
theorem deepest_siblings (l r : CodeTree) : ∃ x y k, Siblings x y k (.fork l r) ∧
    ∀ c ∈ (CodeTree.fork l r).codes, c.2.length ≤ k + 1 := by
  have one : ∀ T : CodeTree, (∃ v, T = .leaf v) ∨
      ∃ x y k, Siblings x y k T ∧ ∀ c ∈ T.codes, c.2.length ≤ k + 1 := by
    intro T
    induction T with
    | leaf v => exact .inl ⟨v, rfl⟩
    | fork l r ihl ihr =>
      right
      rcases ihl with ⟨v, rfl⟩ | ⟨x, y, k, h1, h2⟩ <;> rcases ihr with ⟨u, rfl⟩ | ⟨x', y', k', h1', h2'⟩
      · exact ⟨v, u, 0, .here, by simp [CodeTree.codes]⟩
      · refine ⟨x', y', k' + 1, .right _ h1', ?_⟩
        simp only [CodeTree.codes, List.map_cons, List.map_nil, List.mem_append, List.mem_singleton, List.mem_map]
        rintro _ (rfl | ⟨c, hc, rfl⟩)
        · simp
        · have := h2' c hc; simp only [List.length_cons]; omega
      · refine ⟨x, y, k + 1, .left _ h1, ?_⟩
        simp only [CodeTree.codes, List.map_cons, List.map_nil, List.mem_append, List.mem_singleton, List.mem_map]
        rintro _ (⟨c, hc, rfl⟩ | rfl)
        · have := h2 c hc; simp only [List.length_cons]; omega
        · simp
      · have : ∀ m, k + 1 ≤ m → k' + 1 ≤ m → ∀ c ∈ (CodeTree.fork l r).codes, c.2.length ≤ m + 1 := by
          intro m hm hm'
          simp only [CodeTree.codes, List.mem_append, List.mem_map]
          rintro _ (⟨c, hc, rfl⟩ | ⟨c, hc, rfl⟩)
          · have := h2 c hc; simp only [List.length_cons]; omega
          · have := h2' c hc; simp only [List.length_cons]; omega
        by_cases hk : k ≤ k'
        · exact ⟨x', y', k' + 1, .right _ h1', this _ (by omega) (by omega)⟩
        · exact ⟨x, y, k + 1, .left _ h1, this _ (by omega) (by omega)⟩
  rcases one (.fork l r) with ⟨v, h⟩ | h
  · cases h
  · exact h

/-- Siblings joined into one leaf of their weight. -/
theorem Siblings.join (w : Nat → Nat) {x y k n : Nat} {T : CodeTree} (h : Siblings x y k T)
    (hw : w n = w x + w y) : ∃ U rest, (labels T).Perm (x :: y :: rest) ∧ (labels U).Perm (n :: rest) ∧
      treeWeight w U = treeWeight w T ∧ treeCost w U + (w x + w y) = treeCost w T := by
  induction h with
  | here => exact ⟨.leaf n, [], .refl _, .refl _, by simp [treeWeight, hw], by simp [treeCost, treeWeight]⟩
  | left r _ ih =>
    obtain ⟨U, rest, h1, h2, h3, h4⟩ := ih
    exact ⟨.fork U r, rest ++ labels r, h1.append_right _, h2.append_right _, by simp [treeWeight, h3],
      by simp only [treeCost, h3]; omega⟩
  | right l _ ih =>
    obtain ⟨U, rest, h1, h2, h3, h4⟩ := ih
    refine ⟨.fork l U, labels l ++ rest, (h1.append_left _).trans ?_, (h2.append_left _).trans ?_,
      by simp [treeWeight, h3], by simp only [treeCost, h3]; omega⟩
    · exact List.perm_middle.trans (List.perm_middle.cons _)
    · exact List.perm_middle

/-- The greedy step: some cheapest tree joins the two lightest items first. -/
theorem greedy_step (w : Nat → Nat) {U : CodeTree} {a b n : Nat} {rest : List Nat}
    (hU : (labels U).Perm (a :: b :: rest)) (hn : (a :: b :: rest).Nodup) (hab : w a ≤ w b)
    (hb : ∀ v ∈ rest, w b ≤ w v) (hw : w n = w a + w b) :
    ∃ U', (labels U').Perm (n :: rest) ∧ treeCost w U' + (w a + w b) ≤ treeCost w U := by
  have hnU : (labels U).Nodup := hU.nodup_iff.2 hn
  have hmem : ∀ V, (labels V).Perm (a :: b :: rest) → ∀ v ∈ a :: b :: rest, ∃ p, (v, p) ∈ V.codes := by
    intro V hV v hv
    have := hV.mem_iff.2 hv
    rw [← labels_eq] at this
    obtain ⟨c, hc, rfl⟩ := List.mem_map.1 this
    exact ⟨c.2, hc⟩
  have hback : ∀ V, (labels V).Perm (a :: b :: rest) → ∀ v p, (v, p) ∈ V.codes → v ∈ a :: b :: rest := by
    intro V hV v p hv
    refine hV.mem_iff.1 ?_
    rw [← labels_eq]
    exact List.mem_map.2 ⟨_, hv, rfl⟩
  cases U with
  | leaf v => have := hU.length_eq; simp [labels] at this
  | fork l r =>
    obtain ⟨x, y, k, hs, hk⟩ := deepest_siblings l r
    generalize CodeTree.fork l r = U at hs hk hU hnU
    obtain ⟨p, hp, hx, hy⟩ := hs.codes
    -- bring `a` to the left sibling
    obtain ⟨pa, ha⟩ := hmem U hU a (by simp)
    obtain ⟨h1, h2⟩ := exchange_cost w hnU ha hx
    have hxa : w a ≤ w x := by
      have := hback U hU x _ hx
      simp only [List.mem_cons] at this
      rcases this with rfl | rfl | h
      · exact le_refl _
      · exact hab
      · exact hab.trans (hb x h)
    have hda := hk _ ha
    have c1 : treeCost w (relabel (exchange a x) U) ≤ treeCost w U := by
      obtain ⟨i, hi⟩ := Nat.exists_eq_add_of_le hxa
      simp only [List.length_append, List.length_singleton, hp] at h2 hda
      obtain ⟨j, hj⟩ := Nat.exists_eq_add_of_le hda
      rw [hi, hj] at h2
      simp only [Nat.add_mul, Nat.mul_add] at h2
      have : i * pa.length ≤ i * pa.length + i * j := Nat.le_add_right _ _
      omega
    have hs1 := hs.relabel (exchange a x)
    have hk1 : ∀ c ∈ (relabel (exchange a x) U).codes, c.2.length ≤ k + 1 := by
      rw [codes_relabel]
      intro c hc
      obtain ⟨d, hd, rfl⟩ := List.mem_map.1 hc
      exact hk d hd
    have hU1 := h1.trans hU
    have hnU1 := hU1.nodup_iff.2 hn
    have hxy : y ≠ x := by
      rintro rfl
      have := hnU
      rw [← labels_eq] at this
      have := List.inj_on_of_nodup_map this hx hy rfl
      simp at this
    have hya : exchange a x y ≠ a := by
      unfold exchange
      rw [if_neg hxy]
      split
      · subst_vars; exact Ne.symm hxy
      · assumption
    rw [show exchange a x x = a by unfold exchange; split <;> simp_all] at hs1
    generalize exchange a x y = y1 at hs1 hya
    generalize relabel (exchange a x) U = U1 at c1 hs1 hk1 hU1 hnU1
    -- bring `b` to the right sibling
    obtain ⟨p1, hp1, hx1, hy1⟩ := hs1.codes
    obtain ⟨pb, hb1⟩ := hmem U1 hU1 b (by simp)
    obtain ⟨h3, h4⟩ := exchange_cost w hnU1 hb1 hy1
    have hyb : w b ≤ w y1 := by
      have := hback U1 hU1 y1 _ hy1
      simp only [List.mem_cons] at this
      rcases this with h | rfl | h
      · exact absurd h hya
      · exact le_refl _
      · exact hb y1 h
    have hdb := hk1 _ hb1
    have c2 : treeCost w (relabel (exchange b y1) U1) ≤ treeCost w U1 := by
      obtain ⟨i, hi⟩ := Nat.exists_eq_add_of_le hyb
      simp only [List.length_append, List.length_singleton, hp1] at h4 hdb
      obtain ⟨j, hj⟩ := Nat.exists_eq_add_of_le hdb
      rw [hi, hj] at h4
      simp only [Nat.add_mul, Nat.mul_add] at h4
      omega
    have hs2 := hs1.relabel (exchange b y1)
    have hab' : a ≠ b := by rintro rfl; simp at hn
    rw [show exchange b y1 y1 = b by unfold exchange; split <;> simp_all,
      show exchange b y1 a = a by simp [exchange, hab', Ne.symm hya]] at hs2
    have hU2 := h3.trans hU1
    generalize relabel (exchange b y1) U1 = U2 at c2 hs2 hU2
    obtain ⟨V, rest', h5, h6, -, h7⟩ := hs2.join w hw
    refine ⟨V, h6.trans ?_, by omega⟩
    exact (List.Perm.cons_inv (List.Perm.cons_inv (h5.symm.trans hU2))).cons n

/-! ## From prefix-free codes to trees -/

/-- Prefix-free codes cost at least what some tree over the same symbols costs. -/
theorem exists_tree (w : Nat → Nat) {codes : List (Nat × List Bool)} (hne : codes ≠ [])
    (hp : codes.Pairwise (fun c d => ¬ Clash c.2 d.2)) :
    ∃ U : CodeTree, (labels U).Perm (codes.map Prod.fst) ∧ treeCost w U ≤ codeCost w codes := by
  obtain ⟨k, hk⟩ : ∃ k, (codes.map (fun c => c.2.length)).sum ≤ k := ⟨_, le_refl _⟩
  induction k using Nat.strong_induction_on generalizing codes with
  | _ k ih =>
    by_cases hnil : ∃ v, (v, []) ∈ codes
    · obtain ⟨v, hv⟩ := hnil
      have : codes = [(v, [])] := by
        obtain ⟨s, t, rfl⟩ := List.append_of_mem hv
        obtain ⟨-, h2, h3⟩ := List.pairwise_append.1 hp
        have hs : s = [] := List.eq_nil_iff_forall_not_mem.2 fun c hc =>
          h3 c hc (v, []) (by simp) (.inr List.nil_prefix)
        have ht : t = [] := List.eq_nil_iff_forall_not_mem.2 fun c hc =>
          (List.pairwise_cons.1 h2).1 c hc (.inl List.nil_prefix)
        simp [hs, ht]
      subst this
      exact ⟨.leaf v, by simp [labels], by simp [treeCost]⟩
    · -- split by the first bit
      let tails (b : Bool) : List (Nat × List Bool) :=
        codes.filterMap (fun c => if c.2.head? = some b then some (c.1, c.2.tail) else none)
      have hperm : codes.Perm ((tails false).map (fun c => (c.1, false :: c.2)) ++
          (tails true).map (fun c => (c.1, true :: c.2))) := by
        have : ∀ l : List (Nat × List Bool), (∀ c ∈ l, c.2 ≠ []) →
            l.Perm ((l.filterMap (fun c => if c.2.head? = some false then some (c.1, c.2.tail) else none)).map
              (fun c => (c.1, false :: c.2)) ++
              (l.filterMap (fun c => if c.2.head? = some true then some (c.1, c.2.tail) else none)).map
              (fun c => (c.1, true :: c.2))) := by
          intro l hl
          induction l with
          | nil => simp
          | cons c l ihl =>
            obtain ⟨v, p⟩ := c
            have ih' := ihl fun c hc => hl c (by simp [hc])
            rcases p with _ | ⟨b, p⟩
            · exact absurd rfl (hl (v, []) (by simp))
            · cases b
              · simpa using ih'
              · simp only [List.filterMap_cons, List.head?_cons, Option.some_inj, Bool.true_eq_false, if_false,
                  if_true, List.tail_cons, List.map_cons]
                exact (ih'.cons _).trans List.perm_middle.symm
        exact this codes fun c hc h => hnil ⟨c.1, by rw [← h]; exact hc⟩
      have hpair : ∀ b, (tails b).Pairwise (fun c d => ¬ Clash c.2 d.2) := by
        have h1 := hperm.pairwise hp fun {a b} h => fun hcl => h hcl.symm
        obtain ⟨h2, h3, -⟩ := List.pairwise_append.1 h1
        rw [List.pairwise_map] at h2 h3
        intro b
        cases b
        · exact h2.imp fun h => by simpa [not_clash_cons] using h
        · exact h3.imp fun h => by simpa [not_clash_cons] using h
      have hlen : ((tails false).map (fun c => c.2.length + 1)).sum +
          ((tails true).map (fun c => c.2.length + 1)).sum ≤ k := by
        have := (hperm.map (fun c : Nat × List Bool => c.2.length)).sum_eq
        simp only [List.map_append, List.map_map, Function.comp_def, List.length_cons, List.sum_append] at this
        omega
      have hlen' : ∀ b, ((tails b).map (fun c => c.2.length + 1)).sum =
          ((tails b).map (fun c => c.2.length)).sum + (tails b).length := by
        intro b
        generalize tails b = l
        induction l with
        | nil => rfl
        | cons c l ihl => simp only [List.map_cons, List.sum_cons, List.length_cons, ihl]; omega
      have hcost : codeCost w codes = (codeCost w (tails false) + (((tails false).map Prod.fst).map w).sum) +
          (codeCost w (tails true) + (((tails true).map Prod.fst).map w).sum) := by
        rw [codeCost_perm w hperm, codeCost_append, codeCost_under, codeCost_under]
      have hsym : (codes.map Prod.fst).Perm ((tails false).map Prod.fst ++ (tails true).map Prod.fst) := by
        have := hperm.map Prod.fst
        simpa [Function.comp_def] using this
      rw [hlen', hlen'] at hlen
      have hL := hpair false
      have hR := hpair true
      have hlr : tails false ≠ [] ∨ tails true ≠ [] := by
        by_contra h
        rw [not_or, not_not, not_not] at h
        rw [h.1, h.2] at hperm
        exact hne (List.Perm.eq_nil hperm)
      clear hpair hlen' hperm
      generalize tails false = L at *
      generalize tails true = R at *
      have grow : ∀ l : List (Nat × List Bool), l ≠ [] → 0 < l.length := fun l => List.length_pos_iff.2
      by_cases h1 : L = []
      · have h2 : R ≠ [] := hlr.resolve_left (not_not.2 h1)
        obtain ⟨U, h3, h4⟩ := ih _ (by have := grow R h2; omega) h2 hR (le_refl _)
        refine ⟨U, h3.trans ?_, by omega⟩
        subst h1
        exact hsym.symm
      · by_cases h2 : R = []
        · obtain ⟨U, h3, h4⟩ := ih _ (by have := grow L h1; omega) h1 hL (le_refl _)
          refine ⟨U, h3.trans ?_, by omega⟩
          subst h2
          rw [List.map_nil, List.append_nil] at hsym
          exact hsym.symm
        · obtain ⟨U, h3, h4⟩ := ih _ (by have := grow R h2; omega) h1 hL (le_refl _)
          obtain ⟨V, h5, h6⟩ := ih _ (by have := grow L h1; omega) h2 hR (le_refl _)
          refine ⟨.fork U V, (h3.append h5).trans hsym.symm, ?_⟩
          rw [treeCost, treeWeight_eq, treeWeight_eq, (h3.map w).sum_eq, (h5.map w).sum_eq]
          omega

/-! ## The merge phase -/

/-- The slot `n` is the root of a tree whose leaves are these slots. -/
def Over (nodes : List Node) : Nat → CodeTree → Prop
  | n, .leaf i => n = i
  | n, .fork l r => ∃ nd a b, nodes[n]? = some nd ∧ nd.left = some a ∧ nd.right = some b ∧
      Over nodes a l ∧ Over nodes b r

/-- A leaf replaced by a tree. -/
def graft (n : Nat) (S : CodeTree) : CodeTree → CodeTree
  | .leaf v => if v = n then S else .leaf v
  | .fork l r => .fork (graft n S l) (graft n S r)

theorem over_graft {nodes : List Node} {n : Nat} {S : CodeTree} (hS : Over nodes n S) {M : CodeTree} {i : Nat}
    (h : Over nodes i M) : Over nodes i (graft n S M) := by
  induction M generalizing i with
  | leaf v =>
    cases h
    unfold graft
    split
    · subst_vars; exact hS
    · rfl
  | fork l r ihl ihr =>
    obtain ⟨nd, a, b, h1, h2, h3, h4, h5⟩ := h
    exact ⟨nd, a, b, h1, h2, h3, ihl h4, ihr h5⟩

theorem labels_graft {n : Nat} {S M : CodeTree} (h : n ∉ labels M) : graft n S M = M := by
  induction M with
  | leaf v => simp only [labels, List.mem_singleton] at h; simp [graft, Ne.symm h]
  | fork l r ihl ihr =>
    simp only [labels, List.mem_append, not_or] at h
    simp [graft, ihl h.1, ihr h.2]

/-- Grafting a pair on a leaf of its weight adds that weight to the cost. -/
theorem graft_pair (w : Nat → Nat) {n a b : Nat} (hw : w n = w a + w b) {M : CodeTree} (hn : n ∈ labels M)
    (hd : (labels M).Nodup) :
    treeWeight w (graft n (.fork (.leaf a) (.leaf b)) M) = treeWeight w M ∧
    treeCost w (graft n (.fork (.leaf a) (.leaf b)) M) = treeCost w M + (w a + w b) ∧
    (labels (graft n (.fork (.leaf a) (.leaf b)) M)).Perm (a :: b :: (labels M).erase n) := by
  induction M with
  | leaf v =>
    simp only [labels, List.mem_singleton] at hn
    subst hn
    simp [graft, treeWeight, treeCost, labels, hw]
  | fork l r ihl ihr =>
    simp only [labels, List.mem_append] at hn
    simp only [labels] at hd
    obtain ⟨hdl, hdr, hdis⟩ := List.nodup_append.1 hd
    by_cases h : n ∈ labels l
    · have hr : n ∉ labels r := fun hr => hdis n h n hr rfl
      obtain ⟨h1, h2, h3⟩ := ihl h hdl
      refine ⟨by simp [graft, treeWeight, h1, labels_graft hr], ?_, ?_⟩
      · simp only [graft, treeCost, h1, h2, labels_graft hr]; omega
      · simp only [graft, labels, labels_graft hr]
        rw [List.erase_append_left _ h]
        exact h3.append_right _
    · have hr := hn.resolve_left h
      obtain ⟨h1, h2, h3⟩ := ihr hr hdr
      refine ⟨by simp [graft, treeWeight, h1, labels_graft h], ?_, ?_⟩
      · simp only [graft, treeCost, h1, h2, labels_graft h]; omega
      · simp only [graft, labels, labels_graft h]
        rw [List.erase_append_right _ h]
        exact (h3.append_left _).trans (List.perm_middle.trans (List.perm_middle.cons _))

theorem treeCost_relabel (w : Nat → Nat) (σ : Nat → Nat) (T : CodeTree) :
    treeCost w (relabel σ T) = treeCost (w ∘ σ) T ∧ treeWeight w (relabel σ T) = treeWeight (w ∘ σ) T := by
  induction T with
  | leaf v => exact ⟨rfl, rfl⟩
  | fork l r ihl ihr => simp [relabel, treeCost, treeWeight, ihl, ihr]

/-- A tree over leaf slots is a tree of their symbols. -/
theorem holds_of_over {nodes : List Node} {f : Nat → Nat} {M : CodeTree} {n : Nat} (h : Over nodes n M)
    (hl : ∀ i ∈ labels M, ∃ nd, nodes[i]? = some nd ∧ isLeaf nd = true ∧ nd.sym = f i) :
    Holds nodes n (relabel f M) := by
  induction M generalizing n with
  | leaf v => cases h; exact hl v (by simp [labels])
  | fork l r ihl ihr =>
    obtain ⟨nd, a, b, h1, h2, h3, h4, h5⟩ := h
    exact ⟨nd, a, b, h1, h2, h3, ihl h4 (fun i hi => hl i (by simp [labels, hi])),
      ihr h5 (fun i hi => hl i (by simp [labels, hi]))⟩

theorem treeCost_congr {w w' : Nat → Nat} {T : CodeTree} (h : ∀ v ∈ labels T, w v = w' v) :
    treeCost w T = treeCost w' T ∧ treeWeight w T = treeWeight w' T := by
  induction T with
  | leaf v => exact ⟨rfl, h v (by simp [labels])⟩
  | fork l r ihl ihr =>
    obtain ⟨h1, h2⟩ := ihl fun v hv => h v (by simp [labels, hv])
    obtain ⟨h3, h4⟩ := ihr fun v hv => h v (by simp [labels, hv])
    simp [treeCost, treeWeight, h1, h2, h3, h4]

theorem mergeAll_append {wmax k : Nat} {f g : Forest} (h : mergeAll wmax k f = .ok g) :
    ∃ more, g.nodes = f.nodes ++ more := by
  induction k generalizing f with
  | zero => simp only [mergeAll, Except.ok.injEq] at h; subst h; exact ⟨[], by simp⟩
  | succ k ih =>
    rcases hpq : f.pq with _ | ⟨a, _ | ⟨b, rest⟩⟩
    · simp only [mergeAll, hpq, Except.ok.injEq] at h; subst h; exact ⟨[], by simp⟩
    · simp only [mergeAll, hpq, Except.ok.injEq] at h; subst h; exact ⟨[], by simp⟩
    · simp only [mergeAll, hpq] at h
      split at h
      · cases h
      · obtain ⟨more, hm⟩ := ih h
        exact ⟨_, by rw [hm, mergePair, addNode_nodes, List.append_assoc]⟩

/-- The merge phase builds a cheapest tree over the roots it starts from. -/
theorem mergeAll_optimal {L : List Node} {wmax k : Nat} {f g : Forest} {r : Nat} (h : Woods L f)
    (hg : mergeAll wmax k f = .ok g) (hr : g.pq = [r]) :
    ∃ M, Over g.nodes r M ∧ (labels M).Perm f.pq ∧
      ∀ U, (labels U).Perm f.pq → treeCost (weightOf f.nodes) M ≤ treeCost (weightOf f.nodes) U := by
  have base : ∀ f : Forest, f = g → ∃ M, Over g.nodes r M ∧ (labels M).Perm f.pq ∧
      ∀ U, (labels U).Perm f.pq → treeCost (weightOf f.nodes) M ≤ treeCost (weightOf f.nodes) U := by
    rintro f rfl
    exact ⟨.leaf r, rfl, by simp [labels, hr], fun U _ => by simp [treeCost]⟩
  induction k generalizing f with
  | zero => simp only [mergeAll, Except.ok.injEq] at hg; exact base f hg
  | succ k ih =>
    rcases hpq : f.pq with _ | ⟨a, _ | ⟨b, rest⟩⟩
    · simp only [mergeAll, hpq, Except.ok.injEq] at hg; rw [← hpq]; exact base f hg
    · simp only [mergeAll, hpq, Except.ok.injEq] at hg; rw [← hpq]; exact base f hg
    · simp only [mergeAll, hpq] at hg
      split at hg
      · cases hg
      · have hw := h.within
        have hs := h.sorted
        rw [hpq] at hw hs
        have hnd : (a :: b :: rest).Nodup := hs.imp fun {x y} hxy => by
          rintro rfl
          rcases hxy with h' | ⟨-, h'⟩ <;> omega
        obtain ⟨hs1, hs2⟩ := List.pairwise_cons.1 hs
        obtain ⟨hs3, -⟩ := List.pairwise_cons.1 hs2
        obtain ⟨M, h1, h2, h3⟩ := ih (h.merge hpq) hg
        have hperm := addNode_perm (forkNode (weightOf f.nodes a + weightOf f.nodes b) a b)
          { nodes := f.nodes, pq := rest }
        have hnew : f.nodes.length ∉ a :: b :: rest := fun hm => by have := hw _ hm; omega
        have hwt : weightOf (mergePair f.nodes a b rest).nodes f.nodes.length =
            weightOf f.nodes a + weightOf f.nodes b := by
          rw [mergePair, addNode_nodes, weightOf_new]; rfl
        have hold : ∀ v ∈ a :: b :: rest, weightOf (mergePair f.nodes a b rest).nodes v = weightOf f.nodes v :=
          fun v hv => by rw [mergePair, addNode_nodes, weightOf_append (hw v hv)]
        have hwt' : weightOf (mergePair f.nodes a b rest).nodes f.nodes.length =
            weightOf (mergePair f.nodes a b rest).nodes a + weightOf (mergePair f.nodes a b rest).nodes b := by
          rw [hwt, hold a (by simp), hold b (by simp)]
        have hM : (labels M).Perm (f.nodes.length :: rest) := h2.trans hperm
        have hnM : (labels M).Nodup := hM.nodup_iff.2 (List.nodup_cons.2
          ⟨fun hm => hnew (by simp [hm]), (List.nodup_cons.1 (List.nodup_cons.1 hnd).2).2⟩)
        obtain ⟨-, h4, h5⟩ := graft_pair _ hwt' (hM.mem_iff.2 (by simp)) hnM
        have h5' : (labels (graft f.nodes.length (.fork (.leaf a) (.leaf b)) M)).Perm (a :: b :: rest) := by
          refine h5.trans ((List.Perm.cons _ (List.Perm.cons _ ?_)))
          have := hM.erase f.nodes.length
          simpa using this
        refine ⟨graft f.nodes.length (.fork (.leaf a) (.leaf b)) M, over_graft ?_ h1, h5', fun U hU => ?_⟩
        · obtain ⟨more, hm⟩ := mergeAll_append hg
          refine ⟨forkNode (weightOf f.nodes a + weightOf f.nodes b) a b, a, b, ?_, rfl, rfl, rfl, rfl⟩
          rw [hm]
          exact getElem?_append_some (by simp [mergePair]) _
        · obtain ⟨U', h6, h7⟩ := greedy_step (weightOf (mergePair f.nodes a b rest).nodes) hU hnd
            (by rw [hold a (by simp), hold b (by simp)]; exact keyBefore_le (hs1 b (by simp)))
            (fun v hv => by
              rw [hold b (by simp), hold v (by simp [hv])]; exact keyBefore_le (hs3 v hv)) hwt'
          have h8 := h3 U' (h6.trans hperm.symm)
          rw [← (treeCost_congr fun v hv => hold v (h5'.mem_iff.1 hv)).1,
            ← (treeCost_congr fun v hv => hold v (hU.mem_iff.1 hv)).1, h4]
          omega


/-! ## The tree of `BUILDC` -/

/-- The symbols `BUILDC` builds over are distinct. -/
theorem allLeaves_nodup (s : State) : (presentSymbols s ++ [s.cfg.asize]).Nodup := by
  refine List.Nodup.append (List.nodup_range.filter _) (by simp) ?_
  intro x hx hy
  simp [presentSymbols] at hx hy
  omega

/-- The merge phase over the leaves of the counts leaves a cheapest tree over their symbols (R143). -/
theorem mergeAll_cheapest {s : State} {g : Forest} {r : Nat}
    (h0 : mergeAll (weightMax s.cfg) (loadLeaves s.cfg.asize s.cnt).pq.length
      (loadLeaves s.cfg.asize s.cnt) = .ok g) (h1 : Woods (allLeaves s) g) (h2 : g.pq = [r]) :
    ∃ T, Holds g.nodes r T ∧ (labels T).Perm (presentSymbols s ++ [s.cfg.asize]) ∧
      ∀ U, (labels U).Perm (presentSymbols s ++ [s.cfg.asize]) →
        treeCost (leafWeight s) T ≤ treeCost (leafWeight s) U := by
  obtain ⟨hw, hn⟩ := loadLeaves_woods s
  generalize loadLeaves s.cfg.asize s.cnt = f at h0 hw hn
  obtain ⟨M, hM1, hM2, hM3⟩ := mergeAll_optimal hw h0 h2
  have hpq : f.pq.Perm (List.range (allLeaves s).length) := by
    have := hw.owned
    rw [hn] at this
    have h0 : (allLeaves s).flatMap (fun nd => nd.left.toList ++ nd.right.toList) = [] := by
      simp [allLeaves, leafNode]
    simpa [h0] using this
  have hsyms := allLeaves_syms s
  have hnd : ((allLeaves s).map Node.sym).Nodup := by
    rw [hsyms]
    refine List.Nodup.append (List.nodup_range.filter _) (by simp) ?_
    intro x hx hy
    simp [presentSymbols] at hx hy
    omega
  let sy : Nat → Nat := fun i => (((allLeaves s).map Node.sym)[i]?).getD 0
  let ix : Nat → Nat := fun v => ((allLeaves s).map Node.sym).idxOf v
  have hwt : ∀ i < (allLeaves s).length, weightOf (allLeaves s) i = leafWeight s (sy i) := by
    intro i hi
    have hi' := List.getElem?_eq_getElem hi
    rw [weightOf_eq hi']
    have : sy i = (allLeaves s)[i].sym := by simp [sy, hi]
    rw [this]
    have hmem : (allLeaves s)[i] ∈ allLeaves s := List.getElem_mem hi
    generalize (allLeaves s)[i] = nd at hmem
    rcases List.mem_append.1 hmem with hm | hm
    · obtain ⟨j, hj, rfl⟩ := List.mem_map.1 hm
      simp [presentSymbols] at hj
      exact (if_neg (by show ¬ j = s.cfg.asize; omega)).symm
    · simp at hm; subst hm; simp [leafNode, leafWeight]
  have hlab : ∀ i ∈ labels M, i < (allLeaves s).length := fun i hi => by
    have := (hM2.trans hpq).mem_iff.1 hi
    simpa using this
  have hH : Holds g.nodes r (relabel sy M) := by
    refine holds_of_over hM1 fun i hi => ?_
    have hi := hlab i hi
    obtain ⟨forks, hs, -⟩ := h1.shape
    refine ⟨(allLeaves s)[i], ?_, ?_, by simp [sy, hi]⟩
    · rw [hs, List.getElem?_append_left hi, List.getElem?_eq_getElem hi]
    · have hmem : (allLeaves s)[i] ∈ allLeaves s := List.getElem_mem hi
      generalize (allLeaves s)[i] = nd at hmem
      rcases List.mem_append.1 hmem with hm | hm
      · obtain ⟨j, hj, rfl⟩ := List.mem_map.1 hm; rfl
      · simp at hm; subst hm; rfl
  have hsyl : (List.range (allLeaves s).length).map sy = (allLeaves s).map Node.sym := by
    apply List.ext_getElem
    · simp
    · intro i h1 h2
      simp at h1
      simp [sy, h1]
  have hlabT : (labels (relabel sy M)).Perm (presentSymbols s ++ [s.cfg.asize]) := by
    rw [labels_relabel, ← hsyms, ← hsyl]
    exact (hM2.trans hpq).map sy
  have hcostT : treeCost (weightOf f.nodes) M = treeCost (leafWeight s) (relabel sy M) := by
    rw [(treeCost_relabel _ _ _).1, hn]
    exact (treeCost_congr fun v hv => hwt v (hlab v hv)).1
  have hopt : ∀ U, (labels U).Perm (presentSymbols s ++ [s.cfg.asize]) →
      treeCost (leafWeight s) (relabel sy M) ≤ treeCost (leafWeight s) U := by
    intro U hU
    have hixsy : ∀ v ∈ labels U, sy (ix v) = v ∧ ix v < (allLeaves s).length := by
      intro v hv
      have hv := hU.mem_iff.1 hv
      rw [← hsyms] at hv
      have hl := List.idxOf_lt_length_iff.2 hv
      refine ⟨?_, by simpa [ix] using hl⟩
      simp only [sy, ix]
      rw [List.getElem?_eq_getElem hl]
      simp
    have h6 : (labels (relabel ix U)).Perm f.pq := by
      rw [labels_relabel]
      refine ((hU.map ix).trans ?_).trans hpq.symm
      rw [← hsyms, ← hsyl, List.map_map]
      have : (List.range (allLeaves s).length).map (ix ∘ sy) = List.range (allLeaves s).length := by
        conv_rhs => rw [← List.map_id (List.range (allLeaves s).length)]
        refine List.map_congr_left fun i hi => ?_
        simp at hi
        simp only [Function.comp, sy, ix, id]
        rw [List.getElem?_eq_getElem (by simpa using hi)]
        simp only [Option.getD_some]
        exact hnd.idxOf_getElem i (by simpa using hi)
      rw [this]
    have h7 := hM3 _ h6
    rw [hcostT, (treeCost_relabel _ ix U).1, hn] at h7
    refine h7.trans (le_of_eq (treeCost_congr fun v hv => ?_).1)
    obtain ⟨h8, h9⟩ := hixsy v hv
    simp [hwt _ h9, h8]
  exact ⟨relabel sy M, hH, hlabT, hopt⟩

end Sys2Proof.Machine
end

