-- ==== Sys2Proof/Laws/Memory.lean ====
section
/-! SUPPORT. The laws of the count memory: read after write, and every write keeps the canonical form. -/

namespace Sys2Proof.Machine

/-- Below every index of a canonical memory nothing is listed. -/
theorem Memory.read_of_lt {m : Memory} {a : Nat} (h : ∀ p ∈ m, a < p.1) : m.read a = 0 := by
  induction m with
  | nil => rfl
  | cons p m ih =>
    obtain ⟨k, v⟩ := p
    have hk : a < k := h _ (List.mem_cons_self)
    simp only [Memory.read, if_neg (by omega : k ≠ a)]
    exact ih fun q hq => h q (List.mem_cons_of_mem _ hq)

/-- The canonical form of a non-empty memory, taken apart. -/
theorem Memory.wf_cons {k v : Nat} {m : Memory} :
    Memory.wf ((k, v) :: m) ↔ (v ≠ 0 ∧ (∀ p ∈ m, k < p.1) ∧ Memory.wf m) := by
  simp only [Memory.wf, List.map_cons, List.pairwise_cons, List.mem_map, List.mem_cons,
    forall_eq_or_imp, forall_exists_index, and_imp, forall_apply_eq_imp_iff₂]
  tauto

/-- A write lists no index but the old ones and its own. -/
theorem Memory.mem_write {m : Memory} {a v : Nat} {p : Nat × Nat} (h : p ∈ m.write a v) :
    p = (a, v) ∨ p ∈ m := by
  induction m with
  | nil => simp only [Memory.write] at h; split at h <;> simp_all
  | cons q m ih =>
    obtain ⟨k, w⟩ := q
    simp only [Memory.write] at h
    split at h
    · split at h <;> simp_all
    · split at h
      · split at h <;> simp_all <;> tauto
      · rcases List.mem_cons.1 h with h | h
        · simp [h]
        · rcases ih h with h | h <;> simp [h]

/-- Every write keeps the canonical form. -/
theorem Memory.wf_write {m : Memory} (h : Memory.wf m) (a v : Nat) : Memory.wf (m.write a v) := by
  induction m with
  | nil =>
    simp only [Memory.write]
    split
    · exact h
    · exact Memory.wf_cons.2 ⟨‹_›, by simp, h⟩
  | cons q m ih =>
    obtain ⟨k, w⟩ := q
    obtain ⟨hw, hk, hm⟩ := Memory.wf_cons.1 h
    simp only [Memory.write]
    split
    · split
      · exact h
      · refine Memory.wf_cons.2 ⟨‹_›, fun p hp => ?_, h⟩
        rcases List.mem_cons.1 hp with rfl | hp
        · assumption
        · have := hk p hp; omega
    · split
      · split
        · exact hm
        · exact Memory.wf_cons.2 ⟨‹_›, fun p hp => by have := hk p hp; omega, hm⟩
      · refine Memory.wf_cons.2 ⟨hw, fun p hp => ?_, ih hm⟩
        rcases Memory.mem_write hp with rfl | hp
        · simp only; omega
        · exact hk p hp

/-- Read after write: the written index reads the value, every other index as before. -/
theorem Memory.read_write {m : Memory} (h : Memory.wf m) (a v b : Nat) :
    (m.write a v).read b = if a = b then v else m.read b := by
  induction m with
  | nil =>
    simp only [Memory.write]
    split <;> simp_all [Memory.read]
  | cons q m ih =>
    obtain ⟨k, w⟩ := q
    obtain ⟨hw, hk, hm⟩ := Memory.wf_cons.1 h
    simp only [Memory.write]
    by_cases hak : a < k
    · rw [if_pos hak]
      by_cases hv : v = 0
      · rw [if_pos hv]
        by_cases hab : a = b
        · subst hab hv
          rw [if_pos rfl]
          refine Memory.read_of_lt fun p hp => ?_
          rcases List.mem_cons.1 hp with rfl | hp
          · exact hak
          · have := hk p hp; omega
        · rw [if_neg hab]
      · rw [if_neg hv]
        simp [Memory.read]
    · rw [if_neg hak]
      by_cases hak' : a = k
      · subst hak'
        rw [if_pos rfl]
        by_cases hv : v = 0
        · rw [if_pos hv]
          by_cases hab : a = b
          · subst hab hv
            rw [if_pos rfl]
            exact Memory.read_of_lt hk
          · simp [Memory.read, hab]
        · rw [if_neg hv]
          by_cases hab : a = b <;> simp [Memory.read, hab]
      · rw [if_neg hak']
        simp only [Memory.read]
        by_cases hkb : k = b
        · rw [if_pos hkb, if_neg (by omega), if_pos hkb]
        · rw [if_neg hkb, if_neg hkb]
          exact ih hm

/-- A count that reads non-zero is listed. -/
theorem Memory.mem_of_read {m : Memory} {a : Nat} (h : m.read a ≠ 0) : (a, m.read a) ∈ m := by
  induction m with
  | nil => simp [Memory.read] at h
  | cons q m ih =>
    obtain ⟨k, w⟩ := q
    simp only [Memory.read] at h ⊢
    split at h
    · subst_vars; simp
    · rw [if_neg ‹_›]; exact List.mem_cons_of_mem _ (ih h)

end Sys2Proof.Machine
end

