-- ==== Sys2Proof/Laws/Invariant.lean ====
section
/-! SUPPORT. The invariant through each operation: fault entry, reset, the stores of the bus, and the bodies of the
six commands; and that each of them ends. -/

namespace Sys2Proof.Machine

/-! ## What the invariant says of the arena -/

/-- Every child pointer names an allocated slot (R43). -/
theorem inv_childrenIn {s : State} (h : Inv s) : ChildrenIn s.nodes :=
  fun i nd b c hi hc => (h.nodesOk i nd hi).childIn b c hc

/-- A measure falls along every child pointer (R44, R48). -/
theorem inv_falls {s : State} (h : Inv s) : ∃ f, Falls s.nodes f ∧
    ∀ n, n < s.nodes.length → f n < s.nodes.length := by
  by_cases hs : s.src = true
  · refine ⟨fun n => s.nodes.length - 1 - n, ?_, fun n hn => by simp only; omega⟩
    intro i nd b c hi hc
    have h1 := (h.nodesOk i nd hi).childOrder b c hc
    have h2 := (h.nodesOk i nd hi).childIn b c hc
    simp only [hs, if_true] at h1
    simp only
    omega
  · refine ⟨id, ?_, fun n hn => hn⟩
    intro i nd b c hi hc
    have h1 := (h.nodesOk i nd hi).childOrder b c hc
    simpa [hs] using h1

/-! ## Single updates -/

/-- Fault entry keeps the invariant (R275). -/
theorem inv_enterFault {s : State} (h : Inv (setMode .idle s)) (c : Cause) (i : Word) : Inv (enterFault c i s) where
  params := h.params
  notRunning := by simp [enterFault]
  causeRecorded := by simp [enterFault]
  infoClear := by simp [enterFault]
  treeHasRoot := h.treeHasRoot
  arenaFits := h.arenaFits
  rootIn := h.rootIn
  curIn := h.curIn
  nodesOk := h.nodesOk
  rsymRange := h.rsymRange
  eosMeaning := h.eosMeaning
  rsymClear := h.rsymClear
  countsCanonical := h.countsCanonical
  countsRange := h.countsRange
  queueIdle := by simp [enterFault]
  queueSorted := h.queueSorted
  queueFits := h.queueFits
  sinkRange := h.sinkRange

/-- The reset state satisfies the invariant, whatever the parameters and the surroundings. -/
theorem inv_clearBlock {s : State} (h : s.cfg.wf = true) (hs : ∀ v ∈ s.symOut, v < s.cfg.asize) :
    Inv (clearBlock s) where
  params := h
  notRunning := by simp [clearBlock]
  causeRecorded := by simp [clearBlock]
  infoClear := by simp [clearBlock]
  treeHasRoot := by simp [clearBlock]
  arenaFits := by simp [clearBlock]
  rootIn := by simp [clearBlock, PtrIn]
  curIn := by simp [clearBlock, PtrIn]
  nodesOk := by simp [clearBlock]
  rsymRange := by simp [clearBlock]
  eosMeaning := by simp [clearBlock]
  rsymClear := by simp [clearBlock]
  countsCanonical := ⟨List.Pairwise.nil, by simp [clearBlock]⟩
  countsRange := by simp [clearBlock]
  queueIdle := by simp [clearBlock]
  queueSorted := by simp [clearBlock]
  queueFits := by simp [clearBlock]
  sinkRange := hs

/-- The invariant does not look at the host port, the bus answers, `NIDX`, or the ends of the other streams. -/
theorem inv_surroundings {s : State} (h : Inv s) (nidx : Word) (tabIn tabOut : List Byte) (bitIn : List Bool)
    (host : List HostEvent) (replies : List Reply) :
    Inv { s with nidx := nidx, tabIn := tabIn, tabOut := tabOut, bitIn := bitIn, host := host,
                 replies := replies } where
  params := h.params
  notRunning := h.notRunning
  causeRecorded := h.causeRecorded
  infoClear := h.infoClear
  treeHasRoot := h.treeHasRoot
  arenaFits := h.arenaFits
  rootIn := h.rootIn
  curIn := h.curIn
  nodesOk := h.nodesOk
  rsymRange := h.rsymRange
  eosMeaning := h.eosMeaning
  rsymClear := h.rsymClear
  countsCanonical := h.countsCanonical
  countsRange := h.countsRange
  queueIdle := h.queueIdle
  queueSorted := h.queueSorted
  queueFits := h.queueFits
  sinkRange := h.sinkRange

/-- A count store keeps the invariant (R49, R70). -/
theorem inv_setCount {s : State} (h : Inv s) {i v : Nat} (hi : i < s.cfg.asize) (hv : v ≤ weightMax s.cfg) :
    Inv (setCount i v s) where
  params := h.params
  notRunning := h.notRunning
  causeRecorded := h.causeRecorded
  infoClear := h.infoClear
  treeHasRoot := h.treeHasRoot
  arenaFits := h.arenaFits
  rootIn := h.rootIn
  curIn := h.curIn
  nodesOk := h.nodesOk
  rsymRange := h.rsymRange
  eosMeaning := h.eosMeaning
  rsymClear := h.rsymClear
  countsCanonical := Memory.wf_write h.countsCanonical i v
  countsRange := by
    intro p hp
    rcases Memory.mem_write hp with rfl | hp
    · exact ⟨hi, hv⟩
    · exact h.countsRange p hp
  queueIdle := h.queueIdle
  queueSorted := h.queueSorted
  queueFits := h.queueFits
  sinkRange := h.sinkRange

theorem narrowCount_le (c : Config) (v : Word) : narrowCount c v ≤ weightMax c := by
  unfold narrowCount weightMax
  have := Nat.mod_lt v.toNat (show 2 ^ c.ww > 0 from Nat.two_pow_pos _)
  omega

/-- A decoded symbol keeps the invariant (R213, R216). -/
theorem inv_setResult {s : State} (h : Inv s) {n v : Nat} (hn : n < s.nodes.length) (hv : v ≤ s.cfg.asize)
    (bits : List Bool) : Inv (setResult v (setCursor n bits s)) where
  params := h.params
  notRunning := h.notRunning
  causeRecorded := h.causeRecorded
  infoClear := h.infoClear
  treeHasRoot := h.treeHasRoot
  arenaFits := h.arenaFits
  rootIn := h.rootIn
  curIn := by
    intro i hi
    simp only [setResult, setCursor, Option.some_inj] at hi ⊢
    omega
  nodesOk := h.nodesOk
  rsymRange := hv
  eosMeaning := rfl
  rsymClear := by simp [setResult]
  countsCanonical := h.countsCanonical
  countsRange := h.countsRange
  queueIdle := h.queueIdle
  queueSorted := h.queueSorted
  queueFits := h.queueFits
  sinkRange := h.sinkRange

theorem inv_setCursor {s : State} (h : Inv s) {n : Nat} (hn : n < s.nodes.length) (bits : List Bool) :
    Inv (setCursor n bits s) where
  params := h.params
  notRunning := h.notRunning
  causeRecorded := h.causeRecorded
  infoClear := h.infoClear
  treeHasRoot := h.treeHasRoot
  arenaFits := h.arenaFits
  rootIn := h.rootIn
  curIn := by
    intro i hi
    simp only [setCursor, Option.some_inj] at hi ⊢
    omega
  nodesOk := h.nodesOk
  rsymRange := h.rsymRange
  eosMeaning := h.eosMeaning
  rsymClear := h.rsymClear
  countsCanonical := h.countsCanonical
  countsRange := h.countsRange
  queueIdle := h.queueIdle
  queueSorted := h.queueSorted
  queueFits := h.queueFits
  sinkRange := h.sinkRange

/-- A symbol other than the sentinel written to `SO` keeps the invariant (R218). -/
theorem inv_symWrite {s : State} (h : Inv s) {v : Nat} (hv : v < s.cfg.asize) : Inv (symWrite v s) where
  params := h.params
  notRunning := h.notRunning
  causeRecorded := h.causeRecorded
  infoClear := h.infoClear
  treeHasRoot := h.treeHasRoot
  arenaFits := h.arenaFits
  rootIn := h.rootIn
  curIn := h.curIn
  nodesOk := h.nodesOk
  rsymRange := h.rsymRange
  eosMeaning := h.eosMeaning
  rsymClear := h.rsymClear
  countsCanonical := h.countsCanonical
  countsRange := h.countsRange
  queueIdle := h.queueIdle
  queueSorted := h.queueSorted
  queueFits := h.queueFits
  sinkRange := by
    intro u hu
    simp only [symWrite, List.mem_append, List.mem_singleton] at hu
    rcases hu with hu | rfl
    · exact h.sinkRange u hu
    · exact hv

/-! ## Running a command -/

theorem setMode_idle {s : State} (h : s.mode = .idle) : setMode .idle (setMode .run s) = s := by
  cases s; cases h; rfl

/-- How a command body ends: with the invariant, either way (R275). -/
def EndsWell (f : Flow) : Prop :=
  (∃ u, f = .done u ∧ Inv (setMode .idle u)) ∨ (∃ u, f = .raised u ∧ Inv u)

/-- A command whose body ends well has a next state, and it satisfies the invariant. -/
theorem runCommand_ends {body : State → Flow} {s : State} (h : Inv s)
    (hb : s.mode = .idle → EndsWell (body (setMode .run s))) : ∃ t, runCommand body s = .next t ∧ Inv t := by
  cases hm : s.mode with
  | run => exact absurd hm h.notRunning
  | faulted => exact ⟨s, runCommand_faulted hm, h⟩
  | idle =>
    rcases hb hm with ⟨u, hu, hi⟩ | ⟨u, hu, hi⟩
    · exact ⟨_, runCommand_done hm hu, hi⟩
    · exact ⟨_, runCommand_raised hm hu, hi⟩

/-! ## The bodies -/

theorem writeBody_ends {s : State} (h : Inv s) (hm : s.mode = .idle) : EndsWell (writeBody (setMode .run s)) := by
  have hid := setMode_idle hm
  cases ht : s.tv with
  | false =>
    refine .inr ⟨enterFault .noTree 0x2#32 (setMode .run s), ?_, inv_enterFault (by rw [hid]; exact h) _ _⟩
    simp [writeBody, setMode, ht]
  | true =>
    obtain ⟨r, hr⟩ := Option.isSome_iff_exists.1 (h.treeHasRoot ht)
    obtain ⟨f, hf, hl⟩ := inv_falls h
    have hrl := h.rootIn r hr
    have happ : ∀ bytes, Inv (setMode .idle (tabWrite bytes (setMode .run s))) := by
      intro bytes
      have := inv_surroundings h s.nidx s.tabIn (s.tabOut ++ bytes) s.bitIn s.host s.replies
      rw [show setMode .idle (tabWrite bytes (setMode .run s)) = tabWrite bytes (setMode .idle (setMode .run s))
        from rfl, hid]
      exact this
    rcases emit_cases hf (inv_childrenIn h) hrl (hl r hrl) [] with ⟨T, hT⟩ | ⟨path, m, before, -, h4⟩
    · exact .inl ⟨_, writeBody_holds (s := setMode .run s) hf ht hr hT (hl r hrl), happ _⟩
    · exact .inr ⟨_, writeBody_missing (s := setMode .run s) ht hr h4, inv_enterFault (happ _) _ _⟩

theorem decodeSymbol_ends {s : State} (h : Inv (setMode .idle s)) (ht : s.tv = true) :
    EndsWell (decodeSymbol s) := by
  obtain ⟨r, hr⟩ := Option.isSome_iff_exists.1 (h.treeHasRoot ht)
  rcases decodeSymbol_within (s := s) (show ChildrenIn s.nodes from inv_childrenIn (s := setMode .idle s) h) hr (h.rootIn r hr) with
    ⟨p, rest, n, nd, -, -, hn, -, hd⟩ | ⟨n, c, rest, hn, -, hd⟩
  · exact .inl ⟨_, hd, inv_setResult h (List.getElem?_eq_some_iff.1 hn).1 (h.nodesOk n nd hn).symRange rest⟩
  · exact .inr ⟨_, hd, inv_enterFault (s := setCursor n rest s) (inv_setCursor h hn rest) _ _⟩

theorem decsymBody_ends {s : State} (h : Inv s) (hm : s.mode = .idle) : EndsWell (decsymBody (setMode .run s)) := by
  have hid := setMode_idle hm
  cases ht : s.tv with
  | false =>
    refine .inr ⟨enterFault .noTree 0x4#32 (setMode .run s), ?_, inv_enterFault (by rw [hid]; exact h) _ _⟩
    simp [decsymBody, setMode, ht]
  | true =>
    rw [decsymBody_of_tree (s := setMode .run s) ht]
    exact decodeSymbol_ends (by rw [hid]; exact h) ht

theorem decodeLoop_inv (k : Nat) {s : State} (h : Inv (setMode .idle s)) (ht : s.tv = true) :
    (∀ u, decodeLoop k s = .done u → Inv (setMode .idle u)) ∧ (∀ u, decodeLoop k s = .raised u → Inv u) := by
  induction k generalizing s with
  | zero => simp [decodeLoop]
  | succ k ih =>
    rcases decodeSymbol_ends h ht with ⟨u, hu, hi⟩ | ⟨u, hu, hi⟩
    · simp only [decodeLoop, hu, Flow.done_andThen]
      have htu : u.tv = true := by
        have := (decodeSymbol_frame (.inl hu)).1.1
        rw [this]; exact ht
      by_cases hv : u.rsym = u.cfg.asize
      · rw [if_pos hv]
        exact ⟨fun x hx => by cases hx; exact hi, fun x hx => by (cases hx)⟩
      · rw [if_neg hv]
        refine ih (s := symWrite u.rsym u) (inv_symWrite hi ?_) htu
        have : u.rsym ≤ u.cfg.asize := hi.rsymRange
        show u.rsym < u.cfg.asize
        omega
    · simp only [decodeLoop, hu, Flow.raised_andThen]
      exact ⟨fun x hx => by (cases hx), fun x hx => by cases hx; exact hi⟩

theorem decstrBody_ends {s : State} (h : Inv s) (hm : s.mode = .idle) : EndsWell (decstrBody (setMode .run s)) := by
  have hid := setMode_idle hm
  have h' : Inv (setMode .idle (setMode .run s)) := by rw [hid]; exact h
  cases ht : s.tv with
  | false =>
    refine .inr ⟨enterFault .noTree 0x5#32 (setMode .run s), ?_, inv_enterFault h' _ _⟩
    simp [decstrBody, setMode, ht]
  | true =>
    obtain ⟨r, hr⟩ := Option.isSome_iff_exists.1 (h.treeHasRoot ht)
    cases hz : zeroLengthRoot (setMode .run s) r with
    | true => exact .inr ⟨_, decstrBody_zeroLength (s := setMode .run s) ht hr hz, inv_enterFault h' _ _⟩
    | false =>
      rw [decstrBody_of_tree (s := setMode .run s) ht hr hz]
      obtain ⟨h1, h2⟩ := decodeLoop_inv ((setMode .run s).bitIn.length + 1) h' ht
      rcases decodeLoop_ends ((setMode .run s).bitIn.length + 1) (s := setMode .run s)
        (show ChildrenIn s.nodes from inv_childrenIn h) hr (h.rootIn r hr) hz (by omega) with ⟨t, hd⟩ | ⟨t, c, hd, -⟩
      · exact .inl ⟨t, hd, h1 t hd⟩
      · exact .inr ⟨t, hd, h2 t hd⟩

/-- The registers a build command clears, with any tree that is as the invariant asks (R131, R181). -/
theorem inv_built {s : State} (h : Inv s) {t : State}
    (ht : t = { s with
      mode := t.mode, fcause := t.fcause, finfo := t.finfo, tv := t.tv, src := t.src, eos := false, rv := false,
      rsym := 0, cur := none, root := t.root, nodes := t.nodes, pq := t.pq, tabIn := t.tabIn })
    (hmode : (t.mode = .idle ∧ t.fcause = none ∧ t.finfo = 0#32 ∧ t.pq = []) ∨
      (t.mode = .faulted ∧ t.fcause.isSome = true))
    (hroot : t.tv = true → t.root.isSome = true) (hlen : t.nodes.length ≤ s.cfg.ncap)
    (hin : PtrIn t.root t.nodes.length)
    (hnodes : ∀ i nd, t.nodes[i]? = some nd → NodeOk s.cfg t.src t.nodes.length i nd)
    (hpq : t.pq.Pairwise (KeyBefore t.nodes) ∧ ∀ e ∈ t.pq, e < t.nodes.length)
    (hfit : t.pq.length ≤ queueCap s.cfg) : Inv t := by
  have hcfg : t.cfg = s.cfg := by rw [ht]
  refine ⟨by rw [hcfg]; exact h.params, ?_, ?_, ?_, hroot, by rw [hcfg]; exact hlen, hin, ?_,
    by rw [hcfg]; exact hnodes, ?_, ?_, ?_, ?_, ?_, ?_, hpq, by rw [hcfg]; exact hfit, ?_⟩
  · rcases hmode with ⟨h1, -⟩ | ⟨h1, -⟩ <;> rw [h1] <;> simp
  · rcases hmode with ⟨h1, h2, -⟩ | ⟨h1, h2⟩ <;> simp [h1, h2]
  · rcases hmode with ⟨h1, -, h2, -⟩ | ⟨h1, -⟩ <;> simp [h1]
    exact h2
  · rw [ht]; simp [PtrIn]
  · rw [ht]; simp
  · rw [ht]; simp
  · rw [ht]; simp
  · rw [ht]; exact h.countsCanonical
  · rw [ht]; exact h.countsRange
  · rcases hmode with ⟨-, -, -, h2⟩ | ⟨h1, -⟩
    · exact fun _ => h2
    · simp [h1]
  · rw [ht]; exact h.sinkRange

/-- A state in `IDLE` records no fault. -/
theorem inv_idle {s : State} (h : Inv s) (hm : s.mode = .idle) : s.fcause = none ∧ s.finfo = 0#32 ∧ s.pq = [] := by
  refine ⟨?_, h.infoClear hm, h.queueIdle hm⟩
  have := h.causeRecorded
  simpa [hm] using this

/-- `BUILDT` always ends, with the invariant (R196). -/
theorem execBuildt_ends {s : State} (h : Inv s) (hm : s.mode = .idle) :
    ∃ t, exec .buildt s = .next t ∧ Inv t := by
  obtain ⟨hf, hi, hq⟩ := inv_idle h hm
  obtain ⟨-, ⟨codes, hg, hadm⟩, hstop⟩ :=
    loadPairs_cases s.cfg (pair := 0) loads_nil (admissible_nil _) (le_refl s.tabIn.length)
  obtain ⟨h1, h2⟩ := exec_buildt hm rfl
  generalize loadPairs s.cfg s.tabIn.length 0 { root := none, nodes := [] } s.tabIn = l at *
  have hlen : l.tree.nodes.length ≤ s.cfg.ncap := by rw [← hg.pathNodes]; exact hadm.fits
  have hin : PtrIn l.tree.root l.tree.nodes.length := by
    intro i hi
    rw [hg.root] at hi
    obtain ⟨Q, hs, rfl, hqq⟩ := hg
    split at hi
    · cases hi
    · cases hi
      rename_i hne
      rw [← hs.len]
      rcases Nat.eq_zero_or_pos Q.length with h0 | h0
      · rw [List.length_eq_zero_iff] at h0
        subst h0
        simp [leaves] at hne
      · exact h0
  rcases hstop with hstop | ⟨c, hstop, -⟩
  · exact ⟨_, h1 hstop, inv_built h rfl (.inl ⟨hm, hf, hi, rfl⟩) (fun h => h) hlen hin
      (fun i nd hn => hg.nodeOk hadm hn) (by simp) (by simp)⟩
  · exact ⟨_, h2 c hstop, inv_built h rfl (.inr ⟨rfl, rfl⟩) (by simp) hlen hin
      (fun i nd hn => hg.nodeOk hadm hn) (by simp) (by simp)⟩

/-- A count the invariant allows fits the weight. -/
theorem inv_read_le {s : State} (h : Inv s) (i : Nat) : s.cnt.read i ≤ weightMax s.cfg := by
  by_cases h0 : s.cnt.read i = 0
  · omega
  · exact (h.countsRange _ (Memory.mem_of_read h0)).2

theorem weightMax_pos {c : Config} (h : c.wf = true) : 1 ≤ weightMax c := by
  simp only [Config.wf, Config.wwOk, Bool.and_eq_true, decide_eq_true_eq] at h
  unfold weightMax
  have : 2 ^ 1 ≤ 2 ^ c.ww := Nat.pow_le_pow_right (by omega) (by omega)
  omega

/-- The leaves the counts give are as the invariant asks. -/
theorem inv_allLeaves {s : State} (h : Inv s) {nd : Node} (hnd : nd ∈ allLeaves s) :
    nd.sym ≤ s.cfg.asize ∧ nd.weight ≤ weightMax s.cfg ∧ nd.symv = true := by
  rcases List.mem_append.1 hnd with hnd | hnd
  · obtain ⟨i, hi, rfl⟩ := List.mem_map.1 hnd
    simp only [presentSymbols, List.mem_filter, List.mem_range] at hi
    exact ⟨by simp only [leafNode]; omega, inv_read_le h i, rfl⟩
  · simp only [List.mem_singleton] at hnd
    subst hnd
    exact ⟨le_refl _, weightMax_pos h.params, rfl⟩

/-- The nodes of the builder's forest are as the invariant asks. -/
theorem Woods.nodeOk {s : State} (h : Inv s) {g : Forest} (hw : Woods (allLeaves s) g)
    (hfit : ∀ nd ∈ g.nodes, nd.symv = false → nd.weight ≤ weightMax s.cfg) {i : Nat} {nd : Node}
    (hn : g.nodes[i]? = some nd) : NodeOk s.cfg false g.nodes.length i nd := by
  have hmem := List.mem_iff_getElem?.2 ⟨i, hn⟩
  have hag := hw.agree nd hmem
  have hil := (List.getElem?_eq_some_iff.1 hn).1
  cases hsv : nd.symv with
  | true =>
    obtain ⟨forks, hs, hf⟩ := hw.shape
    have hL : nd ∈ allLeaves s := by
      rw [hs] at hmem
      rcases List.mem_append.1 hmem with hmem | hmem
      · exact hmem
      · have := (hf nd hmem).2.1; rw [hsv] at this; cases this
    obtain ⟨h1, h2, -⟩ := inv_allLeaves h hL
    rw [hsv] at hag
    have hc := child_of_isLeaf hag.symm
    obtain ⟨hl, hr⟩ := isLeaf_iff.1 hag.symm
    exact ⟨fun b j hj => by rw [hc] at hj; (cases hj), fun b j hj => by rw [hc] at hj; (cases hj),
      by rw [hsv]; exact hag, h1, by simp [hsv], h2, by simp, fun _ => by rw [hl, hr]⟩
  | false =>
    obtain ⟨a, b, rfl, ⟨ha, -⟩, ⟨hb, -⟩, -⟩ := hw.forked i nd hn hsv
    refine ⟨?_, ?_, hag, by simp [forkNode], fun _ => rfl, hfit _ hmem hsv, by simp, fun _ => rfl⟩
    · intro c j hj
      cases c <;> simp [child, forkNode] at hj <;> omega
    · intro c j hj
      cases c <;> simp [child, forkNode] at hj <;> simp <;> omega

/-- `BUILDC` always ends, with the invariant (R145). -/
theorem execBuildc_ends {s : State} (h : Inv s) (hm : s.mode = .idle) :
    ∃ t, exec .buildc s = .next t ∧ Inv t := by
  obtain ⟨hf, hi, hq⟩ := inv_idle h hm
  have hL : (allLeaves s).length ≤ queueCap s.cfg := by
    rw [allLeaves_length]
    have : (presentSymbols s).length ≤ s.cfg.asize := by
      have := List.length_filter_le (fun i => decide (0 < s.cnt.read i)) (List.range s.cfg.asize)
      simpa [presentSymbols] using this
    unfold queueCap; omega
  have hcap : 2 * s.cfg.asize + 1 ≤ s.cfg.ncap := by
    have := h.params
    simp only [Config.wf, Config.ncapOk, Bool.and_eq_true, decide_eq_true_eq] at this
    omega
  have hle : ∀ g, Woods (allLeaves s) g → (allLeaves s).length ≤ g.nodes.length := by
    intro g hw
    obtain ⟨forks, hs, -⟩ := hw.shape
    rw [hs, List.length_append]
    omega
  unfold queueCap at hL
  rcases exec_buildc hm with ⟨g, r, -, h1, h2, -, h4, h5⟩ | ⟨g, a, b, rest, h1, h2, h3, h4, h5⟩
  · have hc := h1.count
    rw [h2] at hc
    simp only [List.length_singleton] at hc
    refine ⟨_, h5, inv_built h rfl (.inl ⟨hm, hf, hi, rfl⟩) (by simp) ?_ ?_
      (fun i nd hn => h1.nodeOk h h4 hn) (by simp) (by simp)⟩
    · show g.nodes.length ≤ s.cfg.ncap; omega
    · intro i hi
      cases hi
      exact h1.within r (by simp [h2])
  · have hc := h1.count
    have := hle g h1
    have hp : 0 < g.pq.length := by rw [h2]; simp
    refine ⟨_, h5, inv_built h rfl (.inr ⟨rfl, rfl⟩) (by simp) ?_ (by simp [PtrIn])
      (fun i nd hn => h1.nodeOk h h4 hn) ⟨h1.sorted, h1.within⟩ ?_⟩
    · show g.nodes.length ≤ s.cfg.ncap; omega
    · show g.pq.length ≤ queueCap s.cfg; unfold queueCap; omega

end Sys2Proof.Machine
end

