-- ==== Sys2Proof/Laws/PerInstr.lean ====
section
/-! SUPPORT. The family WordForm, one lemma per command: it is well-formed, its word is its opcode with zeros above
(R90, R92), and that word decodes to it, as a bus word and as a row of the opcode table. -/

namespace Sys2Proof.Laws.WordForm

/-- What the command word of `i` is (R90, R91, R92). -/
def Statement (i : Instr) : Prop :=
  i.wf = true ∧ opField (encode i) = opcode i ∧ zeroField (encode i) = 0#28 ∧ decode (encode i) = .ok i ∧
    decodeTableWord 32 (encode i).toNat = some i

theorem buildc : Statement .buildc := by unfold Statement; decide

theorem write : Statement .write := by unfold Statement; decide

theorem buildt : Statement .buildt := by unfold Statement; decide

theorem decsym : Statement .decsym := by unfold Statement; decide

theorem decstr : Statement .decstr := by unfold Statement; decide

theorem clear : Statement .clear := by unfold Statement; decide

end Sys2Proof.Laws.WordForm
end

