-- ==== Sys2Proof/Tests/Slice0.lean ====
section
/-! SUPPORT. Tests: the checks of well-formedness refuse ill-formed parameters; command words written out from R92;
one step of each command against the vectors of spec/95_test_vectors.md (named in each comment); and, for every
statement that has hypotheses, a state and operands that meet them. -/

namespace Sys2Proof.Tests

open Sys2Proof Sys2Proof.Machine

/-! ## Well-formedness (R5) -/

theorem test_wf_default : Config.default.wf = true := by decide
theorem test_wf_smallest : Config.wf { asize := 1, ww := 1, ncap := 3 } = true := by decide
theorem test_wf_largest : Config.wf { asize := 2 ^ 24, ww := 32, ncap := 2 ^ 31 } = true := by decide
theorem test_asize_zero_refused : Config.wf { asize := 0, ww := 32, ncap := 1 } = false := by decide
theorem test_asize_large_refused : Config.wf { asize := 2 ^ 24 + 1, ww := 32, ncap := 2 ^ 31 } = false := by decide
theorem test_ww_zero_refused : Config.wf { asize := 2, ww := 0, ncap := 5 } = false := by decide
theorem test_ww_large_refused : Config.wf { asize := 2, ww := 33, ncap := 5 } = false := by decide
theorem test_ncap_small_refused : Config.wf { asize := 2, ww := 32, ncap := 4 } = false := by decide
theorem test_ncap_large_refused : Config.wf { asize := 2, ww := 32, ncap := 2 ^ 31 + 1 } = false := by decide
/-- Every command is well-formed: no command has an operand field (R90). -/
theorem test_commands_wf :
    ∀ i ∈ [Instr.buildc, .write, .buildt, .decsym, .decstr, .clear], i.wf = true := by decide

/-! ## Decoding: the words of R92 bit by bit, and illegal words (R93, V60 to V62) -/

theorem test_decode_buildc : decode 0b00000000000000000000000000000001#32 = .ok .buildc := by decide
theorem test_decode_write : decode 0b00000000000000000000000000000010#32 = .ok .write := by decide
theorem test_decode_buildt : decode 0b00000000000000000000000000000011#32 = .ok .buildt := by decide
theorem test_decode_decsym : decode 0b00000000000000000000000000000100#32 = .ok .decsym := by decide
theorem test_decode_decstr : decode 0b00000000000000000000000000000101#32 = .ok .decstr := by decide
theorem test_decode_clear : decode 0b00000000000000000000000000001111#32 = .ok .clear := by decide
theorem test_decode_zero_illegal : decode 0x00000000#32 = .error .reservedOpcode := by decide
theorem test_decode_six_illegal : decode 0x00000006#32 = .error .reservedOpcode := by decide
theorem test_decode_high_bit_illegal : decode 0x00000011#32 = .error .reservedBits := by decide
theorem test_table_word : decodeTableWord 32 0xF = some .clear ∧ decodeTableWord 32 0x7 = none := by decide

/-! ## States -/

/-- The next state, if there is one. -/
def nextOf : Host.Outcome State Fault Refusal → Option State
  | .next s => some s
  | _ => none

/-- A field of the next state, if there is one. -/
def after {α : Type} (o : Host.Outcome State Fault Refusal) (f : State → α) : Option α := (nextOf o).map f

/-- ASIZE = 2, WW = 4, NCAP = 5. -/
def small : Config := { asize := 2, ww := 4, ncap := 5 }

/-- The reset state of that block. -/
def idle : State := State.resetOf small

/-- The counts [3, 3] of S2. -/
def counted : State := { idle with cnt := [(0, 3), (1, 3)] }

/-- The tree of S2. -/
def built : State := { counted with
  tv := true, root := some 4,
  nodes := [leafNode 0 3, leafNode 1 3, leafNode 2 1, forkNode 4 2 0, forkNode 7 1 3] }

/-- Its shape. -/
def shape : CodeTree := .fork (.leaf 1) (.fork (.leaf 2) (.leaf 0))

/-- Its table, `"1\n0\n2\n10\n0\n11\n"` (S2). -/
def text : List Byte :=
  [0x31#8, 0x0A#8, 0x30#8, 0x0A#8, 0x32#8, 0x0A#8, 0x31#8, 0x30#8, 0x0A#8, 0x30#8, 0x0A#8, 0x31#8, 0x31#8, 0x0A#8]

/-- `"0\n00\n"` (V22). -/
def chainText : List Byte := [0x30#8, 0x0A#8, 0x30#8, 0x30#8, 0x0A#8]

/-- The incomplete tree of V22. -/
def chain : State := { idle with
  tv := true, src := true, root := some 0,
  nodes := [{ placeholder with left := some 1 }, { placeholder with left := some 2 }, leafNode 0 0] }

/-- `"1\n0\n2\n10\n"`. -/
def lateText : List Byte :=
  [0x31#8, 0x0A#8, 0x30#8, 0x0A#8, 0x32#8, 0x0A#8, 0x31#8, 0x30#8, 0x0A#8]

/-- Its tree (R188): the leaf of 1 on the left, a node with no right child on the right, the sentinel below it. -/
def late : State := { idle with
  tv := true, src := true, root := some 0,
  nodes := [forkNode 0 1 2, leafNode 1 0, { placeholder with left := some 3 }, leafNode 2 0] }

/-- A table-built tree of one leaf. -/
def oneLeaf (v : Nat) : State := { idle with tv := true, src := true, root := some 0, nodes := [leafNode v 0] }

/-- The state after V60. -/
def faulted : State := { idle with mode := .faulted, fcause := some .illegalCommand }

/-- One host event pending. -/
def offer (e : HostEvent) (s : State) : State := { s with host := [e] }

/-! ## One step of each command -/

/-- S2: the arena, `ROOT`, `NALLOC`. -/
theorem test_buildc_ties : exec .buildc counted = .next built := rfl

/-- V11: `WEIGHT_OVERFLOW`, `FINFO` = 4, `PQ` = [n3, n0]. -/
theorem test_buildc_overflow :
    after (exec .buildc { idle with cnt := [(0, 15), (1, 1)] })
      (fun t => (t.fcause, t.finfo, t.root, t.nodes.length, t.pq)) =
    some (some .weightOverflow, 4#32, none, 4, [3, 0]) := by decide

/-- S2: the 14 bytes. -/
theorem test_write_table : after (exec .write built) State.tabOut = some text := by decide

/-- V14: `MISSING_CHILD` at the root, nothing written. -/
theorem test_write_incomplete :
    after (exec .write chain) (fun t => (t.fcause, t.finfo, t.tabOut)) = some (some .missingChild, 0#32, []) := by
  decide

/-- V22: the incomplete tree loads. -/
theorem test_buildt_incomplete : exec .buildt { idle with tabIn := chainText } = .next chain := rfl

/-- V33, its first two pairs and the space: `BAD_TABLE_SYNTAX` in pair 2, two bytes left. -/
theorem test_buildt_space :
    after (exec .buildt { idle with
        tabIn := [0x31#8, 0x0A#8, 0x30#8, 0x0A#8, 0x32#8, 0x0A#8, 0x31#8, 0x0A#8, 0x20#8, 0x30#8, 0x0A#8] })
      (fun t => (t.fcause, t.finfo, t.nodes.length, t.tv, t.tabIn.length)) =
    some (some .badTableSyntax, 2#32, 3, false, 2) := by decide

/-- V52: the present branches work. -/
theorem test_decsym_chain :
    after (exec .decsym { chain with bitIn := [false, false] }) (fun t => (t.rsym, t.cur, t.rv, t.eos, t.bitIn)) =
    some (0, some 2, true, false, []) := by decide

/-- V54: `MISSING_CHILD` at n1, both bits consumed. -/
theorem test_decsym_missing :
    after (exec .decsym { chain with bitIn := [false, true] }) (fun t => (t.fcause, t.finfo, t.cur, t.bitIn)) =
    some (some .missingChild, 1#32, some 1, []) := by decide

/-- Tree of S2 (codes 1 → `0`, 2 → `10`, 0 → `11`), `BI` = `0 11 10 1`: as in V41 and V57, the sentinel ends it. -/
theorem test_decstr_stops :
    after (exec .decstr { built with bitIn := [false, true, true, true, false, true] })
      (fun t => (t.symOut, t.rsym, t.eos, t.cur, t.bitIn)) =
    some ([1, 0], 2, true, some 2, [true]) := by decide

/-- V50: `ZERO_LENGTH_LOOP`, no bit consumed. -/
theorem test_decstr_zero_length :
    after (exec .decstr { oneLeaf 1 with bitIn := [false, true] }) (fun t => (t.fcause, t.finfo, t.bitIn, t.symOut)) =
    some (some .zeroLengthLoop, 0#32, [false, true], []) := by decide

/-- V66: the tree and the counts are gone. -/
theorem test_clear_built :
    after (exec .clear built) (fun t => (t.tv, t.root, t.nodes, t.cnt)) = some (false, none, [], []) := by decide

/-- V65: out of `FAULTED`. -/
theorem test_clear_faulted :
    after (exec .clear faulted) (fun t => (t.mode, t.fcause, t.finfo)) = some (.idle, none, 0#32) := by decide

/-! ## The host port -/

/-- V62: the whole word in `FINFO`. -/
theorem test_illegal_word :
    after (step (offer (.wr 0x000#32 4 0x00000011#32) idle)) (fun t => (t.mode, t.fcause, t.finfo)) =
    some (.faulted, some .illegalCommand, 0x00000011#32) := by decide

/-- V63: ignored in `FAULTED`. -/
theorem test_faulted_ignores :
    after (step (offer (.wr 0x000#32 4 0x00000001#32) faulted)) (fun t => (t.fcause, t.finfo, t.tv)) =
    some (some .illegalCommand, 0#32, false) := by decide

/-- V12: 0x13 written to a 4-bit count stores 3. -/
theorem test_count_narrowed :
    after (step (offer (.wr 0x1000#32 4 0x00000013#32) idle)) State.cnt = some [(0, 3)] := by decide

/-- V70, with ASIZE = 2: the offset after the last count, and a 16-bit read. -/
theorem test_bus_errors :
    after (step (offer (.rd 0x1008#32 4) idle)) State.replies = some [.busError] ∧
    after (step (offer (.rd 0x004#32 2) idle)) State.replies = some [.busError] := by decide

/-- V71, V72 on the tree of S2: `NSYM` of the leaf of symbol 2, and `NLEFT` of the last fork. -/
theorem test_node_window :
    after (step (offer (.rd 0x030#32 4) { built with nidx := 2#32 })) State.replies =
      some [.data 0x80000002#32] ∧
    after (step (offer (.rd 0x038#32 4) { built with nidx := 4#32 })) State.replies = some [.data 1#32] := by
  decide

/-- R260: `FCAUSE` reads as the number of the recorded cause. -/
theorem test_cause_codes :
    ([Cause.truncatedStream, .conflictingCodePath, .badTableSyntax, .tableTruncated, .badSymbol, .arenaFull,
      .weightOverflow, .noTree, .missingChild, .illegalCommand, .zeroLengthLoop].map fun c =>
        after (step (offer (.rd 0x008#32 4) { faulted with fcause := some c })) State.replies) =
    [1#32, 2#32, 3#32, 4#32, 5#32, 6#32, 7#32, 8#32, 9#32, 10#32, 11#32].map (fun w => some [.data w]) := by decide

/-- R43, R55: `ROOT` and `CUR` read 0xFFFFFFFF after reset. -/
theorem test_nil_reads :
    after (step (offer (.rd 0x01C#32 4) idle)) State.replies = some [.data 0xFFFFFFFF#32] ∧
    after (step (offer (.rd 0x024#32 4) idle)) State.replies = some [.data 0xFFFFFFFF#32] := by decide

/-- R300, R301: a reset drops the tree and the counts and keeps the bits still to come and the symbols written. -/
theorem test_reset_event :
    after (step (offer .reset { built with bitIn := [true], symOut := [0] }))
      (fun t => (t.tv, t.nodes.length, t.cnt.length, t.bitIn, t.symOut)) = some (false, 0, 0, [true], [0]) := by decide

/-- The host's probe: after reset the next step runs the word placed there. Here `BUILDT` of the empty table (P4,
line 6: `STATUS` = 0x8). -/
theorem test_fetch_word : after (step (State.reset.withFetchWord 32 3)) statusWord = some 0x00000008#32 := by decide

/-! ## Witnesses -/

theorem inv_idle : Inv idle := inv_clearBlock (s := idle) (by decide) (by decide)

theorem inv_counted : Inv counted :=
  inv_setCount (s := setCount 0 3 idle) (inv_setCount inv_idle (i := 0) (v := 3) (by decide) (by decide))
    (i := 1) (v := 3) (by decide) (by decide)

theorem inv_built : Inv built := by
  obtain ⟨t, h1, h2⟩ := execBuildc_ends inv_counted rfl
  rw [test_buildc_ties] at h1
  cases h1
  exact h2

theorem inv_chain : Inv chain := by
  obtain ⟨t, h1, h2⟩ := execBuildt_ends (s := { idle with tabIn := chainText })
    (inv_surroundings inv_idle idle.nidx chainText idle.tabOut idle.bitIn idle.host idle.replies) rfl
  rw [test_buildt_incomplete] at h1
  cases h1
  exact h2

theorem inv_late : Inv late := by
  obtain ⟨t, h1, h2⟩ := execBuildt_ends (s := { idle with tabIn := lateText })
    (inv_surroundings inv_idle idle.nidx lateText idle.tabOut idle.bitIn idle.host idle.replies) rfl
  rw [show exec .buildt { idle with tabIn := lateText } = .next late from rfl] at h1
  cases h1
  exact h2

theorem holds_built : Holds built.nodes 4 shape :=
  ⟨forkNode 7 1 3, 1, 3, rfl, rfl, rfl, ⟨leafNode 1 3, rfl, rfl, rfl⟩,
    ⟨forkNode 4 2 0, 2, 0, rfl, rfl, rfl, ⟨leafNode 2 1, rfl, rfl, rfl⟩, ⟨leafNode 0 3, rfl, rfl, rfl⟩⟩⟩

/-- StepRunsTheDecodedCommand, both clauses. -/
theorem witness_step_runs :
    (∃ (s : State) (rest : List HostEvent), s.mode ≠ .run ∧ s.host = .wr 0x000#32 4 0x00000005#32 :: rest ∧
      decode 0x00000005#32 = .ok .decstr) ∧
    (faulted.mode ≠ .run ∧ decodeTableWord 32 15 = some .clear) :=
  ⟨⟨offer (.wr 0x000#32 4 0x00000005#32) idle, [], by decide, rfl, by decide⟩, by decide⟩

/-- IllegalCommandFaultsInIdle, a word of each kind. -/
theorem witness_illegal : (offer (.wr 0x000#32 4 0x00000000#32) idle).mode = .idle ∧
    (offer (.wr 0x000#32 4 0x00000000#32) idle).host = [.wr 0x000#32 4 0x00000000#32] ∧
    (0x00000000#32).toNat % 16 ∉ [1, 2, 3, 4, 5, 15] ∧ (0x80000001#32).toNat / 16 ≠ 0 := by decide

/-- FaultedIgnoresAllButClear, a legal and an illegal word. -/
theorem witness_faulted_ignores : faulted.mode = .faulted ∧
    (offer (.wr 0x000#32 4 0x00000001#32) faulted).host = [.wr 0x000#32 4 0x00000001#32] ∧
    0x00000001#32 ≠ 0x0000000F#32 ∧ 0x00000010#32 ≠ 0x0000000F#32 := by decide

/-- OnlyClearOrResetLeavesFaulted: a read stays, `CLEAR` and reset leave. -/
theorem witness_leaves_faulted :
    step (offer (.rd 0x004#32 4) faulted) = .next { faulted with replies := [.data 0x2#32] } ∧
    step (offer (.wr 0x000#32 4 0x0000000F#32) faulted) = .next { idle with replies := [.done] } ∧
    step (offer .reset faulted) = .next idle := ⟨rfl, rfl, rfl⟩

/-- EmptyPortWaitsAndRunStalls, both clauses. -/
theorem witness_waits : idle.host = [] ∧
    (offer .reset { idle with mode := .run }).mode = .run ∧
    (offer .reset { idle with mode := .run }).host = [.reset] := by decide

/-- ResetStateValues, its second clause, in both modes. -/
theorem witness_reset : (offer .reset built).mode ≠ .run ∧ (offer .reset faulted).mode ≠ .run ∧
    (offer .reset built).host = [.reset] := by decide

/-- ClearRestoresResetState, in both modes. -/
theorem witness_clear : built.mode = .idle ∧ faulted.mode = .faulted ∧ Instr.write ≠ .clear := by decide

/-- BuildcCompletesWithinWeightLimit: the least total, and the greatest one (V10). -/
theorem witness_within_limit :
    (idle.mode = .idle ∧ totalWeight idle = 1 ∧ totalWeight idle ≤ weightMax idle.cfg) ∧
    totalWeight { idle with cnt := [(0, 13), (1, 1)] } = weightMax small := by decide

/-- BuildcOverflowFaults: one more than the limit. -/
theorem witness_overflow : idle.cfg.wf = true ∧ idle.mode = .idle ∧
    totalWeight { idle with cnt := [(0, 14), (1, 1)] } = weightMax small + 1 := by decide

/-- BuildcLeavesAreSymbolsThenSentinel, BuildcForksJoinInKeyOrder, BuildcTreeIsWellFormed,
BuildcTreeIsWeightMinimal, BuildcCodesAreAtMostAsizeLong, BuildcFrame, BuildsOwnEachNodeOnce and
CountBuiltTreeNeverMissesAChild: `BUILDC` completes. -/
theorem witness_buildc : counted.mode = .idle ∧ exec .buildc counted = .next built ∧ built.mode = .idle ∧
    built.tv = true ∧ built.root = some 4 ∧ Holds built.nodes 4 shape :=
  ⟨rfl, rfl, rfl, rfl, rfl, holds_built⟩

/-- BuildcForksJoinInKeyOrder: when the first fork of S2 joins n2 and n0, n1 waits too. -/
theorem witness_forks : built.nodes[3]? = some (forkNode 4 2 0) ∧ (forkNode 4 2 0).symv = false ∧
    Waiting built.nodes 3 1 ∧ 1 ≠ 2 ∧ 1 ≠ 0 := by
  refine ⟨rfl, rfl, ⟨by decide, fun j x hj hx => ?_⟩, by decide, by decide⟩
  match j, hj with
  | 0, _ => cases hx; decide
  | 1, _ => cases hx; decide
  | 2, _ => cases hx; decide

/-- InsertKeepsQueueSorted: three nodes of one weight. -/
theorem witness_insert : [0, 1].Pairwise (KeyBefore [leafNode 0 1, leafNode 1 1, leafNode 2 1]) ∧
    ∀ e ∈ [0, 1], e < 2 := ⟨by simp [KeyBefore, weightOf, leafNode], by decide⟩

/-- BuildcIsFunctionOfCounts: a second `BUILDC` over the first one's tree (S2). -/
theorem witness_function_of_counts : counted.mode = .idle ∧ built.mode = .idle ∧ counted.cfg = built.cfg ∧
    (∀ i, i < counted.cfg.asize → counted.cnt.read i = built.cnt.read i) ∧
    exec .buildc counted = .next built ∧ exec .buildc built = .next built :=
  ⟨rfl, rfl, rfl, fun _ _ => rfl, rfl, rfl⟩

/-- WriteEmitsTheTable and the first case of WriteFaultsExactlyOnOneChildNode. -/
theorem witness_write : Inv built ∧ built.mode = .idle ∧ built.tv = true ∧ built.root = some 4 ∧
    Holds built.nodes 4 shape := ⟨inv_built, rfl, rfl, rfl, holds_built⟩

/-- WriteFaultsExactlyOnOneChildNode, its second case: at the root (V14), and after a leaf. -/
theorem witness_write_missing : (Inv chain ∧ chain.mode = .idle ∧ chain.tv = true ∧
      exec .write chain = .next { chain with mode := .faulted, fcause := some .missingChild }) ∧
    Inv late ∧ late.mode = .idle ∧ late.tv = true ∧ follow late.nodes 0 [true] = some 2 ∧
    exec .write late = .next { late with
      tabOut := tableText [(1, [false])], mode := .faulted, fcause := some .missingChild, finfo := 2#32 } :=
  ⟨⟨inv_chain, rfl, rfl, rfl⟩, inv_late, rfl, rfl, rfl, rfl⟩

/-- WriteFrame, WrittenTextIsCanonical, and FaultsKeepOrDropTheTree on `WRITE`. -/
theorem witness_write_frame : exec .write built = .next { built with tabOut := text } := rfl

/-- CommandsWithoutTreeFault. -/
theorem witness_no_tree : idle.mode = .idle ∧ idle.tv = false := by decide

/-- DecPrintsCanonicalDigits, at the meeting point of its clauses. -/
theorem witness_digits : (9 < 10 ∧ dec 9 = [0x39#8]) ∧ (10 ≤ 10 ∧ dec 10 = [0x31#8, 0x30#8]) ∧ 0 < 1 := by decide

/-- SymbolLineHasDigitValue: `"007"` (V19). -/
theorem witness_symbol_line : IsDigits [0x30#8, 0x30#8, 0x37#8] ∧ digitsValue [0x30#8, 0x30#8, 0x37#8] = 7 :=
  ⟨⟨by decide, by decide⟩, by decide⟩

/-- BuildtRebuildsTheTree and RoundTripDecodesAlike: the table of S2, in an arena it just fills. -/
theorem witness_rebuild : idle.mode = .idle ∧ ({ idle with tabIn := text } : State).tabIn = tableText shape.codes ∧
    (∀ c ∈ shape.codes, c.1 ≤ idle.cfg.asize) ∧ shape.size ≤ idle.cfg.ncap := by decide

/-- The other hypotheses of RoundTripDecodesAlike. -/
theorem witness_round_trip : Inv built ∧ Inv { idle with tabIn := text } ∧
    ({ idle with tabIn := text } : State).cfg.asize = built.cfg.asize ∧
    ∃ t, exec .buildt { idle with tabIn := text } = .next t :=
  ⟨inv_built, inv_surroundings inv_idle idle.nidx text idle.tabOut idle.bitIn idle.host idle.replies, rfl, _, rfl⟩

/-- BuildtLoadsPrefixFreeTable: a table with a leading zero that just fits (its tree has a one-child node), and the empty
one. -/
theorem witness_prefix_free :
    (∀ p ∈ [([0x30#8, 0x30#8], [false]), ([0x32#8], [true, true, true])],
      IsDigits p.1 ∧ digitsValue p.1 ≤ idle.cfg.asize) ∧
    ([([0x30#8, 0x30#8], [false]), ([0x32#8], [true, true, true])] : List (List Byte × List Bool)).Pairwise
      (fun p q => ¬ Clash p.2 q.2) ∧
    pathNodes [[false], [true, true, true]] = small.ncap ∧ pathNodes [] ≤ small.ncap := by
  unfold Clash IsDigits
  decide

/-- `"00\n0\n"`, the pair (0, `0`) with a leading zero, loads. -/
theorem loads_zeros : ∃ t, exec .buildt { idle with tabIn := spelledText [([0x30#8, 0x30#8], [false])] } = .next t ∧
    t.mode = .idle := ⟨_, rfl, rfl⟩

/-- BuildtRejectsClashingOrLargePair, both clauses, after the pair (0, `0`): a path through that leaf, and one that
needs one node more than fits. -/
theorem witness_rejects :
    (∃ t, exec .buildt { idle with tabIn := spelledText [([0x30#8, 0x30#8], [false])] } = .next t ∧ t.mode = .idle) ∧
    IsDigits [0x30#8, 0x30#8] ∧ IsDigits [0x30#8, 0x32#8] ∧ digitsValue [0x30#8, 0x32#8] = idle.cfg.asize ∧
    Clash [false] [false, true] ∧ ¬ Clash [false] [true, true, true, true] ∧
    pathNodes [[false], [true, true, true, true]] = idle.cfg.ncap + 1 := by
  refine ⟨loads_zeros, ?_⟩
  unfold Clash IsDigits
  decide

/-- BuildtRejectsMalformedPair: a malformed pair of each kind (V29, V28, V39, V30), and both cuts (V37, V36). -/
theorem witness_malformed :
    (∃ t, exec .buildt { idle with tabIn := spelledText [([0x30#8, 0x30#8], [false])] } = .next t ∧ t.mode = .idle) ∧
    BadPair 2 [0x0A#8] .badTableSyntax ∧ BadPair 2 ([] ++ [0x61#8]) .badTableSyntax ∧
    BadPair 2 ([0x33#8] ++ [lineFeed]) .badSymbol ∧
    BadPair 2 ([0x32#8] ++ lineFeed :: [0x30#8] ++ [0x32#8]) .badTableSyntax ∧
    CutPair 2 [0x31#8] ∧ CutPair 2 ([0x31#8] ++ lineFeed :: []) :=
  ⟨loads_zeros, .emptySymbol, .symbolByte [] _ (by decide) (by decide) (by decide),
    .symbolRange _ ⟨by decide, by decide⟩ (by decide),
    .pathByte _ _ _ ⟨by decide, by decide⟩ (by decide) (fun b hb => .inl (by simpa using hb)) (by decide) (by decide)
      (by decide),
    .inSymbol _ ⟨by decide, by decide⟩,
    .inPath _ _ ⟨by decide, by decide⟩ (by decide) (fun b hb => by cases hb)⟩

/-- BuildtFrame and BuildsOwnEachNodeOnce on `BUILDT`. -/
theorem witness_buildt : exec .buildt { idle with tabIn := chainText } = .next chain ∧ chain.tv = true := ⟨rfl, rfl⟩

/-- DecsymReturnsTheLeafOfThePath: the sentinel's path, and the empty path of a one-node tree. -/
theorem witness_decsym : (built.mode = .idle ∧ built.tv = true ∧ built.root = some 4 ∧
      follow built.nodes 4 [true, false] = some 2 ∧ built.nodes[2]? = some (leafNode 2 1) ∧
      isLeaf (leafNode 2 1) = true) ∧
    follow (oneLeaf 1).nodes 0 [] = some 0 := by decide

/-- DecsymFaultsNameTheNode and DecstrFaultKeepsWrittenSymbols, first clauses: no bit left at n3 after the code of
symbol 1. -/
theorem witness_truncated : follow built.nodes 4 [true] = some 3 ∧ built.nodes[3]? = some (forkNode 4 2 0) ∧
    isLeaf (forkNode 4 2 0) = false ∧
    (1 ≠ built.cfg.asize ∧ follow built.nodes 4 [false] = some 1 ∧ built.nodes[1]? = some (leafNode 1 3) ∧
      isLeaf (leafNode 1 3) = true ∧ (leafNode 1 3).sym = 1) ∧
    ({ built with bitIn := [false] ++ [true] } : State).bitIn = [(1, [false])].flatMap Prod.snd ++ [true] := by
  decide

/-- DecsymFaultsNameTheNode and DecstrFaultKeepsWrittenSymbols, second clauses: the root of V22 has no right child
(V53). -/
theorem witness_missing : chain.mode = .idle ∧ chain.tv = true ∧ chain.root = some 0 ∧
    follow chain.nodes 0 [] = some 0 ∧ chain.nodes[0]? = some { placeholder with left := some 1 } ∧
    isLeaf { placeholder with left := some 1 } = false ∧
    child { placeholder with left := some 1 } true = none ∧
    (0 ≠ chain.cfg.asize ∧ follow chain.nodes 0 [false, false] = some 2 ∧
      chain.nodes[2]? = some (leafNode 0 0)) := by decide

/-- DecstrDecodesUpToTheSentinel: in a well-formed tree, in an incomplete one, and in the one-node tree of the
sentinel. -/
theorem witness_decstr :
    ((built.mode = .idle ∧ built.tv = true ∧ built.root = some 4) ∧
      (1 ≠ built.cfg.asize ∧ follow built.nodes 4 [false] = some 1 ∧ built.nodes[1]? = some (leafNode 1 3)) ∧
      (follow built.nodes 4 [true, false] = some 2 ∧ built.nodes[2]? = some (leafNode 2 1) ∧
        isLeaf (leafNode 2 1) = true ∧ (leafNode 2 1).sym = built.cfg.asize) ∧
      ({ built with bitIn := [false, true, false] } : State).bitIn =
        [(1, [false])].flatMap Prod.snd ++ [true, false] ++ []) ∧
    ((late.mode = .idle ∧ late.tv = true ∧ late.root = some 0) ∧
      (1 ≠ late.cfg.asize ∧ follow late.nodes 0 [false] = some 1 ∧ late.nodes[1]? = some (leafNode 1 0)) ∧
      follow late.nodes 0 [true, false] = some 3 ∧ late.nodes[3]? = some (leafNode 2 0) ∧
      isLeaf (leafNode 2 0) = true ∧ (leafNode 2 0).sym = late.cfg.asize) ∧
    follow (oneLeaf 2).nodes 0 [] = some 0 := by decide

/-- OneNodeTreeReadsNoBit: with a symbol that is not the sentinel, and with the sentinel. -/
theorem witness_one_node : ((oneLeaf 1).mode = .idle ∧ (oneLeaf 1).tv = true ∧ (oneLeaf 1).root = some 0 ∧
      (oneLeaf 1).nodes[0]? = some (leafNode 1 0) ∧ isLeaf (leafNode 1 0) = true ∧
      (leafNode 1 0).sym ≠ (oneLeaf 1).cfg.asize) ∧
    (leafNode 2 0).sym = (oneLeaf 2).cfg.asize := by decide

/-- IncrementalDecodeEqualsStreamDecode, its second clause. -/
theorem witness_incremental_loop : (oneLeaf 1).mode = .idle ∧ (oneLeaf 1).tv = true ∧
    ∃ t, exec .decstr (oneLeaf 1) = .next t ∧ t.mode = .faulted ∧ t.fcause = some .zeroLengthLoop :=
  ⟨rfl, rfl, _, rfl, rfl, rfl⟩

/-- IncrementalDecodeEqualsStreamDecode and DecodersFrame: a completion, and a fault. -/
theorem witness_incremental : built.mode = .idle ∧ built.tv = true ∧
    (∃ t, exec .decstr { built with bitIn := [false, true, false] } = .next t ∧ t.fcause = none) ∧
    (∃ t, exec .decstr { built with bitIn := [false, true] } = .next t ∧ t.fcause = some .truncatedStream) ∧
    ∃ t, exec .decsym { built with bitIn := [false] } = .next t :=
  ⟨rfl, rfl, ⟨_, rfl, rfl⟩, ⟨_, rfl, rfl⟩, _, rfl⟩

/-- CommandsRaiseOnlyTheirCauses. -/
theorem witness_causes : idle.mode = .idle ∧
    exec .write idle = .next { idle with mode := .faulted, fcause := some .noTree, finfo := 0x2#32 } := ⟨rfl, rfl⟩

/-- FaultsKeepOrDropTheTree, its second clause: both build commands fault. -/
theorem witness_build_faults :
    (∃ t, exec .buildc { idle with cnt := [(0, 15), (1, 1)] } = .next t ∧ t.mode = .faulted) ∧
    ∃ t, exec .buildt { idle with tabIn := [0x31#8] } = .next t ∧ t.mode = .faulted := ⟨⟨_, rfl, rfl⟩, _, rfl, rfl⟩

/-- ResetSatisfiesInvariant: the smallest and the largest parameters. -/
theorem witness_parameters : Config.wf { asize := 1, ww := 1, ncap := 3 } = true ∧
    Config.wf { asize := 2 ^ 24, ww := 32, ncap := 2 ^ 31 } = true := by decide

/-- StepKeepsInvariant, NoStepStops and ParametersNeverChange: a step that builds the tree. -/
theorem witness_step : Inv (offer (.wr 0x000#32 4 0x00000001#32) counted) ∧
    step (offer (.wr 0x000#32 4 0x00000001#32) counted) = .next { built with replies := [.done] } :=
  ⟨inv_surroundings inv_counted counted.nidx counted.tabIn counted.tabOut counted.bitIn
    [.wr 0x000#32 4 0x00000001#32] counted.replies, rfl⟩

/-- RegisterReadsReturnTheState, ReadsHaveNoSideEffect and NodeWindowShowsAllocatedSlots: a read pending, a cause and
none, a pointer and `NIL`, the window on the first free slot and on the last allocated one, and `SW` at the bounds of
its range. -/
theorem witness_reads : built.mode ≠ .run ∧ (offer (.rd 0x02C#32 4) built).host = [.rd 0x02C#32 4] ∧
    (built.fcause = none ∧ faulted.fcause = some .illegalCommand) ∧ (built.root = some 4 ∧ built.cur = none) ∧
    built.nodes.length ≤ ({ built with nidx := 5#32 } : State).nidx.toNat ∧
    built.nodes[({ built with nidx := 4#32 } : State).nidx.toNat]? = some (forkNode 7 1 3) ∧
    ((leafNode 0 3).left = none ∧ (forkNode 7 1 3).left = some 1) ∧
    (built.cfg.wf = true ∧ 2 ^ (2 - 1) ≤ built.cfg.asize ∧ built.cfg.asize < 2 ^ 2) ∧
    (2 ^ (1 - 1) ≤ 1 ∧ 1 < 2 ^ 1) ∧ (2 ^ (25 - 1) ≤ 2 ^ 24 ∧ 2 ^ 24 < 2 ^ 25) := by decide

/-- CountWritesKeepTheLowBits: the last count. -/
theorem witness_counts : Inv idle ∧ 1 < idle.cfg.asize ∧
    (offer (.wr (word (0x1000 + 4 * 1)) 4 0x13#32) idle).host = [.wr 0x1004#32 4 0x13#32] :=
  ⟨inv_idle, by decide, by decide⟩

/-- OnlyNidxStoresAmongRegisters: `NIDX`, and the first and the last read-only register. -/
theorem witness_register_writes : idle.mode ≠ .run ∧
    (offer (.wr 0x02C#32 4 7#32) idle).host = [.wr 0x02C#32 4 7#32] ∧
    (0x004#32 : Word).toNat % 4 = 0 ∧ (0x03C#32 : Word).toNat % 4 = 0 ∧ (0x004#32 : Word) ≠ 0x02C#32 ∧
    (0x03C#32 : Word) ≠ 0x02C#32 := by decide

/-- IllegalAccessGetsBusError: each of its four grounds at a boundary. -/
theorem witness_bus_error : idle.mode ≠ .run ∧ 2 ≠ 4 ∧ (0x002#32 : Word).toNat % 4 ≠ 0 ∧
    (0x040 ≤ (0x040#32 : Word).toNat ∧ (0xFFC#32 : Word).toNat < 0x1000) ∧
    0x1000 + 4 * idle.cfg.asize ≤ (0x1008#32 : Word).toNat := by decide

/-- NodeAndTextTermsReadAsTheRules, its one hypothesis. -/
theorem witness_terms : built.nodes[4]? = some (forkNode 7 1 3) := rfl

/-- PseudoInstructionsRunTheirTransactions: the last count; an allocated and the first free slot. -/
theorem witness_pseudo : Inv built ∧ 1 < built.cfg.asize ∧ built.mode ≠ .run ∧
    built.nodes.length ≤ (5#32 : Word).toNat ∧ built.nodes[(0#32 : Word).toNat]? = some (leafNode 0 3) ∧
    built.cfg.wf = true ∧ 2 ^ (2 - 1) ≤ built.cfg.asize ∧ built.cfg.asize < 2 ^ 2 :=
  ⟨inv_built, by decide⟩

end Sys2Proof.Tests
end

/-! SUPPORT. The parameters along a step (R5): each command body keeps them, so running a command, a write to `CMD`,
a transaction and a step do. -/

namespace Sys2Proof.Machine

/-! ## The command bodies -/

/-- A fault raised at a point of a body ends it with the parameters of that point (R275). -/
theorem raise_keeps_cfg {c : Cause} {i : Word} {s u : State}
    (h : raise c i s = .done u ∨ raise c i s = .raised u) : u.cfg = s.cfg := by
  obtain rfl : enterFault c i s = u := by simpa using h
  simp

theorem buildcBody_keeps_cfg {s u : State} (h : buildcBody s = .done u ∨ buildcBody s = .raised u) :
    u.cfg = s.cfg := by
  unfold buildcBody at h
  dsimp only at h
  split at h
  · simpa using raise_keeps_cfg h
  · obtain rfl : setTree _ _ _ _ _ = u := by simpa using h
    simp

theorem buildtBody_keeps_cfg {s u : State} (h : buildtBody s = .done u ∨ buildtBody s = .raised u) :
    u.cfg = s.cfg := by
  unfold buildtBody at h
  dsimp only at h
  split at h
  · obtain rfl : setTree _ _ _ _ _ = u := by simpa using h
    simp
  · simpa using raise_keeps_cfg h
  · simp at h

theorem writeBody_keeps_cfg {s u : State} (h : writeBody s = .done u ∨ writeBody s = .raised u) :
    u.cfg = s.cfg := by
  rcases writeBody_cases s with ⟨bytes, hw⟩ | ⟨bytes, n, hw⟩ | ⟨-, hw⟩ | ⟨e, hw⟩ <;> rw [hw] at h
  · obtain rfl : tabWrite _ _ = u := by simpa using h
    simp
  · obtain rfl : enterFault _ _ _ = u := by simpa using h
    simp
  · obtain rfl : enterFault _ _ _ = u := by simpa using h
    simp
  · simp at h

theorem DecodeFrame.cfg_eq {s u : State} (h : DecodeFrame s u) : u.cfg = s.cfg := by rw [h.1]

theorem decsymBody_keeps_cfg {s u : State} (h : decsymBody s = .done u ∨ decsymBody s = .raised u) :
    u.cfg = s.cfg := by
  unfold decsymBody at h
  split at h
  · exact raise_keeps_cfg h
  · exact (decodeSymbol_frame h).1.cfg_eq

theorem decstrBody_keeps_cfg {s u : State} (h : decstrBody s = .done u ∨ decstrBody s = .raised u) :
    u.cfg = s.cfg := by
  unfold decstrBody at h
  split at h
  · exact raise_keeps_cfg h
  · split at h
    · simp at h
    · split at h
      · exact raise_keeps_cfg h
      · exact (decodeLoop_frame h).cfg_eq

/-! ## Commands, transactions and steps -/

/-- A command keeps the parameters when its body does. -/
theorem runCommand_keeps_cfg {body : State → Flow}
    (hb : ∀ {s u : State}, body s = .done u ∨ body s = .raised u → u.cfg = s.cfg)
    {s t : State} (h : runCommand body s = .next t) : t.cfg = s.cfg := by
  rcases runCommand_next h with ⟨-, rfl⟩ | ⟨-, u, hu, rfl⟩ | ⟨-, hu⟩
  · rfl
  · simpa using hb (.inl hu)
  · simpa using hb (.inr hu)

theorem execClear_keeps_cfg {s t : State} (h : execClear s = .next t) : t.cfg = s.cfg := by
  unfold execClear at h
  split at h
  · cases h
  · cases h; simp
  · cases h; simp

theorem exec_keeps_cfg {i : Instr} {s t : State} (h : exec i s = .next t) : t.cfg = s.cfg := by
  cases i with
  | buildc => exact runCommand_keeps_cfg buildcBody_keeps_cfg h
  | write => exact runCommand_keeps_cfg writeBody_keeps_cfg h
  | buildt => exact runCommand_keeps_cfg buildtBody_keeps_cfg h
  | decsym => exact runCommand_keeps_cfg decsymBody_keeps_cfg h
  | decstr => exact runCommand_keeps_cfg decstrBody_keeps_cfg h
  | clear => exact execClear_keeps_cfg h

theorem illegalCommand_keeps_cfg {w : Word} {s t : State} (h : illegalCommand w s = .next t) : t.cfg = s.cfg := by
  unfold illegalCommand at h
  split at h
  · cases h
  · cases h; rfl
  · cases h; simp

theorem writeCmd_keeps_cfg {w : Word} {s t : State} (h : writeCmd w s = .next t) : t.cfg = s.cfg := by
  unfold writeCmd at h
  split at h
  · exact exec_keeps_cfg h
  · exact illegalCommand_keeps_cfg h

theorem serve_keeps_cfg {e : HostEvent} {s t : State} (h : serve e s = .next t) : t.cfg = s.cfg := by
  rcases serve_cases e s with ⟨-, hs⟩ | ⟨r, hs⟩ | ⟨v, hs⟩ | ⟨i, v, -, hs⟩ | ⟨w, -, hs⟩ <;> rw [hs] at h
  · cases h; simp
  · cases h; simp
  · cases h; simp
  · cases h; simp
  · simpa using writeCmd_keeps_cfg h

theorem transact_keeps_cfg {e : HostEvent} {s t : State} (h : transact e s = .next t) : t.cfg = s.cfg := by
  by_cases hm : s.mode = .run
  · rw [transact_of_run hm] at h; cases h
  · rw [transact_of_not_run hm] at h
    exact serve_keeps_cfg h

theorem step_keeps_cfg {s t : State} (h : step s = .next t) : t.cfg = s.cfg := by
  cases hh : s.host with
  | nil => rw [step_nil hh] at h; cases h; rfl
  | cons e rest =>
    rw [step_cons hh] at h
    simpa using transact_keeps_cfg h

/-- Settles O48: whatever event the step takes, its transaction keeps the parameters. -/
theorem parametersNeverChange : Obligations.ParametersNeverChange :=
  fun _ _ h => step_keeps_cfg h

end Sys2Proof.Machine

/-! SUPPORT. That every step has a next state and keeps the invariant: each command, each transaction, each event. -/

namespace Sys2Proof.Machine

/-- A command that is not running is ignored in `FAULTED`, so what it does in `IDLE` is enough (R240, R243). -/
theorem runCommand_ends_of_idle {body : State → Flow} {s : State} (h : Inv s)
    (hi : s.mode = .idle → ∃ t, runCommand body s = .next t ∧ Inv t) : ∃ t, runCommand body s = .next t ∧ Inv t := by
  cases hm : s.mode with
  | run => exact absurd hm h.notRunning
  | faulted => exact ⟨s, runCommand_faulted hm, h⟩
  | idle => exact hi hm

theorem execClear_next {s : State} (hm : s.mode ≠ .run) : execClear s = .next (clearBlock s) := by
  unfold execClear
  split
  · exact absurd ‹_› hm
  · rfl
  · rfl

/-- Every command ends, with the invariant. -/
theorem exec_ends {s : State} (h : Inv s) (i : Instr) : ∃ t, exec i s = .next t ∧ Inv t := by
  cases i with
  | buildc => exact runCommand_ends_of_idle h (execBuildc_ends h)
  | write => exact runCommand_ends h (writeBody_ends h)
  | buildt => exact runCommand_ends_of_idle h (execBuildt_ends h)
  | decsym => exact runCommand_ends h (decsymBody_ends h)
  | decstr => exact runCommand_ends h (decstrBody_ends h)
  | clear => exact ⟨_, execClear_next h.notRunning, inv_clearBlock h.params h.sinkRange⟩

/-- An illegal word is ignored in `FAULTED` and is a fault in `IDLE` (R243, R244). -/
theorem illegalCommand_ends {s : State} (h : Inv s) (w : Word) : ∃ t, illegalCommand w s = .next t ∧ Inv t := by
  unfold illegalCommand
  split
  · exact absurd ‹_› h.notRunning
  · exact ⟨s, rfl, h⟩
  · rename_i hm
    refine ⟨_, rfl, inv_enterFault ?_ _ _⟩
    rwa [show setMode .idle s = s from by rw [← hm]; rfl]

theorem writeCmd_ends {s : State} (h : Inv s) (w : Word) : ∃ t, writeCmd w s = .next t ∧ Inv t := by
  unfold writeCmd
  split
  · exact exec_ends h _
  · exact illegalCommand_ends h w

theorem inv_answer {s : State} (h : Inv s) (r : Reply) : Inv (answer r s) :=
  inv_surroundings h s.nidx s.tabIn s.tabOut s.bitIn s.host (s.replies ++ [r])

theorem inv_setNidx {s : State} (h : Inv s) (v : Word) : Inv (setNidx v s) :=
  inv_surroundings h v s.tabIn s.tabOut s.bitIn s.host s.replies

theorem inv_setHost {s : State} (h : Inv s) (events : List HostEvent) : Inv (setHost events s) :=
  inv_surroundings h s.nidx s.tabIn s.tabOut s.bitIn events s.replies

theorem serve_ends {s : State} (h : Inv s) (e : HostEvent) : ∃ t, serve e s = .next t ∧ Inv t := by
  have hdone := inv_answer h .done
  rcases serve_cases e s with ⟨-, hs⟩ | ⟨r, hs⟩ | ⟨v, hs⟩ | ⟨i, v, hi, hs⟩ | ⟨w, -, hs⟩
  · exact ⟨_, hs, inv_clearBlock h.params h.sinkRange⟩
  · exact ⟨_, hs, inv_answer h r⟩
  · exact ⟨_, hs, inv_setNidx hdone v⟩
  · exact ⟨_, hs, inv_setCount hdone hi (narrowCount_le _ v)⟩
  · rw [hs]
    exact writeCmd_ends hdone w

/-- Every step from a state that satisfies the invariant has a next state, and it satisfies the invariant. -/
theorem step_ends {s : State} (h : Inv s) : ∃ t, step s = .next t ∧ Inv t := by
  cases hh : s.host with
  | nil => exact ⟨s, step_nil hh, h⟩
  | cons e rest =>
    have hrest := inv_setHost h rest
    rw [step_cons hh, transact_of_not_run hrest.notRunning]
    exact serve_ends hrest e

/-- Settles O46: a step has one outcome, and `step_ends` gives it with the invariant. -/
theorem stepKeepsInvariant : Obligations.StepKeepsInvariant := by
  intro s t h hst
  obtain ⟨t', hst', ht'⟩ := step_ends h
  cases hst.symm.trans hst'
  exact ht'

end Sys2Proof.Machine

/-! SUPPORT. The tree a build leaves: what `BUILDC` and `BUILDT` answer, and who points to its nodes. -/

namespace Sys2Proof.Machine

/-- Everything `BUILDC` can answer in `IDLE`: completed, with a forest of one root over all leaves, or faulted and
without a tree (R137, R140, R276). -/
theorem exec_buildc_next {s t : State} (hm : s.mode = .idle) (he : exec .buildc s = .next t) :
    (t.mode = .idle ∧ ∃ g r, Woods (allLeaves s) g ∧ g.pq = [r] ∧ t.root = some r ∧ t.nodes = g.nodes) ∨
    (t.mode = .faulted ∧ t.tv = false) := by
  rcases exec_buildc hm with ⟨g, r, -, hw, hp, -, -, h⟩ | ⟨g, a, b, rest, -, -, -, -, h⟩
  · cases he.symm.trans h
    exact .inl ⟨hm, g, r, hw, hp, rfl, rfl⟩
  · cases he.symm.trans h
    exact .inr ⟨rfl, rfl⟩

/-- A forest of one root is one tree over all its leaves (R47, R142). -/
theorem Woods.tree {L : List Node} {f : Forest} {r : Nat} (h : Woods L f) (hp : f.pq = [r]) :
    ∃ T, Holds f.nodes r T ∧ (T.codes.map Prod.fst).Perm (L.map Node.sym) := by
  obtain ⟨Ts, hT, hsym⟩ := h.trees
  rw [hp] at hT
  cases hT with
  | cons hr hnil =>
    cases hnil
    exact ⟨_, hr, by simpa [symbolsOf] using hsym⟩

/-- Settles O17: the forest that a completed `BUILDC` leaves is one tree over the leaves it loaded. -/
theorem buildcTreeIsWellFormed : Obligations.BuildcTreeIsWellFormed := by
  intro s t hm he ht
  rcases exec_buildc_next hm he with ⟨-, g, r, hw, hp, hroot, hnodes⟩ | ⟨hfault, -⟩
  · obtain ⟨T, hT, hsym⟩ := hw.tree hp
    rw [allLeaves_syms] at hsym
    exact ⟨r, T, hroot, hnodes ▸ hT, hsym⟩
  · rw [ht] at hfault
    cases hfault

/-- A tree that `BUILDC` leaves names each of its slots once (R48). -/
theorem buildc_pointers {s t : State} (hm : s.mode = .idle) (he : exec .buildc s = .next t) (ht : t.tv = true) :
    (pointers t.root t.nodes).Perm (List.range t.nodes.length) := by
  rcases exec_buildc_next hm he with ⟨-, g, r, hw, hp, hroot, hnodes⟩ | ⟨-, htv⟩
  · have howned := hw.owned
    rw [hp] at howned
    rw [hroot, hnodes]
    exact howned
  · rw [ht] at htv
    cases htv

/-- Everything `BUILDT` can answer in `IDLE`: a tree that holds the pairs it loaded, completed or faulted (R191,
R276). -/
theorem exec_buildt_next {s t : State} (hm : s.mode = .idle) (he : exec .buildt s = .next t) :
    ∃ g codes, Loads g codes ∧ t.root = g.root ∧ t.nodes = g.nodes ∧
      ((t.mode = .idle ∧ t.tv = g.root.isSome) ∨ (t.mode = .faulted ∧ t.tv = false)) := by
  obtain ⟨-, ⟨codes, hg, -⟩, hstop⟩ :=
    loadPairs_cases s.cfg (pair := 0) loads_nil (admissible_nil _) (le_refl s.tabIn.length)
  obtain ⟨hcomplete, hfault⟩ := exec_buildt hm rfl
  refine ⟨_, codes, hg, ?_⟩
  rcases hstop with hstop | ⟨c, hstop, -⟩
  · cases he.symm.trans (hcomplete hstop)
    exact ⟨rfl, rfl, .inl ⟨hm, rfl⟩⟩
  · cases he.symm.trans (hfault c hstop)
    exact ⟨rfl, rfl, .inr ⟨rfl, rfl⟩⟩

/-- What `BUILDT` leaves, a tree or the part of one before a fault, names each of its slots once (R48). -/
theorem buildt_pointers {s t : State} (hm : s.mode = .idle) (he : exec .buildt s = .next t) :
    (pointers t.root t.nodes).Perm (List.range t.nodes.length) := by
  obtain ⟨g, codes, hg, hroot, hnodes, -⟩ := exec_buildt_next hm he
  rw [hroot, hnodes]
  exact hg.pointers

/-- Settles O33, one build command after the other. -/
theorem buildsOwnEachNodeOnce : Obligations.BuildsOwnEachNodeOnce := by
  rintro s t i (rfl | rfl) hm he ht
  · exact buildc_pointers hm he ht
  · exact buildt_pointers hm he

end Sys2Proof.Machine

/-! SUPPORT. What the registers and the node window read as, as numbers (R36 to R43, R260), and the terms of the
statements. -/

namespace Sys2Proof.Machine

/-! ## Words on the bus -/

/-- Five flags at bits 0 to 4, as a number (R37). -/
theorem flagBits_toNat (a b c d e : Bool) :
    (flagBit a 0 ||| flagBit b 1 ||| flagBit c 2 ||| flagBit d 3 ||| flagBit e 4).toNat =
      a.toNat + 2 * b.toNat + 4 * c.toNat + 8 * d.toNat + 16 * e.toNat := by
  revert a b c d e
  decide

/-- Settles O49: the number that the five flags make. -/
theorem statusPacksTheFlags : Obligations.StatusPacksTheFlags :=
  fun s => flagBits_toNat s.tv (decide (s.mode = .faulted)) s.eos s.src s.rv

theorem readReg_status (s : State) : readReg .status s =
    BitVec.ofNat 32 (s.tv.toNat + 2 * (decide (s.mode = .faulted)).toNat + 4 * s.eos.toNat + 8 * s.src.toNat +
      16 * s.rv.toNat) := by
  rw [← statusPacksTheFlags s, BitVec.ofNat_toNat, BitVec.setWidth_eq]

/-- The eleven cause codes (R260). -/
theorem fcauseWord_code : ∀ p ∈ [(Cause.truncatedStream, 1#32), (.conflictingCodePath, 2#32),
    (.badTableSyntax, 3#32), (.tableTruncated, 4#32), (.badSymbol, 5#32), (.arenaFull, 6#32), (.weightOverflow, 7#32),
    (.noTree, 8#32), (.missingChild, 9#32), (.illegalCommand, 10#32), (.zeroLengthLoop, 11#32)],
    fcauseWord (some p.1) = p.2 := by
  decide

@[simp] theorem ptrWord_none : ptrWord none = 0xFFFFFFFF#32 := rfl
@[simp] theorem ptrWord_some (i : Nat) : ptrWord (some i) = BitVec.ofNat 32 i := rfl

/-- A read at the offset of a register returns the word that the register reads as, and only answers (R69, R245). -/
theorem step_read_word {s : State} {rest : List HostEvent} {offset v : Word} (r : Reg) (hm : s.mode ≠ .run)
    (hh : s.host = .rd offset 4 :: rest) (ho : offset = regOffset r) (hv : readReg r s = v) :
    step s = .next { s with host := rest, replies := s.replies ++ [.data v] } := by
  subst ho hv
  exact step_read r hm hh

/-- Settles O50: each offset is that of a register, and the register's word is the number named. -/
theorem registerReadsReturnTheState : Obligations.RegisterReadsReturnTheState := by
  intro s rest offset hm hh
  have read {v : Word} (r : Reg) := step_read_word (v := v) r hm hh
  exact ⟨fun ho => read .cmd ho rfl,
    fun ho => read .status ho (readReg_status s),
    fun ho => ⟨fun hc => read .fcause ho (by simp [readReg, fcauseWord, hc]),
      fun p hp hc => read .fcause ho (by simp only [readReg, hc, fcauseWord_code p hp])⟩,
    fun ho => read .finfo ho rfl,
    fun ho => read .pasize ho rfl,
    fun ho => read .pncap ho rfl,
    fun ho => read .pww ho rfl,
    fun ho => ⟨fun hr => read .root ho (by simp [readReg, hr]),
      fun i hr => read .root ho (by simp [readReg, hr])⟩,
    fun ho => read .nalloc ho rfl,
    fun ho => ⟨fun hc => read .cur ho (by simp [readReg, hc]),
      fun i hc => read .cur ho (by simp [readReg, hc])⟩,
    fun ho => read .rsym ho rfl,
    fun ho => read .nidx ho rfl⟩

/-! ## The node window -/

theorem windowField_free {s : State} (h : s.nodes.length ≤ s.nidx.toNat) (field : Node → Word) :
    windowField s field = 0#32 := by
  simp [windowField, List.getElem?_eq_none h]

theorem windowField_slot {s : State} {nd : Node} (h : s.nodes[s.nidx.toNat]? = some nd) (field : Node → Word) :
    windowField s field = field nd := by
  simp [windowField, h]

/-- `SW` is the one width whose range has `ASIZE` in its upper half, and at most 25 (R5, R8). -/
theorem symbolWidth_eq {c : Config} (h : c.wf = true) {sw : Nat} (hlo : 2 ^ (sw - 1) ≤ c.asize)
    (hhi : c.asize < 2 ^ sw) : symbolWidth c = sw ∧ sw ≤ 25 := by
  simp only [Config.wf, Config.asizeOk, Bool.and_eq_true, decide_eq_true_eq] at h
  obtain ⟨⟨⟨h1, h24⟩, -⟩, -⟩ := h
  obtain _ | k := sw
  · simp at hhi
    omega
  · rw [Nat.add_sub_cancel] at hlo
    have hne : c.asize ≠ 0 := by omega
    have hlog : Nat.log2 c.asize = k := (Nat.log2_eq_iff hne).2 ⟨hlo, hhi⟩
    have hk : k ≤ 24 := (Nat.pow_le_pow_iff_right (by omega)).1 (hlo.trans h24)
    exact ⟨by simp [symbolWidth, bitlen, hne, hlog], by omega⟩

/-- A flag in bit 31 above a number that leaves the bit free. -/
theorem topFlag_or (b : Bool) {n : Nat} (hn : n < 2 ^ 31) :
    (if b then 0x80000000#32 else 0#32) ||| word n = BitVec.ofNat 32 (n + 2 ^ 31 * b.toNat) := by
  apply BitVec.eq_of_toNat_eq
  cases b with
  | false => simp [word]
  | true =>
    have hor : 2 ^ 31 * 1 + n = 2 ^ 31 * 1 ||| n := Nat.two_pow_add_eq_or_of_lt hn 1
    have hword : (word n).toNat = n := (BitVec.toNat_ofNat n 32).trans (Nat.mod_eq_of_lt (by omega))
    calc (0x80000000#32 ||| word n).toNat
      _ = 2 ^ 31 * 1 ||| n := by rw [BitVec.toNat_or, hword]; rfl
      _ = (BitVec.ofNat 32 (n + 2 ^ 31 * 1)).toNat := by rw [← hor, BitVec.toNat_ofNat]; omega

/-- `NSYM` of a node as a number: `symv` above `sym` cut to `SW` bits (R41, R106). -/
theorem nsymWord_eq {c : Config} (h : c.wf = true) {sw : Nat} (hlo : 2 ^ (sw - 1) ≤ c.asize)
    (hhi : c.asize < 2 ^ sw) (nd : Node) :
    nsymWord c nd = BitVec.ofNat 32 (nd.sym % 2 ^ sw + 2 ^ 31 * nd.symv.toNat) := by
  obtain ⟨hsw, h25⟩ := symbolWidth_eq h hlo hhi
  have hpow : 2 ^ sw ≤ 2 ^ 31 := Nat.pow_le_pow_right (by omega) (by omega)
  rw [nsymWord, hsw]
  exact topFlag_or nd.symv ((Nat.mod_lt _ (Nat.two_pow_pos sw)).trans_le hpow)

/-- Settles O51: the window's field of a free slot is 0, and of an allocated one the field of the node. -/
theorem nodeWindowShowsAllocatedSlots : Obligations.NodeWindowShowsAllocatedSlots := by
  intro s rest offset hm hh
  have read {v : Word} (r : Reg) := step_read_word (v := v) r hm hh
  refine ⟨fun hfree ho => ?_, fun nd hnd =>
    ⟨fun ho hwf sw hlo hhi => read .nsym ho ((windowField_slot hnd _).trans (nsymWord_eq hwf hlo hhi nd)),
     fun ho => read .nwt ho (windowField_slot hnd _),
     fun ho => ⟨fun hl => read .nleft ho (by simp [readReg, windowField_slot hnd, hl]),
       fun i hl => read .nleft ho (by simp [readReg, windowField_slot hnd, hl])⟩,
     fun ho => ⟨fun hr => read .nright ho (by simp [readReg, windowField_slot hnd, hr]),
       fun i hr => read .nright ho (by simp [readReg, windowField_slot hnd, hr])⟩⟩⟩
  simp only [List.mem_cons, List.not_mem_nil, or_false] at ho
  rcases ho with ho | ho | ho | ho
  · exact read .nsym ho (windowField_free hfree _)
  · exact read .nwt ho (windowField_free hfree _)
  · exact read .nleft ho (windowField_free hfree _)
  · exact read .nright ho (windowField_free hfree _)

/-! ## The terms of the statements -/

theorem isDigit_iff (b : Byte) : isDigit b = true ↔ 0x30 ≤ b.toNat ∧ b.toNat ≤ 0x39 := by
  simp [isDigit]

/-- Settles O57, each term by its definition or by the lemma about it. -/
theorem nodeAndTextTermsReadAsTheRules : Obligations.NodeAndTextTermsReadAsTheRules :=
  ⟨fun _ => isLeaf_iff, fun _ => ⟨rfl, rfl⟩, fun _ _ => rfl, fun _ _ _ => rfl, fun _ _ _ => weightOf_eq,
    fun _ => rfl, isDigit_iff, rfl, fun n => BitVec.toNat_ofNat n 32⟩

end Sys2Proof.Machine

/-! SUPPORT. What a transaction does to the counts and the registers, by the location it reaches (R66 to R70, R80), and
what the two build commands leave unchanged (R77). -/

namespace Sys2Proof.Machine

/-! ## The address map -/

/-- The registers lie below 0x040 (R66). -/
theorem regOffset_lt (r : Reg) : (regOffset r).toNat < 0x040 := by
  cases r <;> decide

/-- Every aligned offset below 0x040 is that of a register (R66). -/
theorem exists_reg_of_lt {o : Word} (ha : o.toNat % 4 = 0) (ho : o.toNat < 0x040) : ∃ r, regOffset r = o := by
  have hmap : ∀ k < 16, ∃ r ∈ allRegs, regOffset r = BitVec.ofNat 32 (4 * k) := by decide
  obtain ⟨r, -, hr⟩ := hmap (o.toNat / 4) (by omega)
  rw [Nat.mul_div_cancel' (Nat.dvd_of_mod_eq_zero ha), BitVec.ofNat_toNat, BitVec.setWidth_eq] at hr
  exact ⟨r, hr⟩

/-- From 0x040 on an offset is mapped exactly when it is that of a count (R66, R80). -/
theorem locate_of_ge (c : Config) {o : Word} (ha : o.toNat % 4 = 0) (ho : 0x040 ≤ o.toNat) :
    locate c o 4 =
      if countBase ≤ o.toNat ∧ o.toNat < countBase + 4 * c.asize then some (.count ((o.toNat - countBase) / 4))
      else none := by
  have hreg : allRegs.find? (fun r => decide (regOffset r = o)) = none := by
    refine List.find?_eq_none.2 fun r _ hr => ?_
    have hlt := regOffset_lt r
    rw [of_decide_eq_true hr] at hlt
    omega
  simp [locate, ha, hreg]

/-- `CNT[i]` is found at its offset (R66). -/
theorem locate_count {c : Config} (hc : c.wf = true) {i : Nat} (hi : i < c.asize) :
    locate c (countOffset i) 4 = some (.count i) := by
  have hmax : c.asize ≤ 2 ^ 24 := by
    simp only [Config.wf, Config.asizeOk, Bool.and_eq_true, decide_eq_true_eq] at hc
    obtain ⟨⟨⟨-, hmax⟩, -⟩, -⟩ := hc
    exact hmax
  have hoff : (countOffset i).toNat = 0x1000 + 4 * i := by
    rw [countOffset, countBase, word, BitVec.toNat_ofNat]
    omega
  rw [locate_of_ge c (by omega) (by omega), hoff, countBase, if_pos (by omega)]
  congr 2
  omega

/-- An access of a wrong width, misaligned or unmapped reaches no location (R68, R80). -/
theorem locate_eq_none {c : Config} {o : Word} {bytes : Nat}
    (h : bytes ≠ 4 ∨ o.toNat % 4 ≠ 0 ∨ (0x040 ≤ o.toNat ∧ o.toNat < 0x1000) ∨
      0x1000 + 4 * c.asize ≤ o.toNat) : locate c o bytes = none := by
  by_cases hb : bytes ≠ 4 ∨ o.toNat % 4 ≠ 0
  · exact if_pos hb
  · obtain ⟨rfl, ha⟩ : bytes = 4 ∧ o.toNat % 4 = 0 := by omega
    rw [locate_of_ge c ha (by omega), countBase, if_neg (by omega)]

/-! ## Transactions, by the location they reach -/

/-- A step on an unstalled bus serves the next event (R6, R108). -/
theorem step_serve {s : State} {e : HostEvent} {rest : List HostEvent} (hm : s.mode ≠ .run)
    (hh : s.host = e :: rest) : step s = serve e (setHost rest s) := by
  rw [step_cons hh, transact_of_not_run (s := setHost rest s) hm]

/-- A read returns the word of its location (R69). -/
theorem serve_rd_mapped {s : State} {o : Word} {bytes : Nat} {l : Loc} (h : locate s.cfg o bytes = some l) :
    serve (.rd o bytes) s = .next (answer (.data (readLoc l s)) s) := by
  simp [serve, h]

/-- A write acts on its location (R240, R245). -/
theorem serve_wr_mapped {s : State} {o : Word} {bytes : Nat} {l : Loc} (h : locate s.cfg o bytes = some l)
    (v : Word) : serve (.wr o bytes v) s = writeLoc l v (answer .done s) := by
  simp [serve, h]

theorem serve_rd_unmapped {s : State} {o : Word} {bytes : Nat} (h : locate s.cfg o bytes = none) :
    serve (.rd o bytes) s = .next (answer .busError s) := by
  simp [serve, h]

theorem serve_wr_unmapped {s : State} {o : Word} {bytes : Nat} (h : locate s.cfg o bytes = none) (v : Word) :
    serve (.wr o bytes v) s = .next (answer .busError s) := by
  simp [serve, h]

/-- A read does nothing but answer, wherever it goes (R69, R245). -/
theorem serve_rd (o : Word) (bytes : Nat) (s : State) : ∃ r, serve (.rd o bytes) s = .next (answer r s) := by
  cases hl : locate s.cfg o bytes with
  | none => exact ⟨_, serve_rd_unmapped hl⟩
  | some l => exact ⟨_, serve_rd_mapped hl⟩

/-- A register other than `CMD` and `NIDX` ignores a write (R69). -/
theorem writeLoc_readOnly {r : Reg} (hc : r ≠ .cmd) (hn : r ≠ .nidx) (v : Word) (s : State) :
    writeLoc (.reg r) v s = .next s := by
  cases r
  case cmd => exact absurd rfl hc
  case nidx => exact absurd rfl hn
  all_goals rfl

/-- A step whose event writes `CNT[i]` stores the low `WW` bits there (R70). -/
theorem step_count_write {s : State} {rest : List HostEvent} {i : Nat} {v : Word} (hc : s.cfg.wf = true)
    (hi : i < s.cfg.asize) (hm : s.mode ≠ .run) (hh : s.host = .wr (countOffset i) 4 v :: rest) :
    step s = .next { s with
      host := rest, replies := s.replies ++ [.done], cnt := s.cnt.write i (v.toNat % 2 ^ s.cfg.ww) } := by
  rw [step_serve hm hh, serve_wr_mapped (s := setHost rest s) (locate_count hc hi)]
  rfl

/-- A step whose event reads `CNT[i]` returns the count and changes nothing else (R69, R70). -/
theorem step_count_read {s : State} {rest : List HostEvent} {i : Nat} (hc : s.cfg.wf = true)
    (hi : i < s.cfg.asize) (hm : s.mode ≠ .run) (hh : s.host = .rd (countOffset i) 4 :: rest) :
    step s = .next { s with host := rest, replies := s.replies ++ [.data (word (s.cnt.read i))] } := by
  rw [step_serve hm hh, serve_rd_mapped (s := setHost rest s) (locate_count hc hi)]
  rfl

/-- Settles O52: the store is one write of the canonical count memory, and `Memory.read_write` says what it reads
as. -/
theorem countWritesKeepTheLowBits : Obligations.CountWritesKeepTheLowBits := by
  intro s rest i h hi
  refine ⟨fun v hh => ⟨_, step_count_write h.params hi h.notRunning hh, ?_, fun j hj => ?_⟩,
    step_count_read h.params hi h.notRunning⟩
  · rw [Memory.read_write h.countsCanonical, if_pos rfl]
  · rw [Memory.read_write h.countsCanonical, if_neg hj.symm]

/-- Settles O53: an aligned offset from 0x004 to 0x03C is that of a register, and only `NIDX` stores. -/
theorem onlyNidxStoresAmongRegisters : Obligations.OnlyNidxStoresAmongRegisters := by
  intro s rest offset v hm hh
  refine ⟨fun ho => step_nidx hm (ho ▸ hh), fun ha hlo hhi hn => ?_⟩
  obtain ⟨r, rfl⟩ := exists_reg_of_lt ha (by omega)
  have hcmd : r ≠ .cmd := by rintro rfl; exact absurd hlo (by decide)
  have hnidx : r ≠ .nidx := by rintro rfl; exact hn rfl
  rw [step_serve hm hh, serve_wr_mapped (locate_reg _ r), writeLoc_readOnly hcmd hnidx]
  rfl

/-- Settles O54: such a transaction reaches no location, so the bus only answers it. -/
theorem illegalAccessGetsBusError : Obligations.IllegalAccessGetsBusError := by
  intro s rest offset v bytes hm hh hbad
  have hnone := locate_eq_none hbad
  rcases hh with hh | hh
  · rw [step_serve hm hh, serve_wr_unmapped (s := setHost rest s) hnone]
    rfl
  · rw [step_serve hm hh, serve_rd_unmapped (s := setHost rest s) hnone]
    rfl

/-- Settles O55: serving a read does nothing but answer. -/
theorem readsHaveNoSideEffect : Obligations.ReadsHaveNoSideEffect := by
  intro s rest offset bytes hm hh
  obtain ⟨r, hr⟩ := serve_rd offset bytes (setHost rest s)
  exact ⟨r, by rw [step_serve hm hh, hr]; rfl⟩

/-! ## The frames of the build commands -/

/-- A command that answers a next state ran from `IDLE`, or changed nothing (R240, R243). -/
theorem runCommand_idle_or_same {body : State → Flow} {s t : State} (h : runCommand body s = .next t) :
    s.mode = .idle ∨ t = s := by
  rcases runCommand_next h with ⟨-, ht⟩ | ⟨hm, -⟩ | ⟨hm, -⟩
  · exact .inr ht
  · exact .inl hm
  · exact .inl hm

/-- Settles O20: ignored, completed or faulted, the next state is written out by `exec_buildc`. -/
theorem buildcFrame : Obligations.BuildcFrame := by
  intro s t he
  rcases runCommand_idle_or_same he with hm | rfl
  · rcases exec_buildc hm with ⟨g, r, -, -, -, -, -, h⟩ | ⟨g, a, b, rest, -, -, -, -, h⟩
    · cases he.symm.trans h
      exact ⟨rfl, fun _ => rfl⟩
    · cases he.symm.trans h
      exact ⟨rfl, fun _ => rfl⟩
  · exact ⟨rfl, fun _ => rfl⟩

/-- Settles O32: ignored, completed or faulted, the next state is written out by `exec_buildt`, and the loop over pairs
takes bytes from the front of `TI` alone. -/
theorem buildtFrame : Obligations.BuildtFrame := by
  intro s t he
  rcases runCommand_idle_or_same he with hm | rfl
  · obtain ⟨htaken, -, hstop⟩ :=
      loadPairs_cases s.cfg (pair := 0) loads_nil (admissible_nil _) (le_refl s.tabIn.length)
    obtain ⟨hcomplete, hfault⟩ := exec_buildt hm rfl
    rcases hstop with hstop | ⟨c, hstop, -⟩
    · cases he.symm.trans (hcomplete hstop)
      exact ⟨rfl, htaken, fun _ => rfl⟩
    · cases he.symm.trans (hfault c hstop)
      exact ⟨rfl, htaken, fun _ => rfl⟩
  · exact ⟨rfl, ⟨[], rfl⟩, fun _ => rfl⟩

end Sys2Proof.Machine

/-! SUPPORT. The decoder against the encoder (R90 to R94): a word decodes to a command exactly when it is the word of
that command, so the illegal words are all but the six. -/

namespace Sys2Proof

/-- Every command has the word that its `WordForm` describes. -/
theorem wordForm (i : Instr) : Laws.WordForm.Statement i := by
  cases i with
  | buildc => exact Laws.WordForm.buildc
  | write => exact Laws.WordForm.write
  | buildt => exact Laws.WordForm.buildt
  | decsym => exact Laws.WordForm.decsym
  | decstr => exact Laws.WordForm.decstr
  | clear => exact Laws.WordForm.clear

@[simp] theorem decode_encode (i : Instr) : decode (encode i) = .ok i := by
  obtain ⟨-, -, -, hdecode, -⟩ := wordForm i
  exact hdecode

/-- An `OP` value that decodes to a command is the opcode of that command (R92). -/
theorem eq_opcode_of_decodeOp {op : BitVec 4} {i : Instr} (h : decodeOp op = .ok i) : op = opcode i := by
  revert op
  cases i <;> decide

/-- A word that decodes to a command is the word of that command: its upper field is zero and its lower field is the
opcode (R91). -/
theorem eq_encode_of_decode {w : Word} {i : Instr} (h : decode w = .ok i) : w = encode i := by
  unfold decode at h
  split at h
  · cases h
  next hzero =>
    calc w
      _ = zeroField w ++ opField w := fields_append w
      _ = 0#28 ++ opcode i := by rw [not_not.1 hzero, eq_opcode_of_decodeOp h]; rfl

/-- Settles O2: what the decoder accepts is an encoding, and every encoding decodes. -/
theorem decodeAcceptsExactlyTheEncodings : Obligations.DecodeAcceptsExactlyTheEncodings :=
  fun _ _ => ⟨eq_encode_of_decode, fun h => h ▸ decode_encode _⟩

/-- The words of the six commands, as numbers (R92). -/
theorem exists_encode_iff (w : Word) : (∃ i, w = encode i) ↔ w.toNat ∈ [1, 2, 3, 4, 5, 15] := by
  constructor
  · rintro ⟨i, rfl⟩
    cases i <;> decide
  · intro h
    simp only [List.mem_cons, List.not_mem_nil, or_false] at h
    rcases h with h | h | h | h | h | h
    · exact ⟨.buildc, BitVec.eq_of_toNat_eq h⟩
    · exact ⟨.write, BitVec.eq_of_toNat_eq h⟩
    · exact ⟨.buildt, BitVec.eq_of_toNat_eq h⟩
    · exact ⟨.decsym, BitVec.eq_of_toNat_eq h⟩
    · exact ⟨.decstr, BitVec.eq_of_toNat_eq h⟩
    · exact ⟨.clear, BitVec.eq_of_toNat_eq h⟩

/-- The decoder rejects a word exactly when it is the word of no command (R94). -/
theorem decode_error_iff (w : Word) : (∃ e, decode w = .error e) ↔ ¬ ∃ i, w = encode i := by
  simp only [← decodeAcceptsExactlyTheEncodings w]
  cases decode w <;> simp

/-- Settles O3: a word is none of the six numbers exactly when its quotient by 16 is not zero or its remainder is none
of them. -/
theorem illegalWordsAreTheReservedOnes : Obligations.IllegalWordsAreTheReservedOnes := by
  intro w
  rw [decode_error_iff, exists_encode_iff]
  simp only [List.mem_cons, List.not_mem_nil, or_false]
  omega

/-- Settles O1, by running the decoder on the eleven words. -/
theorem commandWordsDecode : Obligations.CommandWordsDecode := by
  unfold Obligations.CommandWordsDecode
  decide

end Sys2Proof

/-! SUPPORT. The decimal numbers of the table text (R100, R101). -/

namespace Sys2Proof.Machine

/-- A positive number prints with no leading zero: its first digit is that of its tenth part, down to one digit
(R100). -/
theorem dec_head_ne_zero {n : Nat} (h : 0 < n) : (dec n).head? ≠ some 0x30#8 := by
  induction n using Nat.strong_induction_on with
  | _ n ih =>
    by_cases hlt : n < 10
    · rw [dec_of_lt hlt, List.head?_cons]
      intro heq
      have hdigit : (digit n).toNat = 0x30 := by rw [Option.some.inj heq]; rfl
      rw [digit_toNat hlt] at hdigit
      omega
    · obtain ⟨⟨hne, -⟩, -⟩ := isDigits_dec (n / 10)
      rw [dec_of_ge (by omega), List.head?_append_of_ne_nil _ hne]
      exact ih (n / 10) (by omega) (by omega)

/-- Settles O26, from the recursion of `dec`. -/
theorem decPrintsCanonicalDigits : Obligations.DecPrintsCanonicalDigits :=
  ⟨fun _ => dec_of_lt, fun _ => dec_of_ge, fun _ => dec_head_ne_zero⟩

/-- A leading zero adds nothing to the value (R101). -/
theorem digitsValue_zero_cons (ds : List Byte) : digitsValue (0x30#8 :: ds) = digitsValue ds := by
  simp [digitsValue]

/-- Settles O27: the loader accumulates the value of the digits, and `dec` prints digits of the right value. -/
theorem symbolLineHasDigitValue : Obligations.SymbolLineHasDigitValue :=
  ⟨fun _ rest h => symbolLine_digits h rest, digitsValue_zero_cons, isDigits_dec⟩

end Sys2Proof.Machine

/-! SUPPORT. Host scripts (R109): several steps in a row, reads of several registers, and the pseudo-instructions. -/

namespace Sys2Proof.Machine

/-! ## Scripts -/

theorem runSteps_succ {s t : State} (h : step s = .next t) (k : Nat) : runSteps (k + 1) s = runSteps k t := by
  simp [runSteps, h]

/-- What a register reads as depends on nothing at the host port (R69). -/
theorem readReg_port (r : Reg) (s : State) (events : List HostEvent) (replies : List Reply) :
    readReg r { s with host := events, replies := replies } = readReg r s := by
  cases r <;> rfl

/-- Reads of registers, one after another, return the words these have at the start, and change nothing else (R69,
R245). -/
theorem runSteps_readRegs (regs : List Reg) {s : State} {rest : List HostEvent} (hm : s.mode ≠ .run)
    (hh : s.host = regs.map (fun r => .rd (regOffset r) 4) ++ rest) :
    runSteps regs.length s = .next { s with
      host := rest, replies := s.replies ++ regs.map (fun r => .data (readReg r s)) } := by
  induction regs generalizing s with
  | nil =>
    obtain rfl : s.host = rest := hh
    simp [runSteps]
  | cons r regs ih =>
    rw [List.length_cons, runSteps_succ (step_read r hm hh), ih (by exact hm) rfl]
    simp [readReg_port]

/-! ## The pseudo-instructions -/

/-- A mnemonic's transaction runs its command (R109, R240). -/
theorem step_commandEvent {s : State} (i : Instr) (hm : s.mode ≠ .run) :
    step (offerEvent (commandEvent i) s) = exec i { s with replies := s.replies ++ [.done] } := by
  rw [step_cmd (s := offerEvent (commandEvent i) s) hm rfl]
  simp only [writeCmd, decode_encode]
  rfl

/-- `SETCNT i, v` stores the low `WW` bits of `v` in `CNT[i]` (R70, R109). -/
theorem runSteps_setCnt {s : State} {i : Nat} (hc : s.cfg.wf = true) (hi : i < s.cfg.asize) (hm : s.mode ≠ .run)
    (v : Word) :
    runSteps 1 { s with host := setCntEvents i v ++ s.host } = .next { s with
      replies := s.replies ++ [.done], cnt := s.cnt.write i (v.toNat % 2 ^ s.cfg.ww) } :=
  runSteps_succ (step_count_write (s := { s with host := setCntEvents i v ++ s.host }) hc hi hm rfl) 0

/-- `GETNODE n` sets `NIDX` and returns the four words of the window there (R41, R109). -/
theorem runSteps_getNode {s : State} (n : Word) (hm : s.mode ≠ .run) :
    runSteps 5 { s with host := getNodeEvents n ++ s.host } = .next { s with
      nidx := n,
      replies := s.replies ++ [.done, .data (readReg .nsym (setNidx n s)), .data (readReg .nwt (setNidx n s)),
        .data (readReg .nleft (setNidx n s)), .data (readReg .nright (setNidx n s))] } := by
  rw [runSteps_succ (step_nidx (s := { s with host := getNodeEvents n ++ s.host }) hm rfl)]
  exact (runSteps_readRegs [.nsym, .nwt, .nleft, .nright] (by exact hm) rfl).trans (by simp only [List.append_assoc]; rfl)

/-- Settles O56: the expansions by definition; a mnemonic is one write to `CMD`, `SETCNT` one write to the count memory,
`GETNODE` one write to `NIDX` and four reads of the window. -/
theorem pseudoInstructionsRunTheirTransactions : Obligations.PseudoInstructionsRunTheirTransactions := by
  refine ⟨⟨rfl, rfl, rfl, rfl, rfl, rfl, fun _ _ => rfl, fun _ => rfl⟩,
    fun s i hm => step_commandEvent i hm, fun s i v h hi => ?setcnt, fun s n hm => ?getnode⟩
  case setcnt =>
    refine ⟨_, runSteps_setCnt h.params hi h.notRunning v, ?_, fun j hj => ?_⟩
    · rw [Memory.read_write h.countsCanonical, if_pos rfl]
    · rw [Memory.read_write h.countsCanonical, if_neg hj.symm]
  case getnode =>
    refine ⟨_, _, _, _, runSteps_getNode n hm, fun hfree => ?_, fun nd hnd => ?_⟩
    · have hzero := windowField_free (s := setNidx n s) hfree
      exact ⟨hzero _, hzero _, hzero _, hzero _⟩
    · have hfield := windowField_slot (s := setNidx n s) hnd
      exact ⟨fun hwf sw hlo hhi => (hfield _).trans (nsymWord_eq hwf hlo hhi nd), hfield _,
        fun hl => by simp [readReg, hfield, hl], fun i hl => by simp [readReg, hfield, hl],
        fun hr => by simp [readReg, hfield, hr], fun i hr => by simp [readReg, hfield, hr]⟩

end Sys2Proof.Machine

/-! SUPPORT. That no step stops, and what `BUILDC` leaves, read off its one outcome: the weight limit that separates
completion from `WEIGHT_OVERFLOW`, the leaves and forks of the arena, the counts it depends on, and the cost of its tree
(R129 to R145). -/

namespace Sys2Proof.Machine

/-! ## Every step answers (R145, R281) -/

/-- Settles O47: `step_ends` gives the next state of every step under the invariant. -/
theorem noStepStops : Obligations.NoStepStops :=
  fun _ h => (step_ends h).imp fun _ => And.left

/-! ## The weight limit (R140) -/

/-- The two entries at the front of `PQ` weigh at most what all leaves weigh. -/
theorem Woods.front_le_total {L : List Node} {f : Forest} (h : Woods L f) {a b : Nat} {rest : List Nat}
    (hp : f.pq = a :: b :: rest) : weightOf f.nodes a + weightOf f.nodes b ≤ (L.map Node.weight).sum := by
  have htotal := h.total
  rw [hp] at htotal
  simp only [List.map_cons, List.sum_cons] at htotal
  omega

/-- The slots behind the leaves are forks (R44). -/
theorem Woods.drop_leaves {L : List Node} {f : Forest} (h : Woods L f) :
    ∀ nd ∈ f.nodes.drop L.length, isLeaf nd = false ∧ nd.symv = false ∧ nd.sym = 0 := by
  obtain ⟨forks, hshape, hforks⟩ := h.shape
  rw [hshape, List.drop_left]
  exact hforks

/-- The one root over two or more leaves is a fork (R139). -/
theorem Woods.root_fork {L : List Node} {f : Forest} {r : Nat} (h : Woods L f) (hp : f.pq = [r])
    (hL : 2 ≤ L.length) : ∃ nd ∈ f.nodes, nd.symv = false ∧ weightOf f.nodes r = nd.weight := by
  obtain ⟨hr, -⟩ := root_last h hp (by omega)
  have hlt : r < f.nodes.length := h.within r (by simp [hp])
  have hnd := List.getElem?_eq_getElem hlt
  have hdrop : f.nodes[r] ∈ f.nodes.drop L.length :=
    List.mem_drop_iff_getElem.2 ⟨r - L.length, by omega, by congr 1; omega⟩
  exact ⟨f.nodes[r], List.getElem_mem hlt, (h.drop_leaves _ hdrop).2.1, weightOf_eq hnd⟩

/-- With no symbol present the total is the sentinel's 1, which every legal `WW` holds (R5, R140). -/
theorem totalWeight_of_empty {s : State} (h : presentSymbols s = []) : totalWeight s = 1 := by
  rw [← allLeaves_weight, allLeaves, h]
  rfl

/-- A forest merged to one root within the limit holds a total within the limit (R140). -/
theorem totalWeight_le_of_merged {s : State} (hwf : s.cfg.wf = true) {g : Forest} {r : Nat}
    (hw : Woods (allLeaves s) g) (hp : g.pq = [r]) (htotal : totalWeight s = weightOf g.nodes r)
    (hfits : ∀ nd ∈ g.nodes, nd.symv = false → nd.weight ≤ weightMax s.cfg) : totalWeight s ≤ weightMax s.cfg := by
  by_cases hsyms : presentSymbols s = []
  · rw [totalWeight_of_empty hsyms]
    exact weightMax_pos hwf
  · have hpos := List.length_pos_iff.2 hsyms
    obtain ⟨nd, hmem, hsv, hweight⟩ := hw.root_fork hp (by rw [allLeaves_length]; omega)
    rw [htotal, hweight]
    exact hfits nd hmem hsv

/-- Settles O11: two waiting nodes never outweigh a total within the limit, so the merges end with one root, the last
node. -/
theorem buildcCompletesWithinWeightLimit : Obligations.BuildcCompletesWithinWeightLimit := by
  intro s hm hle
  rcases exec_buildc hm with ⟨g, r, -, hw, hp, htotal, -, he⟩ | ⟨g, a, b, rest, hw, hp, hover, -, -⟩
  · obtain ⟨hr, hlen⟩ := root_last hw hp (by simp [allLeaves_length])
    rw [allLeaves_length, Nat.add_sub_cancel] at hr hlen
    subst hr
    exact ⟨g.nodes, he, hlen, htotal.symm⟩
  · have := hw.front_le_total hp
    rw [allLeaves_weight] at this
    omega

/-- Settles O12: completion would put the total within the limit, so two roots are left whose weights pass it. -/
theorem buildcOverflowFaults : Obligations.BuildcOverflowFaults := by
  intro s hwf hm hlt
  rcases exec_buildc hm with ⟨g, r, -, hw, hp, htotal, hfits, -⟩ | ⟨g, a, b, rest, hw, hp, hover, -, he⟩
  · have := totalWeight_le_of_merged hwf hw hp htotal hfits
    omega
  · refine ⟨g.nodes, g.pq, he, ?_, a, b, rest, hp, hover⟩
    rw [← allLeaves_length]
    exact take_leaves hw

/-! ## The arena of a completed `BUILDC` -/

/-- A completed `BUILDC` leaves a forest of one root over all leaves (R137). -/
theorem exec_buildc_completed {s t : State} (hm : s.mode = .idle) (he : exec .buildc s = .next t)
    (ht : t.mode = .idle) : ∃ g r, Woods (allLeaves s) g ∧ g.pq = [r] ∧ t.root = some r ∧ t.nodes = g.nodes := by
  rcases exec_buildc_next hm he with ⟨-, h⟩ | ⟨hfault, -⟩
  · exact h
  · rw [ht] at hfault
    cases hfault

/-- Settles O13: the leaves are loaded first, and every merge adds a fork behind them. -/
theorem buildcLeavesAreSymbolsThenSentinel : Obligations.BuildcLeavesAreSymbolsThenSentinel := by
  intro s t hm he ht
  obtain ⟨g, r, hw, -, -, hnodes⟩ := exec_buildc_completed hm he ht
  rw [hnodes, ← allLeaves_length]
  exact ⟨take_leaves hw, hw.drop_leaves⟩

/-- Settles O14: every merge keeps `Woods.forked`, since `PQ` holds the waiting nodes in key order. -/
theorem buildcForksJoinInKeyOrder : Obligations.BuildcForksJoinInKeyOrder := by
  intro s t hm he ht
  obtain ⟨g, r, hw, -, -, hnodes⟩ := exec_buildc_completed hm he ht
  rw [hnodes]
  exact hw.forked

/-- Settles O15: the new node goes behind the entries of at most its weight, all of them older. -/
theorem insertKeepsQueueSorted : Obligations.InsertKeepsQueueSorted :=
  fun _ _ n hsorted hnew => ⟨pqInsert_sorted hsorted hnew, pqInsert_eq hsorted n⟩

/-! ## What the outcome depends on (R138) -/

/-- The forest in which the merge phase of `BUILDC` ends, completed or stopped by the limit (R136). -/
def buildcMerged (s : State) : Except Forest Forest :=
  mergeAll (weightMax s.cfg) (loadLeaves s.cfg.asize s.cnt).pq.length (loadLeaves s.cfg.asize s.cnt)

theorem loadLeaves_congr {n : Nat} {c c' : Memory} (h : ∀ i, i < n → c.read i = c'.read i) :
    loadLeaves n c = loadLeaves n c' := by
  unfold loadLeaves
  rw [loadLeaf_congr (List.range n) fun i hi => h i (List.mem_range.1 hi)]

theorem buildcMerged_congr {s s' : State} (hcfg : s.cfg = s'.cfg)
    (hcnt : ∀ i, i < s.cfg.asize → s.cnt.read i = s'.cnt.read i) : buildcMerged s = buildcMerged s' := by
  unfold buildcMerged
  rw [loadLeaves_congr hcnt, hcfg]

/-- `BUILDC` completes with the forest of a completed merge phase (R137). -/
theorem exec_buildc_of_ok {s : State} {g : Forest} (hm : s.mode = .idle) (h : buildcMerged s = .ok g) :
    exec .buildc s =
      .next (setMode .idle (setTree true g.pq.head? g.nodes [] (startBuild false (setMode .run s)))) := by
  refine runCommand_done hm ?_
  unfold buildcMerged at h
  simp [buildcBody, h]

/-- `BUILDC` faults with the forest of a merge phase the limit stopped (R140). -/
theorem exec_buildc_of_error {s : State} {g : Forest} (hm : s.mode = .idle) (h : buildcMerged s = .error g) :
    exec .buildc s = .next (enterFault .weightOverflow (word g.nodes.length)
      (setTree false none g.nodes g.pq (startBuild false (setMode .run s)))) := by
  refine runCommand_raised hm ?_
  unfold buildcMerged at h
  simp [buildcBody, h]

/-- Settles O16: the outcome is that of the merge phase, which reads only the parameters and the counts. -/
theorem buildcIsFunctionOfCounts : Obligations.BuildcIsFunctionOfCounts := by
  intro s s' t t' hm hm' hcfg hcnt he he'
  have hsame := buildcMerged_congr hcfg hcnt
  cases hg : buildcMerged s with
  | ok g =>
    cases he.symm.trans (exec_buildc_of_ok hm hg)
    cases he'.symm.trans (exec_buildc_of_ok hm' (hsame ▸ hg))
    simp
  | error g =>
    cases he.symm.trans (exec_buildc_of_error hm hg)
    cases he'.symm.trans (exec_buildc_of_error hm' (hsame ▸ hg))
    simp

/-! ## Weight-minimality (R143) -/

/-- No tree over the same labels costs less. -/
def Cheapest (w : Nat → Nat) (T : CodeTree) : Prop :=
  ∀ U, (labels U).Perm (labels T) → treeCost w T ≤ treeCost w U

/-- A cheapest tree costs at most what any prefix-free code over its labels costs: some tree costs no more than the
code. -/
theorem Cheapest.le_codeCost {w : Nat → Nat} {T : CodeTree} (h : Cheapest w T) {codes : List (Nat × List Bool)}
    (hperm : (codes.map Prod.fst).Perm (labels T)) (hfree : codes.Pairwise (fun c d => ¬ Clash c.2 d.2)) :
    codeCost w T.codes ≤ codeCost w codes := by
  have hne : codes ≠ [] := by
    rintro rfl
    rw [← labels_eq] at hperm
    exact CodeTree.codes_ne_nil T (List.map_eq_nil_iff.1 hperm.nil_eq.symm)
  obtain ⟨U, hU, hcost⟩ := exists_tree w hne hfree
  rw [codeCost_codes]
  exact (h U (hU.trans hperm)).trans hcost

/-- In a cheapest tree a heavier leaf is no deeper than a lighter one: exchanging the two would make it cheaper. -/
theorem Cheapest.heavier_not_deeper {w : Nat → Nat} {T : CodeTree} (h : Cheapest w T) (hnodup : (labels T).Nodup)
    {c d : Nat × List Bool} (hc : c ∈ T.codes) (hd : d ∈ T.codes) (hlt : w d.1 < w c.1) :
    c.2.length ≤ d.2.length := by
  by_contra hdeep
  obtain ⟨hperm, hcost⟩ := exchange_cost w hnodup hc hd
  have hle := h _ hperm
  have hgain := mul_add_mul_lt_mul_add_mul hlt (not_le.1 hdeep)
  omega

/-- Settles O18: the merge phase leaves a cheapest tree, and cheapest trees have both properties. -/
theorem buildcTreeIsWeightMinimal : Obligations.BuildcTreeIsWeightMinimal := by
  intro s t hm he ht
  rcases exec_buildc hm with ⟨g, r, hmerged, hw, hp, -, -, h⟩ | ⟨g, a, b, rest, -, -, -, -, h⟩
  · cases he.symm.trans h
    obtain ⟨T, hT, hlabels, hmin⟩ := mergeAll_cheapest hmerged hw hp
    have hcheap : Cheapest (leafWeight s) T := fun U hU => hmin U (hU.trans hlabels)
    have hnodup : (labels T).Nodup := hlabels.nodup_iff.2 (allLeaves_nodup s)
    exact ⟨r, T, rfl, hT, labels_eq T ▸ hlabels, codes_apart T,
      fun codes hperm hfree => hcheap.le_codeCost (hperm.trans hlabels.symm) hfree,
      fun c hc d hd hlt => hcheap.heavier_not_deeper hnodup hc hd hlt⟩
  · cases he.symm.trans h
    cases ht

end Sys2Proof.Machine

/-! SUPPORT. `WRITE` against the tree an arena holds, the text it prints, and the round trip of that text through
`BUILDT` (R160 to R168, R194, R221). -/

namespace Sys2Proof.Machine

/-! ## Rebuilding a tree from its table (R168) -/

/-- Loading the table of a tree that fits completes, with all of it read and nothing but its pairs loaded. -/
theorem loadPairs_tree {c : Config} {T : CodeTree} (hids : ∀ p ∈ T.codes, p.1 ≤ c.asize) (hfit : T.size ≤ c.ncap) :
    ∃ g, Loads g T.codes ∧ loadPairs c (tableText T.codes).length 0 { root := none, nodes := [] } (tableText T.codes) =
      { tree := g, pair := T.codes.length, rest := [], stop := .complete } := by
  have hadm : Admissible c ([] ++ T.codes) := admissible_codes hids hfit
  rcases loadPairs_codes c loads_nil (admissible_nil c) T.codes 0 with ⟨-, g, hg, hload⟩ | ⟨hnot, -⟩
  · exact ⟨g, hg, by simpa [loadPairs] using hload []⟩
  · exact absurd hadm hnot

/-- A tree loaded from the table of `T` is rooted at slot 0 and has the nodes of `T`, none with a weight (R188). -/
theorem Loads.root_size_weights {g : Grown} {T : CodeTree} {c : Config} (hg : Loads g T.codes) (hadm : Admissible c T.codes) :
    g.root = some 0 ∧ g.nodes.length = T.size ∧ ∀ nd ∈ g.nodes, nd.weight = 0 := by
  refine ⟨?_, ?_, fun nd hnd => ?_⟩
  · simp [hg.root, CodeTree.codes_ne_nil]
  · rw [← hg.pathNodes, pathNodes_codes]
  · obtain ⟨i, hi⟩ := List.mem_iff_getElem?.1 hnd
    exact (hg.nodeOk hadm hi).tableWeight rfl

/-- Settles O28: the table of a tree is one the block can hold, and what it loads is that tree. -/
theorem buildtRebuildsTheTree : Obligations.BuildtRebuildsTheTree := by
  intro s T hm htab hids hfit
  obtain ⟨g, hg, hload⟩ := loadPairs_tree hids hfit
  obtain ⟨hroot, hlen, hweight⟩ := hg.root_size_weights (admissible_codes hids hfit)
  rw [← htab] at hload
  have hexec := (exec_buildt hm hload).1 rfl
  exact ⟨g.nodes, by simpa [hroot] using hexec, hg.holds, hlen, hweight⟩

/-! ## Without a tree (R161, R211) -/

theorem writeBody_of_no_tree {s : State} (h : s.tv = false) : writeBody s = .raised (enterFault .noTree 0x2#32 s) :=
  if_pos h

theorem decsymBody_of_no_tree {s : State} (h : s.tv = false) : decsymBody s = .raised (enterFault .noTree 0x4#32 s) :=
  if_pos h

theorem decstrBody_of_no_tree {s : State} (h : s.tv = false) : decstrBody s = .raised (enterFault .noTree 0x5#32 s) :=
  if_pos h

/-- Settles O25: each of the three tests `TV` before anything else. -/
theorem commandsWithoutTreeFault : Obligations.CommandsWithoutTreeFault := by
  intro s hm htv
  exact ⟨runCommand_raised hm (writeBody_of_no_tree htv), runCommand_raised hm (decsymBody_of_no_tree htv),
    runCommand_raised hm (decstrBody_of_no_tree htv)⟩

/-! ## What `WRITE` answers (R160, R166) -/

/-- A body of `WRITE` that completes: the bytes stand in `TO`, and nothing else changed. -/
theorem exec_write_of_done {s : State} {bytes : List Byte} (hm : s.mode = .idle)
    (h : writeBody (setMode .run s) = .done (tabWrite bytes (setMode .run s))) :
    exec .write s = .next { s with tabOut := s.tabOut ++ bytes } := by
  refine (runCommand_done hm h).trans ?_
  rw [show setMode .idle (tabWrite bytes (setMode .run s)) = tabWrite bytes (setMode .idle (setMode .run s)) from rfl,
    setMode_idle hm]
  rfl

/-- A body of `WRITE` that raises: the bytes stand in `TO`, and the fault is entered. -/
theorem exec_write_of_raised {s : State} {bytes : List Byte} {c : Cause} {i : Word} (hm : s.mode = .idle)
    (h : writeBody (setMode .run s) = .raised (enterFault c i (tabWrite bytes (setMode .run s)))) :
    exec .write s = .next { s with
      tabOut := s.tabOut ++ bytes, mode := .faulted, fcause := some c, finfo := i } :=
  runCommand_raised hm h

/-- Settles O21: under the invariant the traversal of a tree ends within its fuel, with the table. -/
theorem writeEmitsTheTable : Obligations.WriteEmitsTheTable := by
  intro s r T h hm htv hroot hT
  obtain ⟨f, hfalls, hbound⟩ := inv_falls h
  exact exec_write_of_done hm
    (writeBody_holds (s := setMode .run s) hfalls htv hroot hT (hbound r (h.rootIn r hroot)))

/-- Below a node from which a one-child node is reached there is no well-formed tree (R47). -/
theorem FirstOneChild.not_holds {nodes : List Node} {n m : Nat} {path : List Bool} {before : List (Nat × List Bool)}
    (h : FirstOneChild nodes n path m before) (T : CodeTree) : ¬ Holds nodes n T := by
  intro hT
  obtain ⟨U, hU⟩ := holds_of_follow hT h.reached
  obtain ⟨nd, hnd, hone⟩ := h.oneChild
  exact hone (children_of_holds hU hnd)

/-- Settles O22: the traversal finds a tree, or stops at the first one-child node, which excludes a tree. -/
theorem writeFaultsExactlyOnOneChildNode : Obligations.WriteFaultsExactlyOnOneChildNode := by
  intro s h hm htv
  obtain ⟨r, hroot⟩ := Option.isSome_iff_exists.1 (h.treeHasRoot htv)
  obtain ⟨f, hfalls, hbound⟩ := inv_falls h
  have hr := h.rootIn r hroot
  rcases emit_cases hfalls (inv_childrenIn h) hr (hbound r hr) [] with ⟨T, hT⟩ | ⟨path, n, before, hfirst, hemit⟩
  · exact .inl ⟨r, T, hroot, hT, writeEmitsTheTable s r T h hm htv hroot hT⟩
  · obtain ⟨nd, hnd, hone⟩ := hfirst.oneChild
    have hexec := exec_write_of_raised hm (writeBody_missing (s := setMode .run s) htv hroot hemit)
    refine .inr ⟨?_, r, n, path, nd, before, hroot, hfirst.reached, hnd, hone, hfirst.first, hfirst.ascend,
      hfirst.leaves, by simpa using hexec⟩
    rintro ⟨r', T, hroot', hT⟩
    cases hroot.symm.trans hroot'
    exact hfirst.not_holds T hT

/-! ## The text `WRITE` prints (R95, R163) -/

/-- Whatever the arena, a traversal prints pairs. -/
theorem emit_bytes (nodes : List Node) (k n : Nat) (p : List Bool) :
    ∃ codes, (emit nodes k n p).bytes = tableText codes := by
  induction k generalizing n p with
  | zero => exact ⟨[], rfl⟩
  | succ k ih =>
    unfold emit
    split
    · exact ⟨[], rfl⟩
    · rename_i nd _
      split
      · exact ⟨[(nd.sym, p)], by simp [tableText]⟩
      · rename_i a b _ _
        obtain ⟨ca, ha⟩ := ih a (p ++ [false])
        obtain ⟨cb, hb⟩ := ih b (p ++ [true])
        unfold Emitted.andThen
        split
        · exact ⟨ca ++ cb, by simp [ha, hb]⟩
        · exact ⟨ca, ha⟩
      · exact ⟨[], rfl⟩

/-- Everything the body of `WRITE` can do, and what it prints: it appends pairs, and completes or raises, or it is
stuck. -/
theorem writeBody_prints (s : State) :
    (∃ codes, writeBody s = .done (tabWrite (tableText codes) s)) ∨
    (∃ codes c i, writeBody s = .raised (enterFault c i (tabWrite (tableText codes) s))) ∨
    (∃ e, writeBody s = .stuck e) := by
  cases htv : s.tv with
  | false => exact .inr (.inl ⟨[], .noTree, 0x2#32, by simp [writeBody_of_no_tree htv, tableText, tabWrite]⟩)
  | true =>
    cases hroot : s.root with
    | none => exact .inr (.inr ⟨.danglingPointer, by simp [writeBody, htv, hroot]⟩)
    | some r =>
      obtain ⟨codes, hbytes⟩ := emit_bytes s.nodes s.nodes.length r []
      cases hstop : (emit s.nodes s.nodes.length r []).stop with
      | finished => exact .inl ⟨codes, by simp [writeBody, htv, hroot, hstop, hbytes]⟩
      | missing n =>
        exact .inr (.inl ⟨codes, .missingChild, word n, by simp [writeBody, htv, hroot, hstop, hbytes]⟩)
      | stuck e => exact .inr (.inr ⟨e, by simp [writeBody, htv, hroot, hstop]⟩)

/-- Everything `WRITE` can answer, ignored, completed or faulted: pairs appended to `TO`, and at most a fault
entered. -/
theorem exec_write_next {s t : State} (h : exec .write s = .next t) :
    ∃ codes, t = { s with tabOut := s.tabOut ++ tableText codes } ∨
      ∃ c i, t = { s with
        tabOut := s.tabOut ++ tableText codes, mode := .faulted, fcause := some c, finfo := i } := by
  rcases runCommand_idle_or_same h with hm | rfl
  · rcases writeBody_prints (setMode .run s) with ⟨codes, hw⟩ | ⟨codes, c, i, hw⟩ | ⟨e, hw⟩
    · cases h.symm.trans (exec_write_of_done hm hw)
      exact ⟨codes, .inl rfl⟩
    · cases h.symm.trans (exec_write_of_raised hm hw)
      exact ⟨codes, .inr ⟨c, i, rfl⟩⟩
    · simp [exec, execWrite, runCommand, hm, hw] at h
  · exact ⟨[], .inl (by simp [tableText])⟩

/-- Settles O24, by the inversion of `WRITE`. -/
theorem writeFrame : Obligations.WriteFrame := by
  intro s t h
  obtain ⟨codes, ht | ⟨c, i, ht⟩⟩ := exec_write_next h
  · exact .inl ⟨_, ht⟩
  · exact .inr ⟨_, c, i, ht⟩

/-- Every byte of a pair is a digit or the line feed: a path character is one of the first two digits (R96). -/
theorem mem_pairText {v : Nat} {path : List Bool} {b : Byte} (h : b ∈ pairText v path) :
    b = lineFeed ∨ isDigit b = true := by
  have hbit : ∀ x, isDigit (bitChar x) = true := by decide
  obtain ⟨⟨-, hdigits⟩, -⟩ := isDigits_dec v
  simp only [pairText, List.append_assoc, List.mem_append, List.mem_cons, List.mem_map, List.not_mem_nil,
    or_false, List.cons_append] at h
  rcases h with h | h | ⟨x, -, rfl⟩ | h
  · exact .inr (hdigits b h)
  · exact .inl h
  · exact .inr (hbit x)
  · exact .inl h

theorem mem_tableText {codes : List (Nat × List Bool)} {b : Byte} (h : b ∈ tableText codes) :
    b = 0x0A#8 ∨ (0x30 ≤ b.toNat ∧ b.toNat ≤ 0x39) := by
  obtain ⟨c, -, hb⟩ := List.mem_flatMap.1 h
  simpa [lineFeed, isDigit] using mem_pairText hb

/-- Settles O23: `WRITE` prints pairs, and their bytes and the order of a tree's pairs are known. -/
theorem writtenTextIsCanonical : Obligations.WrittenTextIsCanonical := by
  refine ⟨pairText_eq, codes_ascend, fun _ _ => mem_tableText, fun s t h => ?_⟩
  obtain ⟨codes, ht⟩ := exec_write_next h
  refine ⟨tableText codes, ?_, fun _ => mem_tableText⟩
  rcases ht with rfl | ⟨c, i, rfl⟩ <;> rfl

/-! ## The round trip (R168, R221) -/

/-- A stream loop that completes records no fault of its own. -/
theorem decodeLoop_done_fcause {k : Nat} {s t : State} (h : decodeLoop k s = .done t) : t.fcause = s.fcause := by
  induction k generalizing s with
  | zero => cases h
  | succ k ih =>
    obtain ⟨u, hu, hrest⟩ := Flow.andThen_done.1 h
    have hsame : u.fcause = s.fcause := by
      rcases decodeSymbol_cases s with ⟨r, p, rest, n, nd, -, -, -, -, -, hd⟩ | ⟨r, n, nd, -, -, -, -, hd⟩ |
        ⟨r, p, b, rest, n, nd, -, -, -, -, -, -, hd⟩ | ⟨-, hd⟩ <;> cases hu.symm.trans hd
      rfl
    split at hrest
    · cases hrest; exact hsame
    · exact (ih hrest).trans hsame

/-- The root of a tree is a leaf of a symbol other than the sentinel exactly when the tree is such a leaf (R219). -/
theorem zeroLengthRoot_of_holds {s : State} {r : Nat} {T : CodeTree} (h : Holds s.nodes r T) :
    zeroLengthRoot s r = true ↔ ∃ u, T = .leaf u ∧ u ≠ s.cfg.asize := by
  cases T with
  | leaf u =>
    obtain ⟨nd, hnd, hleaf, hsym⟩ := h
    simp [zeroLengthRoot_eq hnd, hleaf, hsym]
  | fork l r' =>
    obtain ⟨nd, hnd, hleaf⟩ := isLeaf_of_holds_fork h
    simp [zeroLengthRoot_eq hnd, hleaf]

/-- Two blocks in `IDLE` with one tree, one alphabet, the same bits to come and the same symbols written: `DECSTR`
takes the same bits, writes the same symbols and ends the same way in both (R221, R222). -/
theorem exec_decstr_alike {T : CodeTree} {a b : State} {n m : Nat} (hma : a.mode = .idle) (hmb : b.mode = .idle)
    (hva : a.tv = true) (hvb : b.tv = true) (hra : a.root = some n) (hrb : b.root = some m)
    (hTa : Holds a.nodes n T) (hTb : Holds b.nodes m T) (hsize : a.cfg.asize = b.cfg.asize)
    (hbits : a.bitIn = b.bitIn) (hout : a.symOut = b.symOut) (hcause : a.fcause = b.fcause) :
    ∃ x y, exec .decstr a = .next x ∧ exec .decstr b = .next y ∧
      y.symOut = x.symOut ∧ y.bitIn = x.bitIn ∧ y.mode = x.mode ∧ y.fcause = x.fcause := by
  by_cases hz : ∃ u, T = .leaf u ∧ u ≠ a.cfg.asize
  · have hza := (zeroLengthRoot_of_holds hTa).2 hz
    have hzb := (zeroLengthRoot_of_holds hTb).2 (hsize ▸ hz)
    exact ⟨_, _, runCommand_raised hma (decstrBody_zeroLength (s := setMode .run a) hva hra hza),
      runCommand_raised hmb (decstrBody_zeroLength (s := setMode .run b) hvb hrb hzb), hout.symm, hbits.symm, rfl, rfl⟩
  · have hza : zeroLengthRoot a n = false := Bool.eq_false_iff.2 (mt (zeroLengthRoot_of_holds hTa).1 hz)
    have hzb : zeroLengthRoot b m = false :=
      Bool.eq_false_iff.2 (mt (zeroLengthRoot_of_holds hTb).1 (hsize ▸ hz))
    have hbodya := decstrBody_of_tree (s := setMode .run a) hva hra hza
    have hbodyb := decstrBody_of_tree (s := setMode .run b) hvb hrb hzb
    rw [setMode_bitIn] at hbodya
    rw [setMode_bitIn, ← hbits] at hbodyb
    rcases decodeLoop_alike (a.bitIn.length + 1) (a := setMode .run a) (b := setMode .run b) hra hrb hTa hTb hsize
        hbits hout (Nat.lt_succ_self _) (fun u hu => by_contra fun hne => hz ⟨u, hu, hne⟩) with
      ⟨x, y, hx, hy, hsym, hbit⟩ | ⟨x, y, hx, hy, hsym, hbit, hmx, hmy, hcx, hcy⟩
    · exact ⟨_, _, runCommand_done hma (hbodya.trans hx), runCommand_done hmb (hbodyb.trans hy), hsym.symm, hbit.symm,
        rfl, (decodeLoop_done_fcause hy).trans (hcause.symm.trans (decodeLoop_done_fcause hx).symm)⟩
    · exact ⟨x, y, runCommand_raised hma (hbodya.trans hx), runCommand_raised hmb (hbodyb.trans hy), hsym.symm,
        hbit.symm, hmy.trans hmx.symm, hcy.trans hcx.symm⟩

/-- The symbols of a tree in a state that satisfies the invariant are in range (R42). -/
theorem inv_codes_range {s : State} (h : Inv s) {r : Nat} {T : CodeTree} (hT : Holds s.nodes r T) :
    ∀ c ∈ T.codes, c.1 ≤ s.cfg.asize := by
  intro c hc
  obtain ⟨n, leaf, -, hn, -, hsym⟩ := follow_of_mem_codes hT hc
  exact hsym ▸ (h.nodesOk n leaf hn).symRange

/-- Settles O41: the rebuilt arena holds the same tree, the decoder sees nothing else, and `WRITE` prints its table. -/
theorem roundTripDecodesAlike : Obligations.RoundTripDecodesAlike := by
  intro s u t r T hs hms hvs hrs hTs hu hmu hsize hfit htab he
  obtain ⟨nodes, hexec, hT, -, -⟩ :=
    buildtRebuildsTheTree u T hmu htab (hsize ▸ inv_codes_range hs hTs) hfit
  obtain ⟨t', he', ht⟩ := exec_ends hu .buildt
  cases he.symm.trans he'
  cases he.symm.trans hexec
  have hcause : s.fcause = u.fcause := (inv_idle hs hms).1.trans (inv_idle hu hmu).1.symm
  exact ⟨exec_decstr_alike hms hmu hvs rfl hrs rfl hTs hT hsize.symm rfl rfl hcause,
    writeEmitsTheTable _ 0 T ht hmu rfl rfl hT⟩

end Sys2Proof.Machine

/-! SUPPORT. `BUILDT` on spelled tables (R180 to R196): a table the block can hold is loaded whole, and what follows
pairs that load can fault without disturbing their tree. -/

namespace Sys2Proof.Machine

/-! ## Tables of spelled pairs -/

@[simp] theorem pairValues_isEmpty (pairs : List (List Byte × List Bool)) :
    (pairValues pairs).isEmpty = pairs.isEmpty := by
  simp [pairValues]

/-- Reading the symbol lines leaves the paths as they are. -/
@[simp] theorem map_snd_pairValues (pairs : List (List Byte × List Bool)) :
    (pairValues pairs).map Prod.snd = pairs.map Prod.snd := by
  simp [pairValues]

theorem forall_mem_pairValues {pairs : List (List Byte × List Bool)} {P : Nat × List Bool → Prop} :
    (∀ c ∈ pairValues pairs, P c) ↔ ∀ p ∈ pairs, P (digitsValue p.1, p.2) :=
  List.forall_mem_map

/-- Whether a block can hold a table of spelled pairs (R185, R187, R189, R194). -/
theorem admissible_pairValues {c : Config} {pairs : List (List Byte × List Bool)} :
    Admissible c (pairValues pairs) ↔ (∀ p ∈ pairs, digitsValue p.1 ≤ c.asize) ∧
      pairs.Pairwise (fun p q => ¬ Clash p.2 q.2) ∧ pathNodes (pairs.map Prod.snd) ≤ c.ncap := by
  constructor
  · rintro ⟨hids, hapart, hfits⟩
    exact ⟨forall_mem_pairValues.1 hids, List.pairwise_map.1 hapart, map_snd_pairValues pairs ▸ hfits⟩
  · rintro ⟨hids, hapart, hfits⟩
    exact ⟨forall_mem_pairValues.2 hids, List.pairwise_map.2 hapart, (map_snd_pairValues pairs).symm ▸ hfits⟩

/-- The loop from its start on a table and what follows it (R180): the table is loaded and the loop goes on behind it,
or the block cannot hold the table and the loop stops with a fault in it. -/
theorem loadPairs_table (c : Config) {pairs : List (List Byte × List Bool)} (hd : ∀ p ∈ pairs, IsDigits p.1) :
    (Admissible c (pairValues pairs) ∧ ∃ g, Loads g (pairValues pairs) ∧ ∀ rest,
      loadPairs c (spelledText pairs ++ rest).length 0 { root := none, nodes := [] } (spelledText pairs ++ rest) =
        loadPairs c rest.length pairs.length g rest) ∨
    (¬ Admissible c (pairValues pairs) ∧ ∀ rest, ∃ cause,
      (loadPairs c (spelledText pairs ++ rest).length 0 { root := none, nodes := [] }
        (spelledText pairs ++ rest)).stop = .fault cause) := by
  simpa only [List.nil_append, Nat.zero_add] using loadPairs_spelled c loads_nil (admissible_nil c) pairs hd 0

/-! ## Tables that load (R191, R193, R194) -/

/-- A tree that holds the pairs of a table is rooted at slot 0, or has no root if the table has no pair (R193). -/
theorem Loads.root_pairValues {g : Grown} {pairs : List (List Byte × List Bool)} (h : Loads g (pairValues pairs)) :
    g.root = (if pairs.isEmpty then none else some 0) ∧ g.root.isSome = !pairs.isEmpty := by
  rw [h.root, pairValues_isEmpty]
  cases pairs.isEmpty <;> exact ⟨rfl, rfl⟩

/-- `BUILDT` of a table the block can hold completes with its pairs loaded and all of `TI` read. -/
theorem exec_buildt_of_admissible {s : State} {pairs : List (List Byte × List Bool)} (hm : s.mode = .idle)
    (htab : s.tabIn = spelledText pairs) (hd : ∀ p ∈ pairs, IsDigits p.1)
    (hadm : Admissible s.cfg (pairValues pairs)) :
    ∃ g, Loads g (pairValues pairs) ∧ exec .buildt s = .next { s with
      tv := !pairs.isEmpty, src := true, eos := false, rv := false, rsym := 0, cur := none, pq := [],
      root := if pairs.isEmpty then none else some 0, nodes := g.nodes, tabIn := [] } := by
  rcases loadPairs_table s.cfg hd with ⟨-, g, hg, hload⟩ | ⟨hnot, -⟩
  · obtain ⟨hroot, hsome⟩ := hg.root_pairValues
    have hrun := hload []
    rw [List.append_nil, ← htab] at hrun
    refine ⟨g, hg, ?_⟩
    rw [← hsome, ← hroot]
    exact (exec_buildt hm hrun).1 rfl
  · exact absurd hadm hnot

/-- Settles O29: the block can hold the table, and the tree that holds its pairs has them as its leaves. -/
theorem buildtLoadsPrefixFreeTable : Obligations.BuildtLoadsPrefixFreeTable := by
  intro s pairs hm htab hpairs hapart hfits
  obtain ⟨g, hg, hexec⟩ := exec_buildt_of_admissible hm htab (fun p hp => (hpairs p hp).1)
    (admissible_pairValues.2 ⟨fun p hp => (hpairs p hp).2, hapart, hfits⟩)
  exact ⟨g.nodes, hexec, by rw [← hg.pathNodes, map_snd_pairValues], hg.follow_iff⟩

/-! ## Faults behind pairs that load (R184 to R190) -/

/-- After pairs that load, what follows them can stop the loop in the next pair: then `BUILDT` faults with the index of
that pair, and keeps the tree of the pairs before it (R190, R260, R276). -/
theorem exec_buildt_fault_behind {s t : State} {pairs : List (List Byte × List Bool)} (hm : s.mode = .idle)
    (hd : ∀ p ∈ pairs, IsDigits p.1) (he : exec .buildt { s with tabIn := spelledText pairs } = .next t)
    (ht : t.mode = .idle) :
    ∃ g, Loads g (pairValues pairs) ∧ ∀ tail rest cause,
      loadPairs s.cfg tail.length pairs.length g tail =
        { tree := g, pair := pairs.length, rest := rest, stop := .fault cause } →
      exec .buildt { s with tabIn := spelledText pairs ++ tail } = .next { t with
        mode := .faulted, fcause := some cause, finfo := word pairs.length, tv := false, tabIn := rest } := by
  rcases loadPairs_table s.cfg hd with ⟨-, g, hg, hload⟩ | ⟨-, hfault⟩
  · have hrun := hload []
    rw [List.append_nil] at hrun
    cases he.symm.trans ((exec_buildt (s := { s with tabIn := spelledText pairs }) hm hrun).1 rfl)
    refine ⟨g, hg, fun tail rest cause htail => ?_⟩
    exact (exec_buildt (s := { s with tabIn := spelledText pairs ++ tail }) hm ((hload tail).trans htail)).2 cause rfl
  · obtain ⟨cause, hstop⟩ := hfault []
    rw [List.append_nil] at hstop
    cases he.symm.trans ((exec_buildt (s := { s with tabIn := spelledText pairs }) hm rfl).2 cause hstop)
    cases ht

/-- A pair in range that does not insert stops the loop behind its last LF (R190). -/
theorem loadPairs_spelled_rejected (c : Config) {ds : List Byte} (hd : IsDigits ds) (hv : digitsValue ds ≤ c.asize)
    {g : Grown} {path : List Bool} {stop : LoadStop}
    (h : insertPair c.ncap g (digitsValue ds) path = .error stop) (pair : Nat) (rest : List Byte) :
    loadPairs c (spelledPair ds path ++ rest).length pair g (spelledPair ds path ++ rest) =
      { tree := g, pair := pair, rest := rest, stop := stop } :=
  loadPairs_rejected c (by simp [spelledPair_ne_nil]) (readPair_spelled_ok hd hv path rest) h

/-- A path that clashes with an earlier one conflicts, whatever room is left (R187, R190). -/
theorem Loads.insertPair_of_clash {g : Grown} {codes : List (Nat × List Bool)} (h : Loads g codes) {path : List Bool}
    (hclash : ∃ c ∈ codes, Clash c.2 path) (ncap v : Nat) :
    insertPair ncap g v path = .error (.fault .conflictingCodePath) := by
  obtain ⟨c, hc, hcl⟩ := hclash
  rcases insertPair_cases h ncap v path with ⟨-, hi⟩ | ⟨hno, -⟩ | ⟨hno, -⟩
  · exact hi
  · exact absurd hcl (hno c hc)
  · exact absurd hcl (hno c hc)

/-- A path that clashes with no earlier one but needs too many nodes does not fit (R189). -/
theorem Loads.insertPair_of_large {g : Grown} {codes : List (Nat × List Bool)} (h : Loads g codes) {path : List Bool}
    {ncap : Nat} (hno : ∀ c ∈ codes, ¬ Clash c.2 path)
    (hlarge : ncap < Sys2Proof.pathNodes (codes.map Prod.snd ++ [path])) (v : Nat) :
    insertPair ncap g v path = .error (.fault .arenaFull) := by
  rcases insertPair_cases h ncap v path with ⟨⟨c, hc, hclash⟩, -⟩ | ⟨-, -, hi⟩ | ⟨-, hfit, -⟩
  · exact absurd hclash (hno c hc)
  · exact hi
  · exact absurd hlarge (not_lt.2 hfit)

/-- Settles O30: the pair reads, and inserting it behind the loaded pairs is rejected. -/
theorem buildtRejectsClashingOrLargePair : Obligations.BuildtRejectsClashingOrLargePair := by
  intro s t pairs ds path rest hm hd he ht hds hv
  obtain ⟨g, hg, hfault⟩ := exec_buildt_fault_behind hm hd he ht
  rw [List.append_assoc]
  refine ⟨fun ⟨p, hp, hclash⟩ => ?_, fun hno hlarge => ?_⟩
  · have hclash' : ∃ c ∈ pairValues pairs, Clash c.2 path := ⟨_, List.mem_map_of_mem hp, hclash⟩
    exact hfault _ _ _ (loadPairs_spelled_rejected s.cfg hds hv (hg.insertPair_of_clash hclash' _ _) _ rest)
  · have hno' : ∀ c ∈ pairValues pairs, ¬ Clash c.2 path := forall_mem_pairValues.2 hno
    have hlarge' : s.cfg.ncap < pathNodes ((pairValues pairs).map Prod.snd ++ [path]) := by simpa using hlarge
    exact hfault _ _ _ (loadPairs_spelled_rejected s.cfg hds hv
      (hg.insertPair_of_large hno' hlarge' _) _ rest)

/-- Settles O31: the text behind the loaded pairs does not read as a pair. -/
theorem buildtRejectsMalformedPair : Obligations.BuildtRejectsMalformedPair := by
  intro s t pairs hm hd he ht
  obtain ⟨g, -, hfault⟩ := exec_buildt_fault_behind hm hd he ht
  refine ⟨fun bad cause rest hbad => ?_, fun cut hcut => ?_⟩
  · obtain ⟨hread, hne⟩ := readPair_bad hbad rest
    rw [List.append_assoc]
    exact hfault _ _ _ (loadPairs_bad s.cfg (by simp [hne]) hread)
  · obtain ⟨hread, hne⟩ := readPair_cut hcut
    exact hfault _ _ _ (loadPairs_bad s.cfg hne hread)

end Sys2Proof.Machine

/-! SUPPORT. `DECSYM` and `DECSTR` as commands (R210 to R222): what each answers where a code, a fault or a one-node tree
stands in front of it, what both leave unchanged, and `DECSYM` issued again and again against one `DECSTR`. -/

namespace Sys2Proof.Machine

/-! ## One `DECSYM` (R210, R213, R214) -/

theorem exec_decsym_of_done {s u : State} (hm : s.mode = .idle) (htv : s.tv = true)
    (h : decodeSymbol (setMode .run s) = .done u) : exec .decsym s = .next (setMode .idle u) :=
  runCommand_done hm ((decsymBody_of_tree (s := setMode .run s) htv).trans h)

theorem exec_decsym_of_raised {s u : State} (hm : s.mode = .idle) (htv : s.tv = true)
    (h : decodeSymbol (setMode .run s) = .raised u) : exec .decsym s = .next u :=
  runCommand_raised hm ((decsymBody_of_tree (s := setMode .run s) htv).trans h)

/-- Settles O34: along the path the walk takes exactly its bits, and stops at the leaf. -/
theorem decsymReturnsTheLeafOfThePath : Obligations.DecsymReturnsTheLeafOfThePath := by
  intro s r n nd path rest hm htv hroot hf hn hl hbits
  rw [exec_decsym_of_done hm htv (decodeSymbol_leaf (s := setMode .run s) hroot hf hn hl hbits), hm]
  rfl

/-- Settles O35: behind the path the walk stands at the internal node, and finds no bit or no child there. -/
theorem decsymFaultsNameTheNode : Obligations.DecsymFaultsNameTheNode := by
  intro s r n nd path hm htv hroot hf hn hl
  refine ⟨fun hbits => ?_, fun b rest hc hbits => ?_⟩
  · subst hbits
    exact exec_decsym_of_raised hm htv (decodeSymbol_truncated (s := setMode .run s) hroot hf hn hl)
  · exact exec_decsym_of_raised hm htv (decodeSymbol_missing (s := setMode .run s) hroot hf hn hl hc hbits)

/-! ## The loop of `DECSTR` (R215 to R219) -/

theorem decodeLoop_of_sentinel {k : Nat} {s t : State} (h : decodeSymbol s = .done t) (hv : t.rsym = t.cfg.asize) :
    decodeLoop (k + 1) s = .done t := by
  simp [decodeLoop, h, hv]

theorem decodeLoop_of_symbol {k : Nat} {s t : State} (h : decodeSymbol s = .done t) (hv : t.rsym ≠ t.cfg.asize) :
    decodeLoop (k + 1) s = decodeLoop k (symWrite t.rsym t) := by
  simp [decodeLoop, h, hv]

theorem decodeLoop_of_raised {k : Nat} {s t : State} (h : decodeSymbol s = .raised t) :
    decodeLoop (k + 1) s = .raised t := by
  simp [decodeLoop, h]

theorem decodeLoop_of_stuck {k : Nat} {s : State} {e : Fault} (h : decodeSymbol s = .stuck e) :
    decodeLoop (k + 1) s = .stuck e := by
  simp [decodeLoop, h, Flow.andThen]

theorem zeroLengthRoot_iff {s : State} {r : Nat} :
    zeroLengthRoot s r = true ↔ ∃ nd, s.nodes[r]? = some nd ∧ isLeaf nd = true ∧ nd.sym ≠ s.cfg.asize := by
  cases hn : s.nodes[r]? with
  | none => simp [zeroLengthRoot, hn]
  | some nd => simp [zeroLengthRoot_eq hn]

/-- Everything the body of `DECSTR` can do with a tree: no root, a root that would be decoded for ever, or the loop. -/
theorem decstrBody_cases {s : State} (htv : s.tv = true) :
    decstrBody s = .stuck .danglingPointer ∨
    (∃ r, s.root = some r ∧ zeroLengthRoot s r = true ∧
      decstrBody s = .raised (enterFault .zeroLengthLoop (word r) s)) ∨
    decstrBody s = decodeLoop (s.bitIn.length + 1) s := by
  cases hroot : s.root with
  | none => exact .inl (by simp [decstrBody, htv, hroot])
  | some r =>
    cases hz : zeroLengthRoot s r with
    | true => exact .inr (.inl ⟨r, rfl, hz, decstrBody_zeroLength htv hroot hz⟩)
    | false => exact .inr (.inr (decstrBody_of_tree htv hroot hz))

/-- From a leaf no path leads anywhere else. -/
theorem eq_of_follow_of_isLeaf {nodes : List Node} {r n : Nat} {nd : Node} {p : List Bool} (hn : nodes[r]? = some nd)
    (hl : isLeaf nd = true) (hf : follow nodes r p = some n) : n = r := by
  cases p with
  | nil => cases hf; rfl
  | cons b p => simp [follow, hn, child_of_isLeaf hl] at hf

/-- The pre-check of `DECSTR` passes where some path leads to a node that is no leaf, or the sentinel's. -/
theorem zeroLengthRoot_of_follow {s : State} {r n : Nat} {nd : Node} {p : List Bool}
    (hf : follow s.nodes r p = some n) (hn : s.nodes[n]? = some nd)
    (h : isLeaf nd = true → nd.sym = s.cfg.asize) : zeroLengthRoot s r = false := by
  refine Bool.eq_false_iff.2 fun hz => ?_
  obtain ⟨rn, hrn, hl, hne⟩ := zeroLengthRoot_iff.1 hz
  obtain rfl := eq_of_follow_of_isLeaf hrn hl hf
  cases hrn.symm.trans hn
  exact hne (h hl)

/-- Each pair is the symbol and the path of a leaf below `r`, and none of them is the sentinel's (R104). -/
def CodesOf (s : State) (r : Nat) (codes : List (Nat × List Bool)) : Prop :=
  ∀ c ∈ codes, c.1 ≠ s.cfg.asize ∧ ∃ m leaf, follow s.nodes r c.2 = some m ∧
    s.nodes[m]? = some leaf ∧ isLeaf leaf = true ∧ leaf.sym = c.1

/-- Where the pre-check of `DECSTR` passes, no code but the sentinel's is empty (R217, R219). -/
theorem CodesOf.ne_nil {s : State} {r : Nat} {codes : List (Nat × List Bool)} (h : CodesOf s r codes)
    (hz : zeroLengthRoot s r = false) : ∀ c ∈ codes, c.2 ≠ [] := by
  intro c hc hnil
  obtain ⟨hne, m, leaf, hf, hm, hl, hsym⟩ := h c hc
  rw [hnil] at hf
  cases hf
  exact Bool.eq_false_iff.1 hz (zeroLengthRoot_iff.2 ⟨leaf, hm, hl, hsym ▸ hne⟩)

/-- `DECSTR` over a run of codes: its loop comes to stand behind them, with a turn left (R216, R217). -/
theorem decstrBody_codes {s : State} {r : Nat} {codes : List (Nat × List Bool)} {rest : List Bool}
    (htv : s.tv = true) (hroot : s.root = some r) (hz : zeroLengthRoot s r = false) (hcodes : CodesOf s r codes)
    (hbits : s.bitIn = codes.flatMap Prod.snd ++ rest) :
    ∃ cur, decstrBody s = decodeLoop (rest.length + ((codes.flatMap Prod.snd).length - codes.length) + 1)
      (afterCodes codes cur rest s) := by
  have hlen := length_le_of_codes (hcodes.ne_nil hz)
  obtain ⟨cur, hloop⟩ := decodeLoop_codes hroot hcodes hbits
    (rest.length + ((codes.flatMap Prod.snd).length - codes.length) + 1)
  refine ⟨cur, (decstrBody_of_tree htv hroot hz).trans (Eq.trans ?_ hloop)⟩
  rw [hbits, List.length_append]
  congr 1
  omega

/-- Settles O36: the loop runs over the codes, and its next turn decodes the sentinel. -/
theorem decstrDecodesUpToTheSentinel : Obligations.DecstrDecodesUpToTheSentinel := by
  intro s r n nd codes last rest hm htv hroot hcodes hf hn hl hsym hbits
  obtain ⟨cur, hbody⟩ := decstrBody_codes (s := setMode .run s) htv hroot
    (zeroLengthRoot_of_follow (s := setMode .run s) hf hn fun _ => hsym) hcodes
    (hbits.trans (List.append_assoc ..))
  refine (runCommand_done hm (hbody.trans (decodeLoop_sentinel (s := afterCodes ..) hroot hf hn hl rfl hsym))).trans ?_
  simp [setResult, setCursor, afterCodes, setMode, hsym, hm]

/-- `DECSTR` over a run of codes, behind which decoding a symbol raises: the fault is entered, and what the codes wrote
stays (R217, R275). -/
theorem exec_decstr_raised_behind {s u : State} {r : Nat} {codes : List (Nat × List Bool)} {rest : List Bool}
    (hm : s.mode = .idle) (htv : s.tv = true) (hroot : s.root = some r) (hz : zeroLengthRoot s r = false)
    (hcodes : CodesOf s r codes) (hbits : s.bitIn = codes.flatMap Prod.snd ++ rest)
    (h : ∀ cur, decodeSymbol (afterCodes codes cur rest (setMode .run s)) = .raised u) :
    exec .decstr s = .next u := by
  obtain ⟨cur, hbody⟩ := decstrBody_codes (s := setMode .run s) htv hroot hz hcodes hbits
  exact runCommand_raised hm (hbody.trans (decodeLoop_of_raised (h cur)))

/-- Settles O37: the loop runs over the codes, and its next turn raises at the internal node. -/
theorem decstrFaultKeepsWrittenSymbols : Obligations.DecstrFaultKeepsWrittenSymbols := by
  intro s r n nd codes path hm htv hroot hcodes hf hn hl
  have hz : zeroLengthRoot s r = false := zeroLengthRoot_of_follow hf hn fun h => by simp [hl] at h
  refine ⟨fun hbits => ?_, fun b rest hc hbits => ?_⟩
  · exact exec_decstr_raised_behind hm htv hroot hz hcodes hbits fun _ =>
      decodeSymbol_truncated (s := afterCodes ..) hroot hf hn hl
  · rw [List.append_assoc] at hbits
    exact exec_decstr_raised_behind hm htv hroot hz hcodes hbits fun _ =>
      decodeSymbol_missing (s := afterCodes ..) hroot hf hn hl hc rfl

/-! ## The one-node tree (R219) -/

/-- Settles O38: the empty path leads to the root, which is the leaf; where it is not the sentinel's, the pre-check of
`DECSTR` raises. -/
theorem oneNodeTreeReadsNoBit : Obligations.OneNodeTreeReadsNoBit := by
  intro s r nd hm htv hroot hn hl
  refine ⟨decsymReturnsTheLeafOfThePath s r r nd [] s.bitIn hm htv hroot rfl hn hl rfl, fun hsym => ?_, fun hsym => ?_⟩
  · simpa [hsym] using
      decstrDecodesUpToTheSentinel s r r nd [] [] s.bitIn hm htv hroot (by simp) rfl hn hl hsym rfl
  · exact runCommand_raised hm (decstrBody_zeroLength (s := setMode .run s) htv hroot
      (zeroLengthRoot_iff.2 ⟨nd, hn, hl, hsym⟩))

/-! ## The frame of both commands (R222) -/

/-- What a command's body keeps, the command keeps, if a change of `MODE` alone keeps it too. -/
theorem runCommand_keeps {P : State → State → Prop} (hrefl : ∀ s, P s s)
    (htrans : ∀ {s t u}, P s t → P t u → P s u) (hmode : ∀ m s, P s (setMode m s)) {body : State → Flow}
    (hbody : ∀ {s u}, body s = .done u ∨ body s = .raised u → P s u) {s t : State}
    (h : runCommand body s = .next t) : P s t := by
  rcases runCommand_next h with ⟨-, rfl⟩ | ⟨-, u, hu, rfl⟩ | ⟨-, hu⟩
  · exact hrefl t
  · exact htrans (hmode .run s) (htrans (hbody (.inl hu)) (hmode .idle u))
  · exact htrans (hmode .run s) (hbody (.inr hu))

theorem decodeFrame_setMode (m : Mode) (s : State) : DecodeFrame s (setMode m s) :=
  ⟨rfl, ⟨[], rfl⟩, [], by simp, by simp⟩

theorem decodeFrame_enterFault (c : Cause) (i : Word) (s : State) : DecodeFrame s (enterFault c i s) :=
  ⟨rfl, ⟨[], rfl⟩, [], by simp, by simp⟩

theorem decsymBody_frame {s u : State} (h : decsymBody s = .done u ∨ decsymBody s = .raised u) :
    DecodeFrame s u ∧ u.symOut = s.symOut := by
  cases htv : s.tv with
  | false =>
    obtain rfl : enterFault .noTree 0x4#32 s = u := by simpa [decsymBody_of_no_tree htv] using h
    exact ⟨decodeFrame_enterFault .., rfl⟩
  | true => exact decodeSymbol_frame (decsymBody_of_tree htv ▸ h)

theorem decstrBody_frame {s u : State} (h : decstrBody s = .done u ∨ decstrBody s = .raised u) : DecodeFrame s u := by
  cases htv : s.tv with
  | false =>
    obtain rfl : enterFault .noTree 0x5#32 s = u := by simpa [decstrBody_of_no_tree htv] using h
    exact decodeFrame_enterFault ..
  | true =>
    rcases decstrBody_cases htv with hb | ⟨r, -, -, hb⟩ | hb <;> rw [hb] at h
    · simp at h
    · obtain rfl : enterFault .zeroLengthLoop (word r) s = u := by simpa using h
      exact decodeFrame_enterFault ..
    · exact decodeLoop_frame h

/-- Settles O40: the bodies keep the frame, `DECSYM`'s keeps `SO` as well, and a change of `MODE` keeps both. -/
theorem decodersFrame : Obligations.DecodersFrame := by
  refine ⟨fun s t h => ?_, fun s t h =>
    runCommand_keeps DecodeFrame.refl DecodeFrame.trans decodeFrame_setMode decstrBody_frame h⟩
  obtain ⟨hrest, htaken, -⟩ := runCommand_keeps DecodeFrame.refl DecodeFrame.trans decodeFrame_setMode
    (fun hb => (decsymBody_frame hb).1) h
  have hout : t.symOut = s.symOut := runCommand_keeps (P := fun s t => t.symOut = s.symOut) (fun _ => rfl)
    (fun h k => k.trans h) (fun _ _ => rfl) (fun hb => (decsymBody_frame hb).2) h
  rw [hout] at hrest
  exact ⟨hrest, htaken⟩

/-! ## `DECSYM` again and again (R220) -/

theorem decsymRepeat_sentinel {k : Nat} {s t : State} (h : exec .decsym s = .next t) (hm : t.mode ≠ .faulted)
    (he : t.eos = true) : decsymRepeat (k + 1) s = ([t.rsym], t) := by
  simp [decsymRepeat, h, hm, he]

theorem decsymRepeat_code {k : Nat} {s t : State} (h : exec .decsym s = .next t) (hm : t.mode ≠ .faulted)
    (he : t.eos = false) {symbols : List Nat} {u : State} (hrest : decsymRepeat k t = (symbols, u)) :
    decsymRepeat (k + 1) s = (t.rsym :: symbols, u) := by
  simp [decsymRepeat, h, hm, he, hrest]

theorem decsymRepeat_faulted {k : Nat} {s t : State} (h : exec .decsym s = .next t) (hm : t.mode = .faulted) :
    decsymRepeat (k + 1) s = ([], t) := by
  simp [decsymRepeat, h, hm]

/-- A state with another `MODE` and another `SO`: all in which the loop of `DECSTR` and repeated `DECSYM` differ between
two symbols. -/
def withModeOut (m : Mode) (out : List Nat) (s : State) : State := { s with mode := m, symOut := out }

/-- Everything decoding a symbol can do, whatever `MODE` and `SO`: it looks at neither (R212 to R214). -/
theorem decodeSymbol_withModeOut (s : State) :
    (∃ v n rest, decodeSymbol s = .done (setResult v (setCursor n rest s)) ∧
      ∀ m out, decodeSymbol (withModeOut m out s) = .done (withModeOut m out (setResult v (setCursor n rest s)))) ∨
    (∃ c n rest, c ≠ .zeroLengthLoop ∧ decodeSymbol s = .raised (enterFault c (word n) (setCursor n rest s)) ∧
      ∀ m out, decodeSymbol (withModeOut m out s) =
        .raised (enterFault c (word n) (withModeOut m out (setCursor n rest s)))) ∨
    decodeSymbol s = .stuck .danglingPointer := by
  cases hroot : s.root with
  | none => exact .inr (.inr (by simp [decodeSymbol, hroot]))
  | some r =>
    cases hw : walk s.nodes r s.bitIn with
    | leaf n v rest =>
      exact .inl ⟨v, n, rest, by simp [decodeSymbol, hroot, hw],
        fun m out => by simp [decodeSymbol, withModeOut, hroot, hw, setResult, setCursor]⟩
    | truncated n =>
      exact .inr (.inl ⟨.truncatedStream, n, [], by decide, by simp [decodeSymbol, hroot, hw],
        fun m out => by simp [decodeSymbol, withModeOut, hroot, hw, setCursor]⟩)
    | missing n rest =>
      exact .inr (.inl ⟨.missingChild, n, rest, by decide, by simp [decodeSymbol, hroot, hw],
        fun m out => by simp [decodeSymbol, withModeOut, hroot, hw, setCursor]⟩)
    | dangling => exact .inr (.inr (by simp [decodeSymbol, hroot, hw]))

/-- The loop of `DECSTR` never raises `ZERO_LENGTH_LOOP`: only the pre-check does (R217, R219). -/
theorem decodeLoop_raised_fault {k : Nat} {s t : State} (h : decodeLoop k s = .raised t) :
    t.mode = .faulted ∧ t.fcause ≠ some .zeroLengthLoop := by
  induction k generalizing s with
  | zero => cases h
  | succ k ih =>
    rcases decodeSymbol_withModeOut s with ⟨v, n, rest, hd, -⟩ | ⟨c, n, rest, hc, hd, -⟩ | hd
    · by_cases hv : v = s.cfg.asize
      · cases h.symm.trans (decodeLoop_of_sentinel hd hv)
      · exact ih ((decodeLoop_of_symbol hd hv).symm.trans h)
    · cases h.symm.trans (decodeLoop_of_raised hd)
      exact ⟨rfl, by simpa using hc⟩
    · cases h.symm.trans (decodeLoop_of_stuck hd)

/-- `DECSYM` issued again and again from `IDLE` goes through the states of the loop of `DECSTR`, but for `MODE` and for
`SO`, and stops where the loop does (R220). -/
theorem decsymRepeat_of_decodeLoop {k : Nat} {s t : State} (out : List Nat) (htv : s.tv = true) :
    (decodeLoop k s = .done t → ∃ written, t.symOut = s.symOut ++ written ∧
      decsymRepeat k (withModeOut .idle out s) = (written ++ [s.cfg.asize], withModeOut .idle out t)) ∧
    (decodeLoop k s = .raised t → ∃ written, t.symOut = s.symOut ++ written ∧
      decsymRepeat k (withModeOut .idle out s) = (written, withModeOut t.mode out t)) := by
  induction k generalizing s with
  | zero => exact ⟨nofun, nofun⟩
  | succ k ih =>
    rcases decodeSymbol_withModeOut s with ⟨v, n, rest, hloop, hd⟩ | ⟨c, n, rest, -, hloop, hd⟩ | hloop
    · have hstep : exec .decsym (withModeOut .idle out s) =
          .next (withModeOut .idle out (setResult v (setCursor n rest s))) :=
        exec_decsym_of_done (s := withModeOut .idle out s) rfl htv (hd .run out)
      by_cases hv : v = s.cfg.asize
      · rw [decodeLoop_of_sentinel hloop hv, decsymRepeat_sentinel hstep nofun (decide_eq_true hv)]
        refine ⟨fun h => ?_, nofun⟩
        cases h
        exact ⟨[], (List.append_nil _).symm, by rw [← hv]; rfl⟩
      · rw [decodeLoop_of_symbol hloop hv]
        obtain ⟨hdone, hraised⟩ := ih (s := symWrite v (setResult v (setCursor n rest s))) htv
        have hcons {u symbols} := decsymRepeat_code (k := k) (u := u) (symbols := symbols) hstep nofun
          (decide_eq_false hv)
        refine ⟨fun h => ?_, fun h => ?_⟩
        · obtain ⟨written, hw, hrep⟩ := hdone h
          exact ⟨v :: written, hw.trans (List.append_assoc ..), hcons hrep⟩
        · obtain ⟨written, hw, hrep⟩ := hraised h
          exact ⟨v :: written, hw.trans (List.append_assoc ..), hcons hrep⟩
    · have hstep : exec .decsym (withModeOut .idle out s) =
          .next (enterFault c (word n) (withModeOut .run out (setCursor n rest s))) :=
        exec_decsym_of_raised (s := withModeOut .idle out s) rfl htv (hd .run out)
      rw [decodeLoop_of_raised hloop, decsymRepeat_faulted hstep rfl]
      refine ⟨nofun, fun h => ?_⟩
      cases h
      exact ⟨[], (List.append_nil _).symm, rfl⟩
    · rw [decodeLoop_of_stuck hloop]
      exact ⟨nofun, nofun⟩

/-- Everything `DECSTR` can answer with a tree in `IDLE` (R215, R219): the pre-check raised, or the loop completed, or
the loop raised. -/
theorem exec_decstr_next {s t : State} (hm : s.mode = .idle) (htv : s.tv = true) (h : exec .decstr s = .next t) :
    (∃ r, s.root = some r ∧ zeroLengthRoot s r = true ∧ t = enterFault .zeroLengthLoop (word r) (setMode .run s)) ∨
    (∃ u, decodeLoop (s.bitIn.length + 1) (setMode .run s) = .done u ∧ t = setMode .idle u) ∨
    decodeLoop (s.bitIn.length + 1) (setMode .run s) = .raised t := by
  have hbody : (∃ u, decstrBody (setMode .run s) = .done u ∧ t = setMode .idle u) ∨
      decstrBody (setMode .run s) = .raised t := by
    rcases runCommand_next h with ⟨hf, -⟩ | ⟨-, hu⟩ | ⟨-, hu⟩
    · cases hm.symm.trans hf
    · exact .inl hu
    · exact .inr hu
  rcases decstrBody_cases (s := setMode .run s) htv with hb | ⟨r, hroot, hz, hb⟩ | hb
  · rw [hb] at hbody
    simp at hbody
  · exact .inl ⟨r, hroot, hz, by simpa [hb, eq_comm] using hbody⟩
  · exact .inr (hb ▸ hbody)

/-- Settles O39: the loop of `DECSTR` is followed by repeated `DECSYM`; the pre-check raises on a one-node tree alone. -/
theorem incrementalDecodeEqualsStreamDecode : Obligations.IncrementalDecodeEqualsStreamDecode := by
  intro s t hm htv he
  have hstart : withModeOut .idle s.symOut (setMode .run s) = s := setMode_idle hm
  rcases exec_decstr_next hm htv he with ⟨r, hroot, hz, rfl⟩ | ⟨u, hloop, rfl⟩ | hloop
  · refine ⟨fun hno => absurd ⟨rfl, rfl⟩ hno, fun _ _ => ⟨rfl, rfl, ?_⟩⟩
    obtain ⟨nd, hn, hl, hsym⟩ := zeroLengthRoot_iff.1 hz
    have hdecsym := (oneNodeTreeReadsNoBit s r nd hm htv hroot hn hl).1
    exact ⟨r, nd, hroot, hn, hsym, by simpa [hsym] using hdecsym⟩
  · obtain ⟨written, hw, hrep⟩ := (decsymRepeat_of_decodeLoop s.symOut (s := setMode .run s) htv).1 hloop
    rw [hstart] at hrep
    exact ⟨fun _ => ⟨written, hw, hrep⟩, fun hf => by cases hf⟩
  · obtain ⟨hfaulted, hcause⟩ := decodeLoop_raised_fault hloop
    obtain ⟨written, hw, hrep⟩ := (decsymRepeat_of_decodeLoop s.symOut (s := setMode .run s) htv).2 hloop
    rw [hstart] at hrep
    refine ⟨fun _ => ⟨written, hw, ?_⟩, fun _ h => absurd h hcause⟩
    rw [hrep, hfaulted, if_neg (by decide), List.append_nil, ← hfaulted]
    rfl

end Sys2Proof.Machine

/-! SUPPORT. A write to `CMD`, by the word and the mode (R240 to R244): a command's word runs the command, an illegal
word faults in `IDLE`, and `FAULTED` ignores all but `CLEAR`. -/

namespace Sys2Proof.Machine

/-! ## A word that is a command (R240) -/

theorem writeCmd_of_command {w : Word} {i : Instr} (h : decode w = .ok i) (s : State) : writeCmd w s = exec i s := by
  simp [writeCmd, h]

theorem decodeTableWord_eq_some {nbits w : Nat} {i : Instr} :
    decodeTableWord nbits w = some i ↔ decode (BitVec.ofNat 32 (w % 2 ^ nbits)) = .ok i := by
  unfold decodeTableWord
  cases decode (BitVec.ofNat 32 (w % 2 ^ nbits)) <;> simp

/-- Settles O4: the step writes the word to `CMD`, and `withFetchWord` only puts that write in front of the port. -/
theorem stepRunsTheDecodedCommand : Obligations.StepRunsTheDecodedCommand := by
  refine ⟨fun s rest w i hm hh hw => ?_, fun s nbits w i hm hw => ?_⟩
  · rw [step_cmd hm hh, writeCmd_of_command hw]
  · rw [step_cmd (s := s.withFetchWord nbits w) hm rfl, writeCmd_of_command (decodeTableWord_eq_some.1 hw)]
    rfl

/-! ## A word that is none (R243, R244) -/

theorem writeCmd_of_illegal {w : Word} {e : DecodeError} (h : decode w = .error e) (s : State) :
    writeCmd w s = illegalCommand w s := by
  simp [writeCmd, h]

theorem illegalCommand_idle {s : State} (hm : s.mode = .idle) (w : Word) :
    illegalCommand w s = .next (enterFault .illegalCommand w s) := by
  simp [illegalCommand, hm]

theorem illegalCommand_faulted {s : State} (hm : s.mode = .faulted) (w : Word) : illegalCommand w s = .next s := by
  simp [illegalCommand, hm]

/-- Settles O5: the decoder rejects exactly these words, and an illegal word in `IDLE` enters the fault. -/
theorem illegalCommandFaultsInIdle : Obligations.IllegalCommandFaultsInIdle := by
  intro s rest w hm hh hbad
  obtain ⟨e, he⟩ := (illegalWordsAreTheReservedOnes w).2 hbad
  rw [step_cmd (by simp [hm]) hh, writeCmd_of_illegal he, illegalCommand_idle (by exact hm)]
  rfl

/-! ## `FAULTED` and `CLEAR` (R242, R243) -/

/-- Every command but `CLEAR` runs as `runCommand` of some body (R240). -/
theorem exec_eq_runCommand {i : Instr} (hi : i ≠ .clear) : ∃ body, exec i = runCommand body := by
  cases i with
  | buildc => exact ⟨buildcBody, rfl⟩
  | write => exact ⟨writeBody, rfl⟩
  | buildt => exact ⟨buildtBody, rfl⟩
  | decsym => exact ⟨decsymBody, rfl⟩
  | decstr => exact ⟨decstrBody, rfl⟩
  | clear => exact absurd rfl hi

theorem exec_faulted {s : State} {i : Instr} (hm : s.mode = .faulted) (hi : i ≠ .clear) : exec i s = .next s := by
  obtain ⟨body, hbody⟩ := exec_eq_runCommand hi
  rw [hbody, runCommand_faulted hm]

/-- In `FAULTED` a word other than that of `CLEAR` does nothing, whether it is a command or not (R243). -/
theorem writeCmd_faulted {s : State} {w : Word} (hm : s.mode = .faulted) (hw : w ≠ encode .clear) :
    writeCmd w s = .next s := by
  cases hd : decode w with
  | error e => rw [writeCmd_of_illegal hd, illegalCommand_faulted hm]
  | ok i =>
    have hi : i ≠ .clear := fun h => hw (h ▸ eq_encode_of_decode hd)
    rw [writeCmd_of_command hd, exec_faulted hm hi]

/-- Settles O6: the step is the write to `CMD`, which `FAULTED` ignores. -/
theorem faultedIgnoresAllButClear : Obligations.FaultedIgnoresAllButClear := by
  intro s rest w hm hh hw
  rw [step_cmd (by simp [hm]) hh, writeCmd_faulted (by exact hm) hw]

/-- Settles O10: `CLEAR` clears the block in both modes, and `FAULTED` ignores the other commands. -/
theorem clearRestoresResetState : Obligations.ClearRestoresResetState := by
  refine ⟨decode_encode .clear, fun s hm => ?_, fun s i hm hi => exec_faulted hm hi⟩
  have hrun : s.mode ≠ .run := by rcases hm with hm | hm <;> simp [hm]
  exact execClear_next hrun

end Sys2Proof.Machine

/-! SUPPORT. Faults (R260 to R277): how a block leaves `FAULTED`, which causes each command records, what a faulting
command does to the tree, and which faults a tree from `BUILDC` excludes. -/

namespace Sys2Proof.Machine

/-! ## The way out of `FAULTED` (R243, R277) -/

/-- Everything an event can do in `FAULTED`: the fault stays recorded, or the block is cleared, and then by the word of
`CLEAR` or by reset. -/
theorem serve_faulted {e : HostEvent} {s t : State} (hm : s.mode = .faulted) (h : serve e s = .next t) :
    (t.mode = .faulted ∧ t.fcause = s.fcause ∧ t.finfo = s.finfo) ∨
    (t.mode = .idle ∧ t.fcause = none ∧ t.finfo = 0#32 ∧ (e = .wr 0x000#32 4 0x0000000F#32 ∨ e = .reset)) := by
  rcases serve_cases e s with ⟨he, hs⟩ | ⟨r, hs⟩ | ⟨v, hs⟩ | ⟨i, v, -, hs⟩ | ⟨w, he, hs⟩ <;> rw [hs] at h
  · cases h; exact .inr ⟨rfl, rfl, rfl, .inr he⟩
  · cases h; exact .inl ⟨hm, rfl, rfl⟩
  · cases h; exact .inl ⟨hm, rfl, rfl⟩
  · cases h; exact .inl ⟨hm, rfl, rfl⟩
  · by_cases hw : w = encode .clear
    · subst hw
      rw [writeCmd_of_command (decode_encode .clear)] at h
      cases h.symm.trans (execClear_next (s := answer .done s) (by simp [hm]))
      exact .inr ⟨rfl, rfl, rfl, .inl he⟩
    · cases h.symm.trans (writeCmd_faulted (s := answer .done s) hm hw)
      exact .inl ⟨hm, rfl, rfl⟩

/-- Settles O7: a step waits or serves the event at the front of the port, and in `FAULTED` few events do more than
answer. -/
theorem onlyClearOrResetLeavesFaulted : Obligations.OnlyClearOrResetLeavesFaulted := by
  intro s t hm hst
  cases hh : s.host with
  | nil => cases hst.symm.trans (step_nil hh); exact .inl ⟨hm, rfl, rfl⟩
  | cons e rest =>
    rw [step_serve (by simp [hm]) hh] at hst
    simpa using serve_faulted (s := setHost rest s) hm hst

/-! ## The causes of each command (R272) -/

/-- The recorded fault is one that the table of R272 gives the command. -/
def CauseOf (i : Instr) (t : State) : Prop := ∃ c, t.fcause = some c ∧ c ∈ mayRaise i

/-- A command started in `IDLE` that ends in `FAULTED` raised in its body: one that completes ends in `IDLE` (R240,
R275). -/
theorem runCommand_faults {body : State → Flow} {s t : State} (hm : s.mode = .idle) (h : runCommand body s = .next t)
    (ht : t.mode = .faulted) : body (setMode .run s) = .raised t := by
  rcases runCommand_next h with ⟨hf, -⟩ | ⟨-, u, -, rfl⟩ | ⟨-, hu⟩
  · cases hm.symm.trans hf
  · cases ht
  · exact hu

theorem exec_buildc_causeOf {s t : State} (hm : s.mode = .idle) (h : exec .buildc s = .next t)
    (ht : t.mode = .faulted) : CauseOf .buildc t := by
  rcases exec_buildc hm with ⟨g, r, -, -, -, -, -, he⟩ | ⟨g, a, b, rest, -, -, -, -, he⟩ <;> cases h.symm.trans he
  · cases hm.symm.trans ht
  · exact ⟨.weightOverflow, rfl, by decide⟩

theorem exec_buildt_causeOf {s t : State} (hm : s.mode = .idle) (h : exec .buildt s = .next t)
    (ht : t.mode = .faulted) : CauseOf .buildt t := by
  obtain ⟨-, -, hstop⟩ :=
    loadPairs_cases s.cfg (pair := 0) loads_nil (admissible_nil _) (le_refl s.tabIn.length)
  obtain ⟨hcomplete, hfault⟩ := exec_buildt hm rfl
  rcases hstop with hstop | ⟨c, hstop, hc⟩
  · cases h.symm.trans (hcomplete hstop)
    cases hm.symm.trans ht
  · cases h.symm.trans (hfault c hstop)
    exact ⟨c, rfl, hc⟩

theorem writeBody_causeOf {s t : State} (h : writeBody s = .raised t) : CauseOf .write t := by
  rcases writeBody_cases s with ⟨bytes, hw⟩ | ⟨bytes, n, hw⟩ | ⟨-, hw⟩ | ⟨e, hw⟩ <;> cases h.symm.trans hw
  · exact ⟨.missingChild, rfl, by decide⟩
  · exact ⟨.noTree, rfl, by decide⟩

/-- Decoding a symbol raises where the bits run out or a child is missing, and nowhere else (R214). -/
theorem decodeSymbol_raised {s t : State} (h : decodeSymbol s = .raised t) :
    t.fcause = some .truncatedStream ∨ t.fcause = some .missingChild := by
  rcases decodeSymbol_cases s with ⟨r, p, rest, n, nd, -, -, -, -, -, hd⟩ | ⟨r, n, nd, -, -, -, -, hd⟩ |
    ⟨r, p, b, rest, n, nd, -, -, -, -, -, -, hd⟩ | ⟨-, hd⟩ <;> cases h.symm.trans hd
  · exact .inl rfl
  · exact .inr rfl

/-- The loop of `DECSTR` raises only what one of its symbols raises (R217). -/
theorem decodeLoop_raised {k : Nat} {s t : State} (h : decodeLoop k s = .raised t) :
    t.fcause = some .truncatedStream ∨ t.fcause = some .missingChild := by
  induction k generalizing s with
  | zero => cases h
  | succ k ih =>
    rcases Flow.andThen_raised.1 h with hsymbol | ⟨u, -, hrest⟩
    · exact decodeSymbol_raised hsymbol
    · split at hrest
      · cases hrest
      · exact ih hrest

theorem decsymBody_causeOf {s t : State} (h : decsymBody s = .raised t) : CauseOf .decsym t := by
  cases htv : s.tv with
  | false =>
    cases h.symm.trans (decsymBody_of_no_tree htv)
    exact ⟨.noTree, rfl, by decide⟩
  | true =>
    rcases decodeSymbol_raised ((decsymBody_of_tree htv).symm.trans h) with hc | hc <;> exact ⟨_, hc, by decide⟩

theorem decstrBody_causeOf {s t : State} (h : decstrBody s = .raised t) : CauseOf .decstr t := by
  cases htv : s.tv with
  | false =>
    cases h.symm.trans (decstrBody_of_no_tree htv)
    exact ⟨.noTree, rfl, by decide⟩
  | true =>
    rcases decstrBody_cases htv with hb | ⟨r, -, -, hb⟩ | hb
    · cases h.symm.trans hb
    · cases h.symm.trans hb
      exact ⟨.zeroLengthLoop, rfl, by decide⟩
    · rcases decodeLoop_raised (hb.symm.trans h) with hc | hc <;> exact ⟨_, hc, by decide⟩

/-- Settles O42, command by command. -/
theorem commandsRaiseOnlyTheirCauses : Obligations.CommandsRaiseOnlyTheirCauses := by
  intro i s t hm h ht
  cases i with
  | buildc => exact exec_buildc_causeOf hm h ht
  | write => exact writeBody_causeOf (runCommand_faults hm h ht)
  | buildt => exact exec_buildt_causeOf hm h ht
  | decsym => exact decsymBody_causeOf (runCommand_faults hm h ht)
  | decstr => exact decstrBody_causeOf (runCommand_faults hm h ht)
  | clear =>
    cases h.symm.trans (execClear_next (by simp [hm]))
    cases ht

/-! ## The tree of a faulting command (R275, R276) -/

/-- Settles O43: `WRITE` appends to `TO` and the decoders keep their frame; a faulting build is written out by
`exec_buildc` and `exec_buildt_next`. -/
theorem faultsKeepOrDropTheTree : Obligations.FaultsKeepOrDropTheTree := by
  refine ⟨?keep, ?drop⟩
  case keep =>
    rintro i s t (rfl | rfl | rfl) h
    · obtain ⟨codes, rfl | ⟨c, w, rfl⟩⟩ := exec_write_next h
      · exact ⟨rfl, rfl, rfl, rfl⟩
      · exact ⟨rfl, rfl, rfl, rfl⟩
    · obtain ⟨hframe, -⟩ := decodersFrame.1 s t h
      rw [hframe]
      exact ⟨rfl, rfl, rfl, rfl⟩
    · obtain ⟨hframe, -⟩ := decodersFrame.2 s t h
      rw [hframe]
      exact ⟨rfl, rfl, rfl, rfl⟩
  case drop =>
    rintro i s t (rfl | rfl) hm h ht
    · rcases exec_buildc hm with ⟨g, r, -, -, -, -, -, he⟩ | ⟨g, a, b, rest, -, -, -, -, he⟩ <;> cases h.symm.trans he
      · cases hm.symm.trans ht
      · exact ⟨rfl, fun _ => rfl⟩
    · obtain ⟨g, codes, -, -, -, ⟨hidle, -⟩ | ⟨-, htv⟩⟩ := exec_buildt_next hm h
      · cases hidle.symm.trans ht
      · exact ⟨htv, nofun⟩

/-! ## After a completed `BUILDC` (R47, R272) -/

/-- In a count-built arena every child stands below its parent (R44). -/
theorem Woods.falls {L : List Node} {f : Forest} (h : Woods L f) : Falls f.nodes id := by
  intro i nd b c hn hc
  have hsv : nd.symv = false := (h.agree nd (List.mem_of_getElem? hn)).trans (isLeaf_of_child hc)
  obtain ⟨l, r, rfl, ⟨hl, -⟩, ⟨hr, -⟩, -⟩ := h.forked i nd hn hsv
  cases b with
  | false => cases hc; exact hl
  | true => cases hc; exact hr

/-- A tree over the leaves of `BUILDC` that is one leaf is the sentinel's (R134). -/
theorem eq_sentinel_of_leaf {s : State} {T : CodeTree}
    (h : (T.codes.map Prod.fst).Perm (presentSymbols s ++ [s.cfg.asize])) {u : Nat} (hT : T = .leaf u) :
    u = s.cfg.asize := by
  subst hT
  have hmem := h.mem_iff.2 (List.mem_append_right _ (List.mem_singleton_self s.cfg.asize))
  exact (List.mem_singleton.1 hmem).symm

/-- The block has a valid tree `T` at `r` that `WRITE` and `DECSTR` can go through to its end: its arena has no cycle,
and if it is one leaf, that is the sentinel's (R47, R219). -/
structure Whole (t : State) (r : Nat) (T : CodeTree) : Prop where
  valid : t.tv = true
  rooted : t.root = some r
  held : Holds t.nodes r T
  falls : Falls t.nodes id
  within : r < t.nodes.length
  oneLeaf : ∀ u, T = .leaf u → u = t.cfg.asize

/-- A completed `BUILDC` leaves such a tree. -/
theorem exec_buildc_whole {s t : State} (hm : s.mode = .idle) (he : exec .buildc s = .next t) (ht : t.mode = .idle) :
    ∃ r T, Whole t r T := by
  rcases exec_buildc hm with ⟨g, r, -, hw, hp, -, -, h⟩ | ⟨g, a, b, rest, -, -, -, -, h⟩ <;> cases he.symm.trans h
  · obtain ⟨T, hT, hsym⟩ := hw.tree hp
    rw [allLeaves_syms] at hsym
    exact ⟨r, T, rfl, rfl, hT, hw.falls, hw.within r (by simp [hp]), fun u hu => eq_sentinel_of_leaf hsym hu⟩
  · cases ht

/-- `WRITE` over such a tree completes. -/
theorem Whole.exec_write {t : State} {r : Nat} {T : CodeTree} (h : Whole t r T) (hm : t.mode = .idle) :
    exec .write t = .next { t with tabOut := t.tabOut ++ tableText T.codes } :=
  exec_write_of_done hm (writeBody_holds (s := setMode .run t) h.falls h.valid h.rooted h.held h.within)

/-- Over a well-formed tree decoding a symbol completes, or its bits run out (R47, R214). -/
theorem decodeSymbol_of_holds {s : State} {r : Nat} {T : CodeTree} (hroot : s.root = some r) (hT : Holds s.nodes r T) :
    (∃ v n rest, decodeSymbol s = .done (setResult v (setCursor n rest s))) ∨
    ∃ n, decodeSymbol s = .raised (enterFault .truncatedStream (word n) (setCursor n [] s)) := by
  rcases walk_of_holds hT s.bitIn with ⟨n, v, rest, -, hw⟩ | ⟨n, -, hw⟩
  · exact .inl ⟨v, n, rest, by simp [decodeSymbol, hroot, hw]⟩
  · exact .inr ⟨n, by simp [decodeSymbol, hroot, hw]⟩

/-- `DECSYM` over such a tree completes, or its bits run out. -/
theorem Whole.exec_decsym {t : State} {r : Nat} {T : CodeTree} (h : Whole t r T) (hm : t.mode = .idle) :
    ∃ x, exec .decsym t = .next x ∧ (x.mode = .idle ∨ x.fcause = some .truncatedStream) := by
  rcases decodeSymbol_of_holds (s := setMode .run t) h.rooted h.held with ⟨v, n, rest, hd⟩ | ⟨n, hd⟩
  · exact ⟨_, exec_decsym_of_done hm h.valid hd, .inl rfl⟩
  · exact ⟨_, exec_decsym_of_raised hm h.valid hd, .inr rfl⟩

/-- `DECSTR` over such a tree completes, or its bits run out: `decodeLoop_alike`, of the block and itself, names both
ends of the loop. -/
theorem Whole.exec_decstr {t : State} {r : Nat} {T : CodeTree} (h : Whole t r T) (hm : t.mode = .idle) :
    ∃ x, exec .decstr t = .next x ∧ (x.mode = .idle ∨ x.fcause = some .truncatedStream) := by
  have hz : zeroLengthRoot (setMode .run t) r = false := Bool.eq_false_iff.2 fun hz => by
    obtain ⟨u, hu, hne⟩ := (zeroLengthRoot_of_holds (s := setMode .run t) h.held).1 hz
    exact hne (h.oneLeaf u hu)
  have hbody := decstrBody_of_tree (s := setMode .run t) h.valid h.rooted hz
  rcases decodeLoop_alike (t.bitIn.length + 1) (a := setMode .run t) (b := setMode .run t) h.rooted h.rooted h.held
      h.held rfl rfl rfl (Nat.lt_succ_self _) h.oneLeaf with
    ⟨x, -, hx, -⟩ | ⟨x, -, hx, -, -, -, -, -, hc, -⟩
  · exact ⟨_, runCommand_done hm (hbody.trans hx), .inl rfl⟩
  · exact ⟨x, runCommand_raised hm (hbody.trans hx), .inr hc⟩

/-- The bits on `BI` are no part of the tree (R54). -/
theorem Whole.with_bits {t : State} {r : Nat} {T : CodeTree} (h : Whole t r T) (bits : List Bool) :
    Whole { t with bitIn := bits } r T :=
  ⟨h.valid, h.rooted, h.held, h.falls, h.within, h.oneLeaf⟩

/-- Settles O44: the tree that a completed `BUILDC` leaves is whole, whatever bits follow. -/
theorem countBuiltTreeNeverMissesAChild : Obligations.CountBuiltTreeNeverMissesAChild := by
  intro s t bits hm he ht
  obtain ⟨r, T, hwhole⟩ := exec_buildc_whole hm he ht
  refine ⟨⟨_, hwhole.exec_write ht, ht⟩, ?_⟩
  rintro i (rfl | rfl)
  · exact (hwhole.with_bits bits).exec_decsym ht
  · exact (hwhole.with_bits bits).exec_decstr ht

end Sys2Proof.Machine

/-! SUPPORT. What the block is after reset and what a reset does to a running block (R300 to R302), the empty and the
stalled host port (R303, R6), and the length of the codes `BUILDC` makes (R316). -/

namespace Sys2Proof.Machine

/-! ## The length of a code (R316) -/

/-- There is one symbol per index below `ASIZE`, so at most `ASIZE` have a count (R139). -/
theorem presentSymbols_length_le (s : State) : (presentSymbols s).length ≤ s.cfg.asize := by
  simpa only [presentSymbols, List.length_range] using List.length_filter_le _ (List.range s.cfg.asize)

/-- A code of a tree over the present symbols and the sentinel has at most one bit for each present symbol. -/
theorem code_length_le_presentSymbols {s : State} {T : CodeTree}
    (h : (T.codes.map Prod.fst).Perm (presentSymbols s ++ [s.cfg.asize])) {c : Nat × List Bool} (hc : c ∈ T.codes) :
    c.2.length ≤ (presentSymbols s).length := by
  have hleaves : (labels T).length = (presentSymbols s).length + 1 := by
    rw [← labels_eq, h.length_eq, List.length_append, List.length_singleton]
  have hdepth := depth_le T c hc
  omega

/-- Settles O19: the tree held at the root is the one over the present symbols and the sentinel, and a leaf is less
deep than its tree has leaves. -/
theorem buildcCodesAreAtMostAsizeLong : Obligations.BuildcCodesAreAtMostAsizeLong := by
  intro s t hm he ht r T hroot hT c hc
  obtain ⟨r', T', hroot', hT', hperm⟩ := buildcTreeIsWellFormed s t hm he ht
  obtain rfl : r' = r := Option.some.inj (hroot'.symm.trans hroot)
  obtain rfl : T' = T := holds_unique hT' hT
  have hlen := code_length_le_presentSymbols hperm hc
  exact ⟨hlen, hlen.trans (presentSymbols_length_le s)⟩

/-! ## The host port at rest and stalled (R303, R6) -/

/-- Settles O8: a step with nothing to take waits, and no event is taken in `RUN`. -/
theorem emptyPortWaitsAndRunStalls : Obligations.EmptyPortWaitsAndRunStalls := by
  refine ⟨fun s hh => step_nil hh, fun s e rest hm hh => ?_⟩
  rw [step_cons hh, transact_of_run (s := setHost rest s) hm]

/-! ## Reset (R300 to R302) -/

/-- Clearing the block leaves the reset state of its parameters, and the streams and the host port (R242, R301). -/
theorem clearBlock_eq_resetOf (s : State) :
    clearBlock s = { State.resetOf s.cfg with
      tabIn := s.tabIn, tabOut := s.tabOut, bitIn := s.bitIn, symOut := s.symOut,
      host := s.host, replies := s.replies } := rfl

/-- A reset clears the block, and nothing answers it (R302). -/
theorem step_reset {s : State} {rest : List HostEvent} (hm : s.mode ≠ .run) (hh : s.host = .reset :: rest) :
    step s = .next (clearBlock (setHost rest s)) :=
  step_serve hm hh

/-- After reset no flag is set, so `STATUS` reads 0 (R37, R300). -/
theorem readReg_status_resetOf (c : Config) : readReg .status (State.resetOf c) = 0#32 :=
  readReg_status (State.resetOf c)

/-- Settles O9: the values stand in the definition of the reset state, and a reset clears the block. -/
theorem resetStateValues : Obligations.ResetStateValues := by
  refine ⟨fun c => ⟨rfl, readReg_status_resetOf c, rfl, rfl, rfl, rfl, rfl, rfl, rfl, rfl, fun _ => rfl, rfl⟩, fun s rest hm hh => ?_⟩
  rw [step_reset hm hh, clearBlock_eq_resetOf]
  rfl

/-- The reset state is a cleared block, and its `SO` is empty (R300). -/
theorem inv_resetOf {c : Config} (h : c.wf = true) : Inv (State.resetOf c) :=
  inv_clearBlock (s := State.resetOf c) h (List.forall_mem_nil _)

/-- Settles O45: a cleared block of legal parameters satisfies the invariant, and the defaults are legal. -/
theorem resetSatisfiesInvariant : Obligations.ResetSatisfiesInvariant :=
  ⟨inv_resetOf (by decide), fun _ => inv_resetOf⟩

end Sys2Proof.Machine
